-- ==== Sys2Proof/Word.lean ====
section
/-! DEFINITION. The widths of the machine: a register, a command word and an address are 32 bits wide, a memory cell is a byte. -/

namespace Sys2Proof

/-- A register, a command word, a frame-memory address (R6: REG_WIDTH = ADDR_WIDTH = 32). -/
abbrev Word := BitVec 32

/-- One byte of frame memory (R60). -/
abbrev Byte := BitVec 8

end Sys2Proof
end

