-- ==== Sys2Proof/Syntax.lean ====
section
/-! DEFINITION. The instructions: one constructor per row of spec/opcode_table.json (R91). A command word has no operand
fields (R90, R94): every operand is a register of the snapshot. -/

namespace Sys2Proof

/-- The nine commands (R2, R91). -/
inductive Instr where
  /-- Alpha-channel composition (R140). -/
  | compose
  /-- Mask-weighted interpolation of two frames (R151). -/
  | blend
  /-- Clamped per-byte difference (R153). -/
  | subtract
  /-- toHSV per pixel (R180). -/
  | rgb2hsv
  /-- toRGB per pixel (R181). -/
  | hsv2rgb
  /-- S/V histogram stretch (R186). -/
  | autostretch
  /-- V-only stretch through a CMYK split (R188). -/
  | colorenhance
  /-- Adaptive and recursive rank-order filter (R217). -/
  | despeckle
  /-- 3×3 gradient-magnitude edge detector (R247). -/
  | sobel
  deriving DecidableEq, Repr

end Sys2Proof
end

