-- ==== Sys2Proof/Decode.lean ====
section
/-! DEFINITION. The command word (R90 to R93): the decoder, total on every 32-bit word, then the encoder. -/

namespace Sys2Proof

/-- Why a word selects no command (R92). Both end in ILLEGAL_COMMAND (R93). -/
inductive DecodeError where
  /-- RSVD, bits 31:8, is not 0 (R90). -/
  | reservedBits
  /-- OPCODE is 0x00 or 0x0A to 0xFF (R92). -/
  | undefinedOpcode
  deriving DecidableEq, Repr

/-- OPCODE, bits 7:0 (R90). -/
def opcodeField (w : Word) : BitVec 8 := w.extractLsb' 0 8

/-- RSVD, bits 31:8 (R90). -/
def rsvdField (w : Word) : BitVec 24 := w.extractLsb' 8 24

/-- The opcode map (R91). -/
def instrOfOpcode (opcode : Nat) : Option Instr :=
  match opcode with
  | 0x01 => some .compose
  | 0x02 => some .blend
  | 0x03 => some .subtract
  | 0x04 => some .rgb2hsv
  | 0x05 => some .hsv2rgb
  | 0x06 => some .autostretch
  | 0x07 => some .colorenhance
  | 0x08 => some .despeckle
  | 0x09 => some .sobel
  | _ => none

/-- The instruction a command word selects (R91, R92). -/
def decode (w : Word) : Except DecodeError Instr :=
  if rsvdField w ≠ 0 then .error .reservedBits
  else
    match instrOfOpcode (opcodeField w).toNat with
    | some i => .ok i
    | none => .error .undefinedOpcode

/-- The OPCODE of a command (R91). -/
def opcode : Instr → BitVec 8
  | .compose => 0x01
  | .blend => 0x02
  | .subtract => 0x03
  | .rgb2hsv => 0x04
  | .hsv2rgb => 0x05
  | .autostretch => 0x06
  | .colorenhance => 0x07
  | .despeckle => 0x08
  | .sobel => 0x09

/-- The command word: OPCODE in bits 7:0, RSVD zero (R90, R97). -/
def encode (i : Instr) : Word := (0 : BitVec 24) ++ opcode i

/-- What the decoder reads from a row of spec/opcode_table.json: the low `nbits` bits of w, every bit above them 0. A command
is one 32-bit word written whole to CMD (R97), so no byte order enters (R65). -/
def decodeTableWord (nbits w : Nat) : Option Instr :=
  let v := w % 2 ^ nbits
  if v < 2 ^ 32 then (decode (BitVec.ofNat 32 v)).toOption else none

end Sys2Proof
end

