-- ==== Sys2Proof/Config.lean ====
section
/-! DEFINITION. What an implementation or a platform fixes (the parameters of R6) and the free values: constants
without a body, so that nothing proved can rest on what they are. -/

namespace Sys2Proof

/-- The parameters of R6 that commands depend on. They are an argument of the machine: State carries them, no step changes
them, and a statement about every state holds for every value of them. DESIGN CHOICE (log 1). -/
structure Platform where
  /-- MEM_SIZE, the number of bytes of frame memory: 1 ≤ MEM_SIZE ≤ 2^32 (R6, 93 U9). -/
  memSize : Nat
  /-- SOBEL_MAX_ABS ≥ 1, the divisor of the rescale in abs-magnitude mode (R244). -/
  sobelMaxAbs : Nat
  /-- SOBEL_MAX_L2 ≥ 1, the divisor of the rescale in L2-magnitude mode (R244). -/
  sobelMaxL2 : Nat
  deriving DecidableEq, Repr

/-- The platform State.reset stands on: the defaults R6 names for the SOBEL divisors, and the memory size of the spec's own
vectors (95_test_vectors.md). DESIGN CHOICE (log 1), unsafe for a statement about State.reset alone. -/
def Platform.atReset : Platform := ⟨0x10000, 1530, 1140⟩

/-- The bounds R6 and R244 put on the parameters. -/
abbrev Platform.legal (p : Platform) : Prop :=
  1 ≤ p.memSize ∧ p.memSize ≤ 2 ^ 32 ∧ 1 ≤ p.sobelMaxAbs ∧ 1 ≤ p.sobelMaxL2

/-- REG_BASE, the bus address of register offset 0x00 (R6, R69, 93 U10). No rule depends on it (log 15). -/
opaque Config.regBase : Nat

/-- The bus address of a register offset (R23). -/
def Config.regBusAddress (offset : BitVec 8) : Nat := Config.regBase + offset.toNat

/-- FREE VALUE: the byte each address of frame memory holds at power-on, before anyone has written it (R302, 93 U6).
One value per address, because reads are idempotent (R68). DESIGN CHOICE, safe (log 3). -/
opaque Config.powerOnByte : Nat → Byte

/-- FREE VALUE: the n-th byte drawn where the spec says "any value, byte by byte": a host read of a D byte before completion
was observed (93 U4) and the D extent after a reset during a command (93 U5). DESIGN CHOICE, safe (logs 5 and 6). -/
opaque Config.freeByte : Nat → Byte

/-- FREE VALUE: the n-th MEDIAN_TIE draw (R215, 93 S4), taken modulo the number of admissible pixels. DESIGN CHOICE, safe
(log 4). -/
opaque Config.medianTie : Nat → Nat

end Sys2Proof
end

