-- ==== Sys2Proof/Machine/Bus.lean ====
section
/-! DEFINITION. The register map (R23) and what happens at a block's interfaces (R22): the operations of a host program
(R98), the turns of the blocks and the reset lines. -/

namespace Sys2Proof.Machine

/-- The registers of the 256-byte window (R23). -/
inductive Reg where
  | ctrl | status | cmd
  | aBase | aWidth | aHeight | aFmt
  | bBase | bWidth | bHeight | bFmt
  | mBase | mWidth | mHeight
  | dBase
  | medRadius | medBlack | medWhite | medFlags
  | sobelFlags
  deriving DecidableEq, Repr

/-- The offset column of R23. -/
def Reg.offset : Reg → BitVec 8
  | .ctrl => 0x00 | .status => 0x04 | .cmd => 0x08
  | .aBase => 0x10 | .aWidth => 0x14 | .aHeight => 0x18 | .aFmt => 0x1C
  | .bBase => 0x20 | .bWidth => 0x24 | .bHeight => 0x28 | .bFmt => 0x2C
  | .mBase => 0x30 | .mWidth => 0x34 | .mHeight => 0x38
  | .dBase => 0x40
  | .medRadius => 0x50 | .medBlack => 0x54 | .medWhite => 0x58 | .medFlags => 0x5C
  | .sobelFlags => 0x60

/-- Every register of R23, in the order of their offsets. -/
def Reg.all : List Reg :=
  [.ctrl, .status, .cmd, .aBase, .aWidth, .aHeight, .aFmt, .bBase, .bWidth, .bHeight, .bFmt, .mBase, .mWidth, .mHeight,
    .dBase, .medRadius, .medBlack, .medWhite, .medFlags, .sobelFlags]

/-- The register at an offset; none for a reserved offset (R23, R28). -/
def Reg.ofOffset (off : BitVec 8) : Option Reg := Reg.all.find? fun r => r.offset == off

/-- One thing that happens at the machine's interfaces. Instances are numbered from 0 (R292); instance 0 is State.block. -/
inductive Event where
  /-- WR: the host writes `data` at a register offset of an instance, in an access `bits` wide (R28). -/
  | regWrite (inst : Nat) (bits : Nat) (off : BitVec 8) (data : Word)
  /-- RD: the host reads a register offset of an instance, in an access `bits` wide (R28). -/
  | regRead (inst : Nat) (bits : Nat) (off : BitVec 8)
  /-- WAIT: read STATUS until BUSY reads 0 (R98). -/
  | wait (inst : Nat)
  /-- The host looks at the irq line of an instance (R29, R72). -/
  | irqRead (inst : Nat)
  /-- MEMWR: the host writes bytes at a, a+1, ... (R98). -/
  | memWrite (addr : Word) (bytes : List Byte)
  /-- MEMRD: the host reads n bytes from a (R98). -/
  | memRead (addr : Word) (n : Nat)
  /-- A turn of an instance's block (R118): nothing where no command is pending. -/
  | block (inst : Nat)
  /-- The platform drives the reset input of an instance (R300). -/
  | reset (inst : Nat) (asserted : Bool)
  deriving DecidableEq, Repr

/-- What the host is answered. -/
inductive Reply where
  /-- The value of a register read. -/
  | word (v : Word)
  /-- The level of the irq line. -/
  | irq (level : Bool)
  /-- The bytes of a frame-memory read. -/
  | bytes (l : List Byte)
  /-- A refused access (93 U1, U7): it had no effect, and what the bus returns is the platform's. -/
  | refused
  deriving DecidableEq, Repr

end Sys2Proof.Machine
end

