-- ==== Sys2Proof/Machine/State.lean ====
section
/-! DEFINITION. The state of the machine, as plain data, the reasons a step can stop, and the state after reset. -/

namespace Sys2Proof.Machine

/-- The 17 descriptor and configuration registers (R23, R30 to R36), 32 bits stored each. A snapshot copies all of them
(R112). -/
structure OpRegs where
  aBase : Word
  aWidth : Word
  aHeight : Word
  aFmt : Word
  bBase : Word
  bWidth : Word
  bHeight : Word
  bFmt : Word
  mBase : Word
  mWidth : Word
  mHeight : Word
  dBase : Word
  medRadius : Word
  medBlack : Word
  medWhite : Word
  medFlags : Word
  sobelFlags : Word
  deriving DecidableEq, Repr

/-- The reset values of R23: the despeckle and Sobel defaults, every descriptor 0. -/
def OpRegs.reset : OpRegs where
  aBase := 0
  aWidth := 0
  aHeight := 0
  aFmt := 0
  bBase := 0
  bWidth := 0
  bHeight := 0
  bFmt := 0
  mBase := 0
  mWidth := 0
  mHeight := 0
  dBase := 0
  medRadius := 1
  medBlack := 7
  medWhite := 0xF8
  medFlags := 0
  sobelFlags := 1

/-- A pending command (R38, R112): the word written to CMD and the registers as they stood then. -/
structure Snapshot where
  word : Word
  regs : OpRegs
  deriving DecidableEq, Repr

/-- A byte region of frame memory, in exact integers (R114). -/
structure Extent where
  base : Nat
  len : Nat
  deriving DecidableEq, Repr

/-- The error codes of R270. Codes 7 to 15 are never written (93 X6), so they are not values of this type. -/
inductive ErrCode where
  | ok
  | illegalCommand
  | invalidConfig
  | unsupportedFormat
  | dimensionMismatch
  | resource
  | overlap
  deriving DecidableEq, Repr

/-- One instance of the block: everything of R23 that is storage, the pending command of R38 and the reset input. -/
structure Block where
  /-- CTRL.IRQ_EN (R24). CTRL has no other stored bit. -/
  irqEn : Bool
  /-- STATUS.DONE (R25). -/
  done : Bool
  /-- STATUS.ERR (R25). -/
  err : Bool
  /-- STATUS.CMD_LOST (R25, R27). -/
  cmdLost : Bool
  /-- STATUS.ERRCODE (R25, R270). -/
  errCode : ErrCode
  /-- The live descriptor and configuration registers (R23). -/
  regs : OpRegs
  /-- The pending command. STATUS.BUSY is 1 exactly while one is held (R38), so BUSY has no storage of its own (log 11). -/
  pending : Option Snapshot
  /-- The level of the reset input (R22, R300). -/
  inReset : Bool
  /-- The MODEL's own: the D extents of accepted commands whose completion the host has not observed yet (R72, 93 U4; log 5). -/
  unsettled : List Extent
  deriving DecidableEq, Repr

/-- An instance after reset (R43, R300), its reset input released (93 U11). -/
def Block.reset : Block where
  irqEn := false
  done := false
  err := false
  cmdLost := false
  errCode := .ok
  regs := OpRegs.reset
  pending := none
  inReset := false
  unsettled := []

/-- Frame memory (R60): the bytes somebody has written, addresses strictly rising. An address that is not listed holds no
written value; what a read of it gives is Config.powerOnByte (log 3). -/
abbrev Memory := List Host.Cell

/-- The machine: the instances (R292), the frame memory they share, the parameters of R6, and what the model adds to make the
interleaving of agents plain data (log 2). -/
structure State where
  /-- The parameters of R6, which no step changes (log 1). -/
  platform : Platform
  /-- Instance 0. `exec` runs the command pending here. -/
  block : Block
  /-- Instances 1, 2, ... (R292; log 10). -/
  others : List Block
  /-- Frame memory (R60). -/
  mem : Memory
  /-- The MODEL's own: the events still to come, in order (log 2). -/
  inbox : List Event
  /-- The MODEL's own: what the host has been answered, newest first (log 16). -/
  replies : List Reply
  /-- The MODEL's own: how many free values have been drawn (log 4). -/
  draws : Nat
  deriving DecidableEq, Repr

/-- Why a step stops. -/
inductive Fault where
  /-- The host wrote a byte of an extent of a running command (R77, R310 H3, 93 U3 "fault"). Raised by a host memory write.
  Safe: the spec says no rule applies after it. -/
  | hostWroteLiveExtent
  /-- A command was accepted whose extents break the disjointness of concurrently running instances (R292, R310 H6, 93 U3
  "fault"). Raised by an accepted CMD write. Safe: the spec says no rule applies after it. -/
  | sharedExtents
  /-- The host read or wrote an address at or above MEM_SIZE, where frame memory has no byte (R60). Raised by a host memory
  access, never by a command (R113). Safe (log 9). -/
  | addressBeyondMemory
  /-- exec was asked to run a command while none is pending (R118: "require state.pending"). Never raised by step. Safe
  (log 14). -/
  | noPendingCommand
  deriving DecidableEq, Repr

/-- Why an instruction has no meaning. -/
inductive Refusal where
  /-- An instruction without a meaning yet. No arm of exec uses it. Safe. -/
  | notModelled (mnemonic : String)
  deriving DecidableEq, Repr

/-- The machine right after reset (R43, R300): one instance at its reset values, frame memory unwritten, nothing to come. The
platform (log 1), the number of instances (log 10) and the model's own fields (logs 2, 4, 16) are DESIGN CHOICE. -/
def State.reset : State where
  platform := Platform.atReset
  block := Block.reset
  others := []
  mem := []
  inbox := []
  replies := []
  draws := 0

end Sys2Proof.Machine
end

