-- ==== Sys2Proof/Machine/Flags.lean ====
section
/-! DEFINITION. The flags: the STATUS word (R25, R37), its write-one-to-clear bits and the irq output (R29). No command
computes a condition code (R37). -/

namespace Sys2Proof.Machine

/-- The number of an error code, as ERRCODE holds it (R270). -/
def ErrCode.number : ErrCode → BitVec 4
  | .ok => 0
  | .illegalCommand => 1
  | .invalidConfig => 2
  | .unsupportedFormat => 3
  | .dimensionMismatch => 4
  | .resource => 5
  | .overlap => 6

/-- STATUS.BUSY: 1 exactly while a snapshot is held (R38). -/
def Block.busy (b : Block) : Bool := b.pending.isSome

/-- The word a read of STATUS returns (R25): reserved bits 7:4 and 31:12 read 0. -/
def Block.statusWord (b : Block) : Word :=
  (0 : BitVec 20) ++ b.errCode.number ++ (0 : BitVec 4) ++ BitVec.ofBool b.cmdLost ++ BitVec.ofBool b.err ++
    BitVec.ofBool b.done ++ BitVec.ofBool b.busy

/-- The word a read of CTRL returns (R24): reserved bits 31:1 read 0. -/
def Block.ctrlWord (b : Block) : Word := (0 : BitVec 31) ++ BitVec.ofBool b.irqEn

/-- A write to STATUS: bits 1, 2 and 3 set clear DONE, ERR and CMD_LOST; nothing else changes (R25, R276). -/
def Block.clearStatus (b : Block) (v : Word) : Block :=
  { b with
    done := b.done && !v.getLsbD 1
    err := b.err && !v.getLsbD 2
    cmdLost := b.cmdLost && !v.getLsbD 3 }

/-- A write to CTRL: bit 0 is IRQ_EN, bits 31:1 are ignored (R24). -/
def Block.writeCtrl (b : Block) (v : Word) : Block := { b with irqEn := v.getLsbD 0 }

/-- The irq output, a level (R29, R280): CMD_LOST does not drive it. -/
def Block.irq (b : Block) : Bool := b.irqEn && (b.done || b.err)

end Sys2Proof.Machine
end

