-- ==== Sys2Proof/Machine/Operands.lean ====
section
/-! DEFINITION. What a command's operands are: format codes and layouts (R62 to R64, R95), what each command accepts and
writes (R96), extents (R114) and validation (R113). -/

namespace Sys2Proof.Machine

/-- The pixel formats (R95). -/
inductive Format where
  | gray8 | rgb24 | yuv444 | hsv24 | argb32 | ayuv32 | i420 | raw1 | raw2 | raw3 | raw4
  deriving DecidableEq, Repr

/-- The codes of R95, compared as whole 32-bit values. -/
def Format.code : Format → Word
  | .gray8 => 0x01
  | .rgb24 => 0x02
  | .yuv444 => 0x03
  | .hsv24 => 0x04
  | .argb32 => 0x05
  | .ayuv32 => 0x06
  | .i420 => 0x07
  | .raw1 => 0x11
  | .raw2 => 0x12
  | .raw3 => 0x13
  | .raw4 => 0x14

/-- Every format of R95. -/
def Format.all : List Format :=
  [.gray8, .rgb24, .yuv444, .hsv24, .argb32, .ayuv32, .i420, .raw1, .raw2, .raw3, .raw4]

/-- The format a register value names; none for an undefined code (R95). -/
def Format.ofCode (w : Word) : Option Format := Format.all.find? fun f => f.code == w

/-- Bytes per pixel (R95); none for the planar format. -/
def Format.bpp : Format → Option Nat
  | .gray8 => some 1
  | .rgb24 => some 3
  | .yuv444 => some 3
  | .hsv24 => some 3
  | .argb32 => some 4
  | .ayuv32 => some 4
  | .i420 => none
  | .raw1 => some 1
  | .raw2 => some 2
  | .raw3 => some 3
  | .raw4 => some 4

/-- packed(code): every defined code except I420 (R95). -/
def Format.packed (f : Format) : Bool := f.bpp.isSome

/-- A width or a height of the chroma planes: half, rounded up (R64). -/
def half (n : Nat) : Nat := (n + 1) / 2

/-- The bytes of a W×H frame of a format: packed without padding (R62), or the three planes of I420 (R64). -/
def Format.size (f : Format) (w h : Nat) : Nat :=
  match f.bpp with
  | some bpp => w * h * bpp
  | none => w * h + 2 * (half w * half h)

/-- The A_FMT a command accepts (R96). -/
def acceptsA : Instr → Format → Bool
  | .compose, f => f == .rgb24 || f == .yuv444
  | .blend, f => f.packed
  | .subtract, f => f.packed
  | .rgb2hsv, f => f == .rgb24
  | .hsv2rgb, f => f == .hsv24
  | .autostretch, f => f == .rgb24
  | .colorenhance, f => f == .rgb24
  | .despeckle, f => f == .gray8 || f == .rgb24
  | .sobel, f => f == .i420

/-- Whether a command reads operand B (R96). -/
def usesB : Instr → Bool
  | .blend | .subtract => true
  | .compose | .rgb2hsv | .hsv2rgb | .autostretch | .colorenhance | .despeckle | .sobel => false

/-- Whether a command reads the mask M (R96). -/
def usesM : Instr → Bool
  | .compose | .blend => true
  | .subtract | .rgb2hsv | .hsv2rgb | .autostretch | .colorenhance | .despeckle | .sobel => false

/-- The format of A a command reads; none where A_FMT is no defined code (R95). -/
def formatA (r : OpRegs) : Option Format := Format.ofCode r.aFmt

/-- bpp(A_FMT), for the commands that run on packed frames only (R95). -/
def bppA (r : OpRegs) : Nat := ((formatA r).bind Format.bpp).getD 0

/-- W, as an exact integer (R96: W is A_WIDTH). -/
def OpRegs.w (r : OpRegs) : Nat := r.aWidth.toNat

/-- H, as an exact integer (R96: H is A_HEIGHT). -/
def OpRegs.h (r : OpRegs) : Nat := r.aHeight.toNat

/-- The A extent (R114); none where A_FMT is no defined code. -/
def extentA (r : OpRegs) : Option Extent :=
  (formatA r).map fun f => ⟨r.aBase.toNat, f.size r.w r.h⟩

/-- The B extent (R114); none where bpp(B_FMT) is not defined. -/
def extentB (r : OpRegs) : Option Extent :=
  ((Format.ofCode r.bFmt).bind Format.bpp).map fun bpp => ⟨r.bBase.toNat, r.bWidth.toNat * r.bHeight.toNat * bpp⟩

/-- The M extent (R114): a mask has one byte per pixel (R30). -/
def extentM (r : OpRegs) : Extent := ⟨r.mBase.toNat, r.mWidth.toNat * r.mHeight.toNat⟩

/-- The length of the D extent (R96); none where it is W·H·bpp(A_FMT) and bpp(A_FMT) is not defined. -/
def lenD (i : Instr) (r : OpRegs) : Option Nat :=
  match i with
  | .compose => some (r.w * r.h * 4)
  | .blend | .subtract | .despeckle => ((formatA r).bind Format.bpp).map fun bpp => r.w * r.h * bpp
  | .rgb2hsv | .hsv2rgb | .autostretch | .colorenhance => some (r.w * r.h * 3)
  | .sobel => some (r.w * r.h + 2 * (half r.w * half r.h))

/-- The D extent (R114). -/
def extentD (i : Instr) (r : OpRegs) : Option Extent := (lenD i r).map fun n => ⟨r.dBase.toNat, n⟩

/-- The extents of the inputs R96 lists for a command, those the format codes define. -/
def inputExtents (i : Instr) (r : OpRegs) : List Extent :=
  (extentA r).toList ++ (if usesB i then (extentB r).toList else []) ++ (if usesM i then [extentM r] else [])

/-- Whether an address lies in an extent. -/
def Extent.covers (e : Extent) (a : Nat) : Bool := decide (e.base ≤ a) && decide (a < e.base + e.len)

/-- The overlap test of R114: exact, and never for an extent of length 0. -/
def overlaps (e f : Extent) : Bool :=
  decide (0 < e.len) && decide (0 < f.len) && decide (e.base < f.base + f.len) && decide (f.base < e.base + e.len)

/-- The failing bounds check of R113: an extent of length 0 always passes. -/
def endsBeyond (memSize : Nat) (e : Extent) : Bool := decide (0 < e.len) && decide (memSize < e.base + e.len)

/-- Check 2 of R113 fails: a despeckle setting above 255, or a reserved flag bit (R33 to R36). -/
def badConfig (i : Instr) (r : OpRegs) : Bool :=
  match i with
  | .despeckle =>
    decide (255 < r.medRadius.toNat) || decide (255 < r.medBlack.toNat) || decide (255 < r.medWhite.toNat) ||
      (r.medFlags.extractLsb' 2 30 != 0)
  | .sobel => r.sobelFlags.extractLsb' 3 29 != 0
  | .compose | .blend | .subtract | .rgb2hsv | .hsv2rgb | .autostretch | .colorenhance => false

/-- Check 3 of R113 fails: A_FMT is not accepted, or B_FMT differs from A_FMT for a command that reads B. -/
def badFormat (i : Instr) (r : OpRegs) : Bool :=
  !((formatA r).any (acceptsA i)) || (usesB i && r.bFmt != r.aFmt)

/-- Check 4 of R113 fails: the mask or operand B differs from A in width or height. -/
def badDimensions (i : Instr) (r : OpRegs) : Bool :=
  (usesM i && (r.mWidth != r.aWidth || r.mHeight != r.aHeight)) ||
    (usesB i && (r.bWidth != r.aWidth || r.bHeight != r.aHeight))

/-- Check 5 of R113 fails: an input or the output ends beyond MEM_SIZE. -/
def badBounds (i : Instr) (r : OpRegs) (memSize : Nat) : Bool :=
  (inputExtents i r ++ (extentD i r).toList).any (endsBeyond memSize)

/-- Check 6 of R113 fails: the output overlaps an input. -/
def badOverlap (i : Instr) (r : OpRegs) : Bool :=
  (extentD i r).any fun d => (inputExtents i r).any fun e => overlaps e d

/-- Validation (R113) after decoding: the first failing check gives the code, and `ok` says that all passed. It reads the
snapshot only. -/
def validate (i : Instr) (r : OpRegs) (memSize : Nat) : ErrCode :=
  if badConfig i r then .invalidConfig
  else if badFormat i r then .unsupportedFormat
  else if badDimensions i r then .dimensionMismatch
  else if badBounds i r memSize then .resource
  else if badOverlap i r then .overlap
  else .ok

end Sys2Proof.Machine
end

