-- ==== Sys2Proof/Machine/Ops.lean ====
section
/-! DEFINITION. The named operations: frame memory, acceptance (R111), ending with an error or without (R117, R275), the shape
every command shares (R110, R118), reset (R300, R301), and the choice of an instance (R292). -/

namespace Sys2Proof.Machine

/-! ### Frame memory (R60, R67, R68) -/

/-- The written byte at an address; none where nobody has written. -/
def Memory.read? : Memory → Nat → Option Byte
  | [], _ => none
  | (x, v) :: rest, a => if x = a then some v else Memory.read? rest a

/-- MemRead of one byte (R9, R67). A byte nobody has written reads as its power-on value (93 U6, U8; log 3). -/
def Memory.read (m : Memory) (a : Nat) : Byte := (m.read? a).getD (Config.powerOnByte a)

/-- MemWrite of one byte (R9, R67), keeping the addresses strictly rising. -/
def Memory.write : Memory → Nat → Byte → Memory
  | [], a, v => [(a, v)]
  | (x, u) :: rest, a, v =>
    if a < x then (a, v) :: (x, u) :: rest
    else if a = x then (a, v) :: rest
    else (x, u) :: Memory.write rest a v

/-- MemWrite of a list of bytes, in address order (R9). -/
def Memory.writeBytes : Memory → Nat → List Byte → Memory
  | m, _, [] => m
  | m, a, v :: rest => Memory.writeBytes (m.write a v) (a + 1) rest

/-- The canonical form: addresses strictly rising. An unlisted address holds no written value, so no entry can equal what it
reads as (log 3). -/
abbrev Memory.wf (m : Memory) : Prop := m.Pairwise fun x y => x.1 < y.1

/-- Every listed address is one of frame memory's, 0 .. MEM_SIZE-1 (R60). -/
abbrev Memory.within (m : Memory) (memSize : Nat) : Prop := ∀ x ∈ m, x.1 < memSize

/-! ### The pending command (R38, R111, R112) -/

/-- The output extent of a command; none for a word that selects no command. -/
def Snapshot.output (c : Snapshot) : Option Extent :=
  match decode c.word with
  | .ok i => extentD i c.regs
  | .error _ => none

/-- The input extents of a command. -/
def Snapshot.inputs (c : Snapshot) : List Extent :=
  match decode c.word with
  | .ok i => inputExtents i c.regs
  | .error _ => []

/-- Every extent of a command (R77: inputs or D; log 8). -/
def Snapshot.extents (c : Snapshot) : List Extent := c.inputs ++ c.output.toList

/-- Two commands running at once break R292: one writes where the other reads or writes. -/
def Snapshot.clashes (c d : Snapshot) : Bool :=
  (c.output.any fun e => d.extents.any fun f => overlaps e f) || (d.output.any fun e => c.extents.any fun f => overlaps e f)

/-- Acceptance (R111): the snapshot is taken (R112), BUSY rises with it, DONE, ERR and ERRCODE clear, CMD_LOST stays. From here
until the host observes completion the bytes of D are unsettled (R72, 93 U4). -/
def Block.accept (b : Block) (w : Word) : Block :=
  let c : Snapshot := ⟨w, b.regs⟩
  { b with pending := some c, done := false, err := false, errCode := .ok, unsettled := c.output.toList ++ b.unsettled }

/-! ### Completion (R117) and the error entry (R275) -/

/-- Completion without error: DONE rises, BUSY falls with the snapshot (R117). -/
def Block.completeOk (b : Block) : Block := { b with done := true, pending := none }

/-- Error entry, the block's only exception: ERR rises, ERRCODE names the cause, BUSY falls with the snapshot. Nothing else
changes: no vector, no saved state, no memory write (R117, R275). -/
def Block.completeError (b : Block) (code : ErrCode) : Block := { b with err := true, errCode := code, pending := none }

/-- A command ends with an error: memory is untouched (R116, R275). -/
def State.takeError (s : State) (code : ErrCode) : State := { s with block := s.block.completeError code }

/-- A command ends without one: its output bytes stand at D_BASE (R61), and the draws it made are used up. -/
def State.finish (s : State) (r : OpRegs) (out : List Byte × Nat) : State :=
  { s with mem := s.mem.writeBytes r.dBase.toNat out.1, draws := out.2, block := s.block.completeOk }

/-- What a command computes: from the snapshot's registers, the bytes of frame memory as they stand at acceptance (R71, R114)
and the draw counter, the bytes of D and the counter after it. -/
abbrev Kernel := OpRegs → (Nat → Byte) → Nat → List Byte × Nat

/-- The step every command shares (R110, R118): validation, then either the error entry, or execution and completion. -/
def runCommand (i : Instr) (kernel : Kernel) (s : State) : Host.Outcome State Fault Refusal :=
  match s.block.pending with
  | none => .fault .noPendingCommand
  | some c =>
    match validate i c.regs s.platform.memSize with
    | .ok => .next (s.finish c.regs (kernel c.regs s.mem.read s.draws))
    | code => .next (s.takeError code)

/-! ### Reset (R300 to R302) -/

/-- The bytes of an extent that exist in frame memory. -/
def Extent.clip (e : Extent) (memSize : Nat) : Nat := min e.len (memSize - e.base)

/-- Byte k of an abandoned output (R301, 93 U5; log 6): any value, but for a byte that is also an input of the command, which
stays as it is. A command that passes validation has no such byte (R114). -/
def abandonByte (c : Snapshot) (e : Extent) (draws : Nat) (m : Memory) (k : Nat) : Memory :=
  if c.inputs.any fun f => f.covers (e.base + k) then m else m.write (e.base + k) (Config.freeByte (draws + k))

/-- Reset during a command: the bytes of its D extent that frame memory has are abandoned (R301; log 6). -/
def State.abandon (s : State) : State :=
  match s.block.pending with
  | none => s
  | some c =>
    match c.output with
    | none => s
    | some e =>
      let n := e.clip s.platform.memSize
      { s with mem := (List.range n).foldl (abandonByte c e s.draws) s.mem, draws := s.draws + n }

/-- The reset input is asserted (R300, R301): every register takes its reset value and the pending command is discarded.
Frame memory is not reset (R302). -/
def State.assertReset (s : State) : State :=
  let s' := s.abandon
  { s' with block := { Block.reset with inReset := true, unsettled := s.block.unsettled } }

/-- The reset input is released (R304). -/
def State.releaseReset (s : State) : State := { s with block := { s.block with inReset := false } }

/-! ### Instances (R292) and answers to the host -/

/-- Every instance. -/
def State.blocks (s : State) : List Block := s.block :: s.others

/-- Whether the platform holds instance k. -/
def State.hasInstance (s : State) (k : Nat) : Bool := decide (k ≤ s.others.length)

/-- Instance k in the place of instance 0 and the reverse; twice is nothing. -/
def State.focus (s : State) (k : Nat) : State :=
  match k with
  | 0 => s
  | j + 1 =>
    match s.others[j]? with
    | none => s
    | some b => { s with block := b, others := s.others.set j s.block }

/-- Apply a function to a next state. -/
def mapNext (f : State → State) : Host.Outcome State Fault Refusal → Host.Outcome State Fault Refusal
  | .next s => .next (f s)
  | .fault r => .fault r
  | .refused r => .refused r

/-- What a step of the block 0 does, done to instance k: instances are copies of one block (R292). -/
def onInstance (k : Nat) (f : State → Host.Outcome State Fault Refusal) (s : State) : Host.Outcome State Fault Refusal :=
  mapNext (fun t => t.focus k) (f (s.focus k))

/-- The host is answered. -/
def State.answer (s : State) (r : Reply) : State := { s with replies := r :: s.replies }

end Sys2Proof.Machine
end

