-- ==== Sys2Proof/Machine/Arithmetic.lean ====
section
/-! DEFINITION. FrameArithmetic: BLEND and SUBTRACT (42_arithmetic.md). -/

namespace Sys2Proof.Machine

/-- Interpolation with mask byte m as the weight of a and 255 - m as the weight of b, truncated (R151, R152). -/
def blendByte (m a b : Byte) : Byte := BitVec.ofNat 8 ((m.toNat * a.toNat + (255 - m.toNat) * b.toNat) / 255)

/-- clamp(a - b, 0, 255) (R153). -/
def subtractByte (a b : Byte) : Byte := BitVec.ofInt 8 (min (max ((a.toNat : Int) - (b.toNat : Int)) 0) 255)

/-- Pixel p of BLEND: one mask byte serves all bpp channels, indexed by p·bpp + c (R151). -/
def blendPixel (r : OpRegs) (bpp : Nat) (rd : Nat → Byte) (p : Nat) : List Byte :=
  (List.range bpp).map fun c =>
    blendByte (rd (r.mBase.toNat + p)) (rd (r.aBase.toNat + p * bpp + c)) (rd (r.bBase.toNat + p * bpp + c))

/-- Pixel p of SUBTRACT, indexed by p·bpp + c (R153, R154). -/
def subtractPixel (r : OpRegs) (bpp : Nat) (rd : Nat → Byte) (p : Nat) : List Byte :=
  (List.range bpp).map fun c => subtractByte (rd (r.aBase.toNat + p * bpp + c)) (rd (r.bBase.toNat + p * bpp + c))

/-- BLEND (R151). -/
def blendBytes (r : OpRegs) (rd : Nat → Byte) : List Byte := (List.range (r.w * r.h)).flatMap (blendPixel r (bppA r) rd)

/-- SUBTRACT (R153). -/
def subtractBytes (r : OpRegs) (rd : Nat → Byte) : List Byte :=
  (List.range (r.w * r.h)).flatMap (subtractPixel r (bppA r) rd)

/-- BLEND (R151). -/
def execBlend (s : State) : Host.Outcome State Fault Refusal :=
  runCommand .blend (fun r rd draws => (blendBytes r rd, draws)) s

/-- SUBTRACT (R153). -/
def execSubtract (s : State) : Host.Outcome State Fault Refusal :=
  runCommand .subtract (fun r rd draws => (subtractBytes r rd, draws)) s

end Sys2Proof.Machine
end

