-- ==== Sys2Proof/Machine/Colorspace.lean ====
section
/-! DEFINITION. ColorSpaceEnhancer: the two conversions, the histogram stretch, and RGB2HSV, HSV2RGB, AUTOSTRETCH and
COLORENHANCE (43_colorspace.md). Channel values are natural numbers 0..255 (R170). -/

namespace Sys2Proof.Machine

/-- Three channel values: R, G, B or H, S, V (R63). -/
structure Triple where
  c0 : Nat
  c1 : Nat
  c2 : Nat
  deriving DecidableEq, Repr

/-- The three bytes of a packed pixel p of A (R62, R63). -/
def readTriple (r : OpRegs) (rd : Nat → Byte) (p : Nat) : Triple :=
  ⟨(rd (r.aBase.toNat + 3 * p)).toNat, (rd (r.aBase.toNat + 3 * p + 1)).toNat, (rd (r.aBase.toNat + 3 * p + 2)).toNat⟩

/-- A pixel as its three bytes (R63). -/
def Triple.bytes (t : Triple) : List Byte := [BitVec.ofNat 8 t.c0, BitVec.ofNat 8 t.c1, BitVec.ofNat 8 t.c2]

/-! ### toHSV (R172 to R175) -/

/-- mx (R172). -/
def maxChannel (t : Triple) : Nat := max (max t.c0 t.c1) t.c2

/-- mn (R172). -/
def minChannel (t : Triple) : Nat := min (min t.c0 t.c1) t.c2

/-- Saturation (R173). -/
def saturation (t : Triple) : Nat :=
  if maxChannel t = 0 then 0 else ((maxChannel t - minChannel t) * 255) / maxChannel t

/-- The hue sector value x, with the guard on delta the source gives; red is tested first, then green (R174). -/
def hueSector (t : Triple) : Int :=
  let mx : Int := maxChannel t
  let mn : Int := minChannel t
  let delta : Int := if mx - mn = 0 then 255 else mx - mn
  let r : Int := t.c0
  let g : Int := t.c1
  let b : Int := t.c2
  if r = mx then ((g - b) * 255).tdiv delta
  else if g = mx then 510 + ((b - r) * 255).tdiv delta
  else 1020 + ((r - g) * 255).tdiv delta

/-- Hue scaling: degrees by ·60 tdiv 255, one wrap into 0..359, then ·255 tdiv 360 (R175). -/
def hueScale (x : Int) : Nat :=
  let hd := (x * 60).tdiv 255
  let hd := if hd < 0 then hd + 360 else hd
  let hd := if hd ≥ 360 then hd - 360 else hd
  ((hd * 255).tdiv 360).toNat

/-- toHSV (R172 to R175). -/
def toHSV (t : Triple) : Triple :=
  let s := saturation t
  if s = 0 then ⟨0, 0, maxChannel t⟩ else ⟨hueScale (hueSector t), s, maxChannel t⟩

/-! ### toRGB (R177 to R179) -/

/-- toRGB: grey where s = 0 (R177), else the 6-sector table with denominator 255·59, sector 6 folded onto 0 (R178, R179). -/
def toRGB (t : Triple) : Triple :=
  let h := t.c0
  let s := t.c1
  let v := t.c2
  if s = 0 then ⟨v, v, v⟩
  else
    let hd := (h * 360) / 255
    let f := hd % 60
    let p := (v * (255 - s)) / 255
    let q := (v * (255 * 59 - s * f)) / (255 * 59)
    let u := (v * (255 * 59 - s * (59 - f))) / (255 * 59)
    match (hd / 60) % 6 with
    | 0 => ⟨v, u, p⟩
    | 1 => ⟨q, v, p⟩
    | 2 => ⟨p, v, u⟩
    | 3 => ⟨p, q, v⟩
    | 4 => ⟨u, p, v⟩
    | _ => ⟨v, p, q⟩

/-! ### The stretch (R183 to R185) -/

/-- EnhanceState of one channel: the observed range (R40). -/
structure Range where
  lo : Nat
  hi : Nat
  deriving DecidableEq, Repr

/-- Both bounds start at 0 (R185). -/
def Range.init : Range := ⟨0, 0⟩

/-- The update of one pixel (R184). -/
def Range.track (g : Range) (x : Nat) : Range := ⟨min g.lo x, max g.hi x⟩

/-- Stretch(x, lo, hi) (R183). -/
def Range.stretch (g : Range) (x : Nat) : Nat :=
  if g.hi = g.lo then x
  else ((((x : Int) - (g.lo : Int)) * 255).tdiv ((g.hi : Int) - (g.lo : Int))).toNat

/-- The range of a channel over a frame, in scan order (R184, R185). -/
def rangeOf (xs : List Nat) : Range := xs.foldl Range.track Range.init

/-! ### The commands -/

/-- RGB2HSV (R180). -/
def rgb2hsvBytes (r : OpRegs) (rd : Nat → Byte) : List Byte :=
  (List.range (r.w * r.h)).flatMap fun p => (toHSV (readTriple r rd p)).bytes

/-- HSV2RGB (R181). -/
def hsv2rgbBytes (r : OpRegs) (rd : Nat → Byte) : List Byte :=
  (List.range (r.w * r.h)).flatMap fun p => (toRGB (readTriple r rd p)).bytes

/-- hsv[] of AUTOSTRETCH: every pixel of A through toHSV (R186). -/
def hsvFrame (r : OpRegs) (rd : Nat → Byte) : List Triple :=
  (List.range (r.w * r.h)).map fun p => toHSV (readTriple r rd p)

/-- One output pixel of AUTOSTRETCH: S and V stretched, H passed unchanged (R186). -/
def autostretchPixel (sat val : Range) (t : Triple) : Triple := toRGB ⟨t.c0, sat.stretch t.c1, val.stretch t.c2⟩

/-- AUTOSTRETCH (R186): the ranges of S and V over the whole frame, then every pixel stretched. -/
def autostretchBytes (r : OpRegs) (rd : Nat → Byte) : List Byte :=
  let hsv := hsvFrame r rd
  let sat := rangeOf (hsv.map Triple.c1)
  let val := rangeOf (hsv.map Triple.c2)
  hsv.flatMap fun t => (autostretchPixel sat val t).bytes

/-- k of the CMYK split: the least of 255 - r, 255 - g, 255 - b (R188). -/
def blackPart (t : Triple) : Nat := min (min (255 - t.c0) (255 - t.c1)) (255 - t.c2)

/-- toHSV of c, m, y with k taken out (R188). -/
def cmyHSV (t : Triple) : Triple :=
  toHSV ⟨255 - t.c0 - blackPart t, 255 - t.c1 - blackPart t, 255 - t.c2 - blackPart t⟩

/-- k put back into a channel, clamped to 255, and the channel inverted (R188). -/
def uncmy (k x : Nat) : Nat := 255 - min (x + k) 255

/-- One output pixel of COLORENHANCE from a pixel of A and the range of V (R188). -/
def colorenhancePixel (val : Range) (t : Triple) : Triple :=
  let k := blackPart t
  let e := cmyHSV t
  let o := toRGB ⟨e.c0, e.c1, val.stretch e.c2⟩
  ⟨uncmy k o.c0, uncmy k o.c1, uncmy k o.c2⟩

/-- The pixels of A, in scan order (R186, R188). -/
def rgbFrame (r : OpRegs) (rd : Nat → Byte) : List Triple := (List.range (r.w * r.h)).map fun p => readTriple r rd p

/-- COLORENHANCE (R188): the range of V over the whole frame, then every pixel stretched. -/
def colorenhanceBytes (r : OpRegs) (rd : Nat → Byte) : List Byte :=
  let rgb := rgbFrame r rd
  let val := rangeOf (rgb.map fun t => (cmyHSV t).c2)
  rgb.flatMap fun t => (colorenhancePixel val t).bytes

/-- RGB2HSV (R180). -/
def execRgb2hsv (s : State) : Host.Outcome State Fault Refusal :=
  runCommand .rgb2hsv (fun r rd draws => (rgb2hsvBytes r rd, draws)) s

/-- HSV2RGB (R181). -/
def execHsv2rgb (s : State) : Host.Outcome State Fault Refusal :=
  runCommand .hsv2rgb (fun r rd draws => (hsv2rgbBytes r rd, draws)) s

/-- AUTOSTRETCH (R186, R187). -/
def execAutostretch (s : State) : Host.Outcome State Fault Refusal :=
  runCommand .autostretch (fun r rd draws => (autostretchBytes r rd, draws)) s

/-- COLORENHANCE (R188). -/
def execColorenhance (s : State) : Host.Outcome State Fault Refusal :=
  runCommand .colorenhance (fun r rd draws => (colorenhanceBytes r rd, draws)) s

end Sys2Proof.Machine
end

