-- ==== Sys2Proof/Machine/Compositor.lean ====
section
/-! DEFINITION. AlphaCompositor: COMPOSE (41_compositor.md). -/

namespace Sys2Proof.Machine

/-- Pixel i of COMPOSE: the mask byte first, then the three colour bytes as they stand (R140). -/
def composePixel (r : OpRegs) (rd : Nat → Byte) (i : Nat) : List Byte :=
  [rd (r.mBase.toNat + i), rd (r.aBase.toNat + 3 * i), rd (r.aBase.toNat + 3 * i + 1), rd (r.aBase.toNat + 3 * i + 2)]

/-- COMPOSE (R140), pixels in row-major order. -/
def composeBytes (r : OpRegs) (rd : Nat → Byte) : List Byte := (List.range (r.w * r.h)).flatMap (composePixel r rd)

/-- COMPOSE (R140). -/
def execCompose (s : State) : Host.Outcome State Fault Refusal :=
  runCommand .compose (fun r rd draws => (composeBytes r rd, draws)) s

end Sys2Proof.Machine
end

