-- ==== Sys2Proof/Machine/Median.lean ====
section
/-! DEFINITION. AdaptiveMedianFilter: DESPECKLE (44_median.md). -/

namespace Sys2Proof.Machine

/-- A pixel as its bytes: one for GRAY8, three for RGB24 (R210). -/
abbrev Pixel := List Byte

/-- The configuration of one despeckle, from the snapshot (R217). -/
structure DespeckleConfig where
  radius : Nat
  black : Nat
  white : Nat
  adaptive : Bool
  recursive : Bool
  deriving DecidableEq, Repr

/-- MED_RADIUS, MED_BLACK, MED_WHITE and the two flags of MED_FLAGS (R33 to R35). -/
def despeckleConfig (r : OpRegs) : DespeckleConfig where
  radius := r.medRadius.toNat
  black := r.medBlack.toNat
  white := r.medWhite.toNat
  adaptive := r.medFlags.getLsbD 0
  recursive := r.medFlags.getLsbD 1

/-- Window(x, y, er): the pixel indices of the rectangle clamped to the frame, yy outer and xx inner (R212, R220). -/
def window (w h x y er : Nat) : List Nat :=
  let y0 := y - er
  let y1 := min (h - 1) (y + er)
  let x0 := x - er
  let x1 := min (w - 1) (x + er)
  (List.range (y1 + 1 - y0)).flatMap fun dy => (List.range (x1 + 1 - x0)).map fun dx => (y0 + dy) * w + (x0 + dx)

/-- Lum(px), the ordering key (R213). -/
def lum : Pixel → Nat
  | [g] => g.toNat
  | [r, g, b] => (2126 * r.toNat + 7152 * g.toNat + 722 * b.toNat + 5000) / 10000
  | _ => 0

/-- The counts and the candidates of one window (R214). -/
structure Tally where
  dark : Nat
  bright : Nat
  candidates : List Pixel
  deriving DecidableEq, Repr

/-- One sample put into exactly one class, dark tested first (R214). -/
def classify (cfg : DespeckleConfig) (t : Tally) (px : Pixel) : Tally :=
  if lum px ≤ cfg.black then { t with dark := t.dark + 1 }
  else if lum px ≥ cfg.white then { t with bright := t.bright + 1 }
  else { t with candidates := t.candidates ++ [px] }

/-- The window's samples classified (R214, R217). -/
def tally (cfg : DespeckleConfig) (samples : List Pixel) : Tally := samples.foldl (classify cfg) ⟨0, 0, []⟩

/-- L_k: the keys sorted in ascending order, at k = (n - 1) tdiv 2 (R215). -/
def medianKey (cands : List Pixel) : Nat :=
  ((cands.map lum).insertionSort (· ≤ ·)).getD ((cands.length - 1) / 2) 0

/-- The distinct pixels R215 admits: the candidates whose key is L_k. -/
def admissible (cands : List Pixel) : List Pixel := (cands.filter fun px => lum px == medianKey cands).eraseDups

/-- Select (R215): the one admissible pixel, or, where there are several, the one MEDIAN_TIE draws (93 S4; log 4). -/
def select (cands : List Pixel) (draws : Nat) : Pixel × Nat :=
  match admissible cands with
  | [px] => (px, draws)
  | pxs => (pxs.getD (Config.medianTie draws % pxs.length) [], draws + 1)

/-- The pixel written and the counter after it: fewer than two candidates leave the pixel unchanged (R215, R217). -/
def chooseOutput (own : Pixel) (cands : List Pixel) (draws : Nat) : Pixel × Nat :=
  if cands.length < 2 then (own, draws) else select cands draws

/-- AdaptStep (R218): the cap is (2·R + 1) tdiv 2. -/
def adaptStep (cfg : DespeckleConfig) (er dark bright : Nat) : Nat :=
  if dark ≥ er ∨ bright ≥ er then min (er + 1) ((2 * cfg.radius + 1) / 2)
  else if er > 1 then er - 1
  else er

/-- The scan state (R39, R211): effectiveRadius, the output pixels so far (newest first), and the draw counter. -/
structure Scan where
  er : Nat
  out : List Pixel
  draws : Nat
  deriving DecidableEq, Repr

/-- The input pixel q of A (R62, R210). -/
def inputPixel (r : OpRegs) (bpp : Nat) (rd : Nat → Byte) (q : Nat) : Pixel :=
  (List.range bpp).map fun c => rd (r.aBase.toNat + q * bpp + c)

/-- Pix(q) while pixel p is processed: the value written for q, in recursive mode and for q before p, else the input (R216). -/
def samplePixel (cfg : DespeckleConfig) (input : Nat → Pixel) (p : Nat) (out : List Pixel) (q : Nat) : Pixel :=
  if cfg.recursive && decide (q < p) then out.getD (p - 1 - q) [] else input q

/-- One pixel of the scan (R217). -/
def despecklePixel (cfg : DespeckleConfig) (w h : Nat) (input : Nat → Pixel) (st : Scan) (p : Nat) : Scan :=
  let samples := (window w h (p % w) (p / w) st.er).map (samplePixel cfg input p st.out)
  let t := tally cfg samples
  let chosen := chooseOutput (input p) t.candidates st.draws
  { er := if cfg.adaptive then adaptStep cfg st.er t.dark t.bright else st.er
    out := chosen.1 :: st.out
    draws := chosen.2 }

/-- The raster scan (R210): pixel p before pixel p + 1, effectiveRadius from the configured radius (R211). -/
def despeckleScan (cfg : DespeckleConfig) (w h : Nat) (input : Nat → Pixel) (draws n : Nat) : Scan :=
  (List.range n).foldl (despecklePixel cfg w h input) ⟨cfg.radius, [], draws⟩

/-- DESPECKLE (R217). -/
def despeckleBytes (r : OpRegs) (rd : Nat → Byte) (draws : Nat) : List Byte × Nat :=
  let st := despeckleScan (despeckleConfig r) r.w r.h (inputPixel r (bppA r) rd) draws (r.w * r.h)
  (st.out.reverse.flatten, st.draws)

/-- DESPECKLE (R217). -/
def execDespeckle (s : State) : Host.Outcome State Fault Refusal := runCommand .despeckle despeckleBytes s

end Sys2Proof.Machine
end

