-- ==== Sys2Proof/Machine/Sobel.lean ====
section
/-! DEFINITION. EdgeDetector: SOBEL (45_sobel.md). -/

namespace Sys2Proof.Machine

/-- isqrt, bit by bit: m holds the bits above the b lowest, and each lower bit is set if the square still fits (R8). -/
def isqrtBits (n : Nat) : Nat → Nat → Nat
  | 0, m => m
  | b + 1, m => isqrtBits n b (if (m + 2 ^ b) * (m + 2 ^ b) ≤ n then m + 2 ^ b else m)

/-- isqrt(n): the largest m with m·m ≤ n (R8). -/
def isqrt (n : Nat) : Nat := isqrtBits n (n.log2 / 2 + 1) 0

/-- round_sqrt(n), the integer nearest to √n (R8). -/
def roundSqrt (n : Nat) : Nat := isqrt n + if n - isqrt n * isqrt n > isqrt n then 1 else 0

/-- Kx (R241). -/
def kernelX : List (List Int) := [[-1, 0, 1], [-2, 0, 2], [-1, 0, 1]]

/-- Ky (R241). -/
def kernelY : List (List Int) := [[-1, -2, -1], [0, 0, 0], [1, 2, 1]]

/-- Σ K[di+1][dj+1] · S(i+di, j+dj) over di, dj in -1..1 (R241). -/
def convolve (k : List (List Int)) (sample : Int → Int → Int) (i j : Int) : Int :=
  ((List.range 3).map fun a => ((List.range 3).map fun b => (k.getD a []).getD b 0 * sample (i + a - 1) (j + b - 1)).sum).sum

/-- clamp(v, 0, n-1) as an index (R242). -/
def clampIndex (v : Int) (n : Nat) : Nat := (min (max v 0) ((n : Int) - 1)).toNat

/-- S: the luma byte at the clamped row and column (R240, R242). For an interior position the clamp does nothing, so this is Y
in both border modes. -/
def lumaSample (r : OpRegs) (rd : Nat → Byte) (i j : Int) : Int :=
  ((rd (r.aBase.toNat + clampIndex i r.h * r.w + clampIndex j r.w)).toNat : Int)

/-- The settings of SOBEL_FLAGS (R36). -/
structure SobelConfig where
  mirror : Bool
  absMag : Bool
  clamp : Bool
  deriving DecidableEq, Repr

/-- MIRROR, ABSMAG and CLAMP, bits 0 to 2 (R36). -/
def sobelConfig (r : OpRegs) : SobelConfig :=
  ⟨r.sobelFlags.getLsbD 0, r.sobelFlags.getLsbD 1, r.sobelFlags.getLsbD 2⟩

/-- Magnitude(Gx, Gy, ABSMAG) (R243). -/
def magnitude (absMag : Bool) (gx gy : Int) : Nat :=
  if absMag then gx.natAbs + gy.natAbs else roundSqrt (gx * gx + gy * gy).toNat

/-- Narrow(mag, CLAMP, ABSMAG) (R244). -/
def narrow (pl : Platform) (cfg : SobelConfig) (mag : Nat) : Nat :=
  if cfg.clamp then min mag 255 else min 255 (mag * 255 / (if cfg.absMag then pl.sobelMaxAbs else pl.sobelMaxL2))

/-- An interior position (R242). -/
def interior (w h i j : Nat) : Bool := decide (1 ≤ i) && decide (i + 2 ≤ h) && decide (1 ≤ j) && decide (j + 2 ≤ w)

/-- The luma byte SOBEL writes at row i, column j (R247). -/
def sobelLuma (pl : Platform) (r : OpRegs) (rd : Nat → Byte) (i j : Nat) : Nat :=
  let cfg := sobelConfig r
  if !cfg.mirror && !interior r.w r.h i j then 0
  else
    narrow pl cfg
      (magnitude cfg.absMag (convolve kernelX (lumaSample r rd) i j) (convolve kernelY (lumaSample r rd) i j))

/-- CHROMA_NEUTRAL (R6, R246). -/
def chromaNeutral : Byte := 127

/-- SOBEL (R247): the luma plane row by row, then both chroma planes. -/
def sobelBytes (pl : Platform) (r : OpRegs) (rd : Nat → Byte) : List Byte :=
  ((List.range (r.w * r.h)).map fun p => BitVec.ofNat 8 (sobelLuma pl r rd (p / r.w) (p % r.w))) ++
    List.replicate (2 * (half r.w * half r.h)) chromaNeutral

/-- SOBEL (R247). -/
def execSobel (s : State) : Host.Outcome State Fault Refusal :=
  runCommand .sobel (fun r rd draws => (sobelBytes s.platform r rd, draws)) s

end Sys2Proof.Machine
end

