-- ==== Sys2Proof/Machine/Dispatch.lean ====
section
/-! DEFINITION. One arm per command (R91), each a call of its meaning. -/

namespace Sys2Proof.Machine

def exec (i : Instr) (s : State) : Host.Outcome State Fault Refusal :=
  match i with
  | .compose => Sys2Proof.Machine.execCompose s
  | .blend => Sys2Proof.Machine.execBlend s
  | .subtract => Sys2Proof.Machine.execSubtract s
  | .rgb2hsv => Sys2Proof.Machine.execRgb2hsv s
  | .hsv2rgb => Sys2Proof.Machine.execHsv2rgb s
  | .autostretch => Sys2Proof.Machine.execAutostretch s
  | .colorenhance => Sys2Proof.Machine.execColorenhance s
  | .despeckle => Sys2Proof.Machine.execDespeckle s
  | .sobel => Sys2Proof.Machine.execSobel s

end Sys2Proof.Machine
end

