-- ==== Sys2Proof/WellFormed.lean ====
section
/-! DEFINITION. Well-formedness. A command has no fields, so every Instr is well formed; what a host may get wrong in form is
a register access (R28, 93 U1). -/

namespace Sys2Proof

/-- Every command is well formed: its word has no operand fields (R90, R97). -/
abbrev Instr.wf (_ : Instr) : Bool := true

/-- A register access within the interface: 32 bits wide, at an offset that is a multiple of 4 (R28, R310 H7). -/
def accessWf (bits : Nat) (off : BitVec 8) : Bool := bits == 32 && off.toNat % 4 == 0

/-- An event within the interface (R28). -/
def Machine.Event.wf : Machine.Event → Bool
  | .regWrite _ bits off _ => accessWf bits off
  | .regRead _ bits off => accessWf bits off
  | .wait _ => true
  | .irqRead _ => true
  | .memWrite _ _ => true
  | .memRead _ _ => true
  | .block _ => true
  | .reset _ _ => true

end Sys2Proof
end

