-- ==== Sys2Proof/Machine/HostPort.lean ====
section
/-! DEFINITION. What the host does at a block's register port, at its irq line and in frame memory (R22 to R29, R71 to R77),
and the host-program notation (R98). The register operations act on instance 0; Turn.lean moves another instance there. -/

namespace Sys2Proof.Machine

/-! ### Registers -/

/-- The value a read of a register returns (R23 to R26): CMD reads 0. -/
def Block.readReg (b : Block) : Reg → Word
  | .ctrl => b.ctrlWord
  | .status => b.statusWord
  | .cmd => 0
  | .aBase => b.regs.aBase
  | .aWidth => b.regs.aWidth
  | .aHeight => b.regs.aHeight
  | .aFmt => b.regs.aFmt
  | .bBase => b.regs.bBase
  | .bWidth => b.regs.bWidth
  | .bHeight => b.regs.bHeight
  | .bFmt => b.regs.bFmt
  | .mBase => b.regs.mBase
  | .mWidth => b.regs.mWidth
  | .mHeight => b.regs.mHeight
  | .dBase => b.regs.dBase
  | .medRadius => b.regs.medRadius
  | .medBlack => b.regs.medBlack
  | .medWhite => b.regs.medWhite
  | .medFlags => b.regs.medFlags
  | .sobelFlags => b.regs.sobelFlags

/-- A write to a descriptor or configuration register: all 32 bits are stored (R23). CTRL, STATUS and CMD are not among
them. -/
def OpRegs.set (r : OpRegs) (v : Word) : Reg → OpRegs
  | .ctrl | .status | .cmd => r
  | .aBase => { r with aBase := v }
  | .aWidth => { r with aWidth := v }
  | .aHeight => { r with aHeight := v }
  | .aFmt => { r with aFmt := v }
  | .bBase => { r with bBase := v }
  | .bWidth => { r with bWidth := v }
  | .bHeight => { r with bHeight := v }
  | .bFmt => { r with bFmt := v }
  | .mBase => { r with mBase := v }
  | .mWidth => { r with mWidth := v }
  | .mHeight => { r with mHeight := v }
  | .dBase => { r with dBase := v }
  | .medRadius => { r with medRadius := v }
  | .medBlack => { r with medBlack := v }
  | .medWhite => { r with medWhite := v }
  | .medFlags => { r with medFlags := v }
  | .sobelFlags => { r with sobelFlags := v }

/-- A write to a register other than CMD (R24, R25, R28): allowed while BUSY, and the snapshot does not move (R112, R311). -/
def Block.writeReg (b : Block) (v : Word) : Reg → Block
  | .ctrl => b.writeCtrl v
  | .status => b.clearStatus v
  | .cmd => b
  | reg => { b with regs := b.regs.set v reg }

/-- The host has observed completion: every command accepted so far is complete and its output visible (R72). -/
def Block.observe (b : Block) : Block := { b with unsettled := [] }

/-- A write of w to CMD: dropped with CMD_LOST while BUSY (R27), else accepted (R111), which must leave the extents of
concurrently running instances disjoint (R292, H6; log 10). -/
def State.writeCmd (s : State) (w : Word) : Host.Outcome State Fault Refusal :=
  if s.block.busy then .next { s with block := { s.block with cmdLost := true } }
  else if s.others.any fun b => b.pending.any fun c => c.clashes ⟨w, s.block.regs⟩ then .fault .sharedExtents
  else .next { s with block := s.block.accept w }

/-- Whether the port takes an access: not while reset is asserted (R300, 93 U7), and only in the form of R28 (93 U1). -/
def State.portTakes (s : State) (bits : Nat) (off : BitVec 8) : Bool := !s.block.inReset && accessWf bits off

/-- WR (R28, R98): a refused access has no effect (93 U1, U7; log 7), and so has a write to a reserved offset. -/
def State.regWrite (s : State) (bits : Nat) (off : BitVec 8) (v : Word) : Host.Outcome State Fault Refusal :=
  if s.portTakes bits off then
    match Reg.ofOffset off with
    | none => .next s
    | some .cmd => s.writeCmd v
    | some reg => .next { s with block := s.block.writeReg v reg }
  else .next (s.answer .refused)

/-- A read of STATUS that returns BUSY = 0 observes completion (R72); a read of any other register changes nothing. -/
def Block.afterRead (b : Block) (reg : Reg) : Block := if reg = .status ∧ b.busy = false then b.observe else b

/-- RD (R28, R98): a reserved offset reads 0. -/
def State.regRead (s : State) (bits : Nat) (off : BitVec 8) : State :=
  if s.portTakes bits off then
    match Reg.ofOffset off with
    | none => s.answer (.word 0)
    | some reg => { s with block := s.block.afterRead reg }.answer (.word (s.block.readReg reg))
  else s.answer .refused

/-- The host looks at the irq line (R29): a high level observes completion (R72, H5; log 19). -/
def State.irqRead (s : State) : State :=
  (if s.block.irq then { s with block := s.block.observe } else s).answer (.irq s.block.irq)

/-! ### Frame memory -/

/-- Whether an address lies in an extent of a running command of any instance (R77). -/
def State.liveAt (s : State) (a : Nat) : Bool :=
  s.blocks.any fun b => b.pending.any fun c => c.extents.any fun e => e.covers a

/-- Whether an address lies in the D extent of a command whose completion the host has not observed (R72, 93 U4). -/
def State.unsettledAt (s : State) (a : Nat) : Bool := s.blocks.any fun b => b.unsettled.any fun e => e.covers a

/-- MEMWR (R98): a write to an extent of a running command is a fault of the host (R77, H3; log 8). -/
def State.memWrite (s : State) (a : Word) (bytes : List Byte) : Host.Outcome State Fault Refusal :=
  if endsBeyond s.platform.memSize ⟨a.toNat, bytes.length⟩ then .fault .addressBeyondMemory
  else if (List.range bytes.length).any fun k => s.liveAt (a.toNat + k) then .fault .hostWroteLiveExtent
  else .next { s with mem := s.mem.writeBytes a.toNat bytes }

/-- The bytes a host read gives from address a on, and the draw counter after it: an unsettled byte gives any value (R77, 93
U4; log 5). DESIGN CHOICE (log 5), safe: so does a byte of both an input and the D extent of one pending command (one that will
fail validation), for which R77 gives two answers. -/
def State.hostBytes (s : State) : Nat → Nat → Nat → List Byte × Nat
  | _, 0, draws => ([], draws)
  | a, n + 1, draws =>
    if s.unsettledAt a then
      let rest := s.hostBytes (a + 1) n (draws + 1)
      (Config.freeByte draws :: rest.1, rest.2)
    else
      let rest := s.hostBytes (a + 1) n draws
      (s.mem.read a :: rest.1, rest.2)

/-- MEMRD (R98): reads never disturb a command (R77) or memory (R68). -/
def State.memRead (s : State) (a : Word) (n : Nat) : Host.Outcome State Fault Refusal :=
  if endsBeyond s.platform.memSize ⟨a.toNat, n⟩ then .fault .addressBeyondMemory
  else
    let got := s.hostBytes a.toNat n s.draws
    .next ({ s with draws := got.2 }.answer (.bytes got.1))

/-! ### Host-program notation (R98), for instance 0 -/

/-- WR NAME, v. -/
def wr (reg : Reg) (v : Word) : Event := .regWrite 0 32 reg.offset v

/-- RD NAME. -/
def rd (reg : Reg) : Event := .regRead 0 32 reg.offset

/-- CMD MNEMONIC. -/
def cmd (i : Instr) : Event := wr .cmd (encode i)

/-- SETA base, w, h, fmt. -/
def setA (base w h fmt : Word) : List Event := [wr .aBase base, wr .aWidth w, wr .aHeight h, wr .aFmt fmt]

/-- SETB base, w, h, fmt. -/
def setB (base w h fmt : Word) : List Event := [wr .bBase base, wr .bWidth w, wr .bHeight h, wr .bFmt fmt]

/-- SETM base, w, h. -/
def setM (base w h : Word) : List Event := [wr .mBase base, wr .mWidth w, wr .mHeight h]

/-- SETD base. -/
def setD (base : Word) : Event := wr .dBase base

/-- ACK: DONE, ERR and CMD_LOST cleared, the return from an error (R276). -/
def ackStatus : Event := wr .status 0x0000000E

end Sys2Proof.Machine
end

