-- ==== Sys2Proof/Machine/Turn.lean ====
section
/-! DEFINITION. What one step of the machine is: the next event of the inbox, or, where the host does nothing more, a turn of a
block that holds a command (R118, R318; log 2). -/

namespace Sys2Proof.Machine

/-- The turn of instance 0 (R118): enabled exactly while a command is pending. A word outside R91 ends with ILLEGAL_COMMAND
(R92, R113 check 1). -/
def blockTurn (s : State) : Host.Outcome State Fault Refusal :=
  match s.block.pending with
  | none => .next s
  | some c =>
    match decode c.word with
    | .ok i => exec i s
    | .error _ => .next (s.takeError .illegalCommand)

/-- WAIT (R98): STATUS is read, and while BUSY reads 1 the block has a turn before the next read (log 17). -/
def State.waitTurn (s : State) (k : Nat) : State :=
  if s.block.busy && s.portTakes 32 Reg.status.offset then
    { s.regRead 32 Reg.status.offset with inbox := .block k :: .wait k :: s.inbox }
  else s.regRead 32 Reg.status.offset

/-- One event. A register operation on an instance the platform does not hold is refused (log 18). -/
def perform (e : Event) (s : State) : Host.Outcome State Fault Refusal :=
  match e with
  | .regWrite k bits off v =>
    if s.hasInstance k then onInstance k (fun t => t.regWrite bits off v) s else .next (s.answer .refused)
  | .regRead k bits off =>
    if s.hasInstance k then onInstance k (fun t => .next (t.regRead bits off)) s else .next (s.answer .refused)
  | .wait k => if s.hasInstance k then onInstance k (fun t => .next (t.waitTurn k)) s else .next (s.answer .refused)
  | .irqRead k => if s.hasInstance k then onInstance k (fun t => .next t.irqRead) s else .next (s.answer .refused)
  | .memWrite a bytes => s.memWrite a bytes
  | .memRead a n => s.memRead a n
  | .block k => if s.hasInstance k then onInstance k blockTurn s else .next s
  | .reset k asserted =>
    if s.hasInstance k then
      onInstance k (fun t => .next (if asserted then t.assertReset else t.releaseReset)) s
    else .next s

/-- The first instance that holds a command. -/
def State.pendingInstance (s : State) : Option Nat := s.blocks.findIdx? Block.busy

/-- One step: the next event; with no event left, a pending command runs (weak fairness, R118), and an idle machine stays as
it is (R303). -/
def turn (s : State) : Host.Outcome State Fault Refusal :=
  match s.inbox with
  | e :: rest => perform e { s with inbox := rest }
  | [] =>
    match s.pendingInstance with
    | some k => onInstance k blockTurn s
    | none => .next s

end Sys2Proof.Machine
end

