-- ==== Sys2Proof/Machine/Step.lean ====
section
/-! DEFINITION. The step of the machine, and how one command word is placed for the next step. -/

namespace Sys2Proof.Machine

/-- One step of the machine (R118, R5). -/
def step (s : State) : Host.Outcome State Fault Refusal := turn s

/-- s with the command word w accepted by instance 0 (R111), so that the next step is its turn and runs that command with the
registers as they stand. The block fetches nothing (R21): a command comes to it by a CMD write, which this stands for (log 2). -/
def State.withFetchWord (s : State) (nbits w : Nat) : State :=
  { s with
    block := { s.block.accept (BitVec.ofNat 32 (w % 2 ^ nbits)) with inReset := false }
    inbox := if s.inbox.isEmpty then [] else .block 0 :: s.inbox }

end Sys2Proof.Machine
end

