-- ==== Sys2Proof/Safety.lean ====
section
/-! DEFINITION. What counts as a sound state of the machine, and the words statements about it use. -/

namespace Sys2Proof.Machine

/-! ### Sound states -/

/-- What the STATUS rules keep true of an instance (R25, R37, R111, R117, R300): a running command has reported nothing; DONE
comes without an error; ERR comes with its code; under reset every register holds its reset value; and the output of a
running command is unsettled (R72). -/
structure Block.Sound (b : Block) : Prop where
  busy : b.busy = true → b.done = false ∧ b.err = false ∧ b.errCode = .ok
  done : b.done = true → b.err = false ∧ b.errCode = .ok
  err : b.err = true → b.errCode ≠ .ok
  reset : b.inReset = true → b = { Block.reset with inReset := true, unsettled := b.unsettled }
  output : ∀ c, b.pending = some c → ∀ e, c.output = some e → e ∈ b.unsettled

/-- Two instances do not break R292 by what they run. -/
def Block.Disjoint (b b' : Block) : Prop :=
  ∀ c, b.pending = some c → ∀ d, b'.pending = some d → c.clashes d = false

/-- The invariant of the machine: legal parameters (R6), frame memory in its canonical form and within MEM_SIZE (R60), sound
instances, and disjoint extents of whatever runs concurrently (R292). -/
structure State.Inv (s : State) : Prop where
  platform : s.platform.legal
  canonical : s.mem.wf
  within : s.mem.within s.platform.memSize
  sound : ∀ b ∈ s.blocks, b.Sound
  disjoint : s.blocks.Pairwise Block.Disjoint

/-! ### Words of the statements -/

/-- A region is empty or ends within frame memory (R113 check 5). -/
def Fits (memSize base len : Nat) : Prop := len = 0 ∨ base + len ≤ memSize

/-- Two regions share no byte (R113 check 6). -/
def Apart (base len base' len' : Nat) : Prop := len = 0 ∨ len' = 0 ∨ base + len ≤ base' ∨ base' + len' ≤ base

/-- What a one-input command needs (R96, R113): A and D within frame memory, and D apart from A. -/
def OneInputReady (memSize : Nat) (r : OpRegs) (lenA lenD : Nat) : Prop :=
  Fits memSize r.aBase.toNat lenA ∧ Fits memSize r.dBase.toNat lenD ∧ Apart r.aBase.toNat lenA r.dBase.toNat lenD

/-- The settings DESPECKLE takes (R33 to R35, R113 check 2): each at most 255, reserved flag bits zero. -/
def DespeckleReady (r : OpRegs) : Prop :=
  r.medRadius.toNat ≤ 255 ∧ r.medBlack.toNat ≤ 255 ∧ r.medWhite.toNat ≤ 255 ∧ r.medFlags.toNat < 4

/-- Every byte outside a region reads as before. -/
def SameOutside (m m' : Memory) (base len : Nat) : Prop := ∀ a, a < base ∨ base + len ≤ a → m'.read a = m.read a

/-- The state after a command that made n draws has completed without error, given frame memory after it: DONE is set, the
snapshot is gone, and nothing else has changed (R117). -/
def State.doneWith (s : State) (m : Memory) (n : Nat) : State :=
  { s with mem := m, draws := s.draws + n, block := { s.block with done := true, pending := none } }

/-- The state after a command has ended with an error: ERR and ERRCODE are set, the snapshot is gone, and nothing else has
changed (R275). -/
def State.failedWith (s : State) (code : ErrCode) : State :=
  { s with block := { s.block with err := true, errCode := code, pending := none } }

/-- The A_FMT codes a command accepts, as R96 lists them. -/
def acceptedCodes : Instr → List Word
  | .compose => [2, 3]
  | .blend => [1, 2, 3, 4, 5, 6, 0x11, 0x12, 0x13, 0x14]
  | .subtract => [1, 2, 3, 4, 5, 6, 0x11, 0x12, 0x13, 0x14]
  | .rgb2hsv => [2]
  | .hsv2rgb => [4]
  | .autostretch => [2]
  | .colorenhance => [2]
  | .despeckle => [1, 2]
  | .sobel => [7]

/-- A byte of frame memory, as an integer. -/
def Memory.byteAt (m : Memory) (a : Nat) : Nat := (m.read a).toNat

/-- The packed 3-byte pixel p of a frame at a base, as three channel values (R63). -/
def Memory.pixel3 (m : Memory) (base p : Nat) : Triple :=
  ⟨m.byteAt (base + 3 * p), m.byteAt (base + 3 * p + 1), m.byteAt (base + 3 * p + 2)⟩

/-- The packed pixel p of a frame at a base, as its bytes (R62). -/
def Memory.pixel (m : Memory) (base bpp p : Nat) : Pixel := (List.range bpp).map fun c => m.read (base + p * bpp + c)

/-- The largest of f 0 .. f (n-1); 0 of none: the upper bound a stretch observes, its lower bound being 0 (R184, R185). -/
def largest (n : Nat) (f : Nat → Nat) : Nat := (Finset.range n).sup f

/-- The stretch of R183 from the range 0..hi. -/
def stretchFromZero (hi x : Nat) : Nat := if hi = 0 then x else x * 255 / hi

/-- The pixels of the window of pixel p at effective radius e in a frame of width w and n pixels (R212): at most e columns and e
rows away. -/
def windowSet (w n p e : Nat) : Finset Nat :=
  (Finset.range n).filter fun q => q % w ≤ p % w + e ∧ p % w ≤ q % w + e ∧ q / w ≤ p / w + e ∧ p / w ≤ q / w + e

end Sys2Proof.Machine
end

