-- ==== Sys2Proof/Certificates/Slice0/Obligations.lean ====
section
/-! DEFINITION. The statements about the machine, for the provers. Each docstring names the rule it rests on. Every statement
holds for every value of the platform parameters (log 1) and of the free values (logs 3 to 6). -/

open Sys2Proof Sys2Proof.Machine

/-! ### The command word (30_encoding.md) -/

/-- R91: the nine words, and a word decodes to a command exactly when it is that command's word. -/
def Obligations.DecodeReadsExactlyTheTable : Prop :=
  (encode .compose = 0x00000001 ∧ encode .blend = 0x00000002 ∧ encode .subtract = 0x00000003 ∧
    encode .rgb2hsv = 0x00000004 ∧ encode .hsv2rgb = 0x00000005 ∧ encode .autostretch = 0x00000006 ∧
    encode .colorenhance = 0x00000007 ∧ encode .despeckle = 0x00000008 ∧ encode .sobel = 0x00000009) ∧
  ∀ (w : Word) (i : Instr), decode w = .ok i ↔ w = encode i

/-- R93: every other word ends with ILLEGAL_COMMAND at the block's turn, and nothing else changes: no byte is written. -/
def Obligations.EveryOtherWordEndsIllegal : Prop :=
  ∀ (s : State) (w : Word) (r : OpRegs), s.block.pending = some ⟨w, r⟩ → w = 0 ∨ 9 < w.toNat →
    (s.inbox = [] → step s = .next (s.failedWith .illegalCommand)) ∧
    (∀ rest, s.inbox = .block 0 :: rest → step s = .next ({ s with inbox := rest }.failedWith .illegalCommand))

/-- 95_test_vectors.md V61 to V63 and the first and last row of R91: a few words, decoded. -/
def Obligations.SampleWordsDecode : Prop :=
  decode 0x00000001 = .ok .compose ∧ decode 0x00000009 = .ok .sobel ∧ decode 0x00000000 = .error .undefinedOpcode ∧
    decode 0x00000109 = .error .reservedBits ∧ decode 0x0000000A = .error .undefinedOpcode ∧
    decode 0x80000001 = .error .reservedBits

/-! ### The life of a command (40_command_flow.md) -/

/-- R110, R118: with a decodable command pending, the step is exec of that command: at the block's turn in the inbox, and when
the inbox holds nothing more (log 2). -/
def Obligations.StepRunsTheDecodedCommand : Prop :=
  ∀ (s : State) (w : Word) (r : OpRegs) (i : Instr), i.wf = true → s.block.pending = some ⟨w, r⟩ → decode w = .ok i →
    (s.inbox = [] → step s = exec i s) ∧
    (∀ rest, s.inbox = .block 0 :: rest → step s = exec i { s with inbox := rest })

/-- R111: a CMD write while BUSY = 0 is accepted whatever the word: the snapshot is taken, DONE, ERR and ERRCODE clear,
CMD_LOST stays, irq is low. The condition on the other instances is the duty R292 puts on the host; `unsettled` is the model's
own (log 5). -/
def Obligations.AcceptanceTakesTheSnapshot : Prop :=
  ∀ (s : State) (w : Word) (rest : List Event), s.inbox = .regWrite 0 32 0x08 w :: rest → s.block.inReset = false →
    s.block.pending = none → (∀ b ∈ s.others, ∀ c, b.pending = some c → c.clashes ⟨w, s.block.regs⟩ = false) →
    ∃ t, step s = .next t ∧
      t = { s with
            inbox := rest
            block := { s.block with
              pending := some ⟨w, s.block.regs⟩, done := false, err := false, errCode := .ok,
              unsettled := t.block.unsettled } } ∧
      t.block.irq = false

/-- R27: a CMD write while BUSY = 1 is dropped; CMD_LOST is set and nothing else changes. -/
def Obligations.CommandWhileBusyIsDropped : Prop :=
  ∀ (s : State) (w : Word) (c : Snapshot) (rest : List Event), s.inbox = .regWrite 0 32 0x08 w :: rest →
    s.block.inReset = false → s.block.pending = some c →
    step s = .next { s with inbox := rest, block := { s.block with cmdLost := true } }

/-- R275: a command that fails validation sets ERR and ERRCODE, drops the snapshot, and changes nothing else; irq rises where
IRQ_EN is set. -/
def Obligations.FailedValidationOnlyReportsItsCode : Prop :=
  ∀ (i : Instr) (s : State) (w : Word) (r : OpRegs), s.block.pending = some ⟨w, r⟩ →
    validate i r s.platform.memSize ≠ .ok →
    exec i s = .next (s.failedWith (validate i r s.platform.memSize)) ∧
    ∀ code, (s.failedWith code).block.irq = s.block.irqEn

/-- R113, R273: after decoding, the checks in their order, each written out; the first that fails gives the code. -/
def Obligations.ValidationReportsTheFirstFailingCheck : Prop :=
  ∀ (i : Instr) (r : OpRegs) (memSize : Nat),
    let config : Prop :=
      (i = .despeckle ∧ (255 < r.medRadius.toNat ∨ 255 < r.medBlack.toNat ∨ 255 < r.medWhite.toNat ∨ 3 < r.medFlags.toNat)) ∨
        (i = .sobel ∧ 7 < r.sobelFlags.toNat)
    let format : Prop := r.aFmt ∉ acceptedCodes i ∨ ((i = .blend ∨ i = .subtract) ∧ r.bFmt ≠ r.aFmt)
    let dimensions : Prop :=
      ((i = .compose ∨ i = .blend) ∧ (r.mWidth ≠ r.aWidth ∨ r.mHeight ≠ r.aHeight)) ∨
        ((i = .blend ∨ i = .subtract) ∧ (r.bWidth ≠ r.aWidth ∨ r.bHeight ≠ r.aHeight))
    let bounds : Prop :=
      (∃ e ∈ inputExtents i r, ¬ Fits memSize e.base e.len) ∨ ∃ d, extentD i r = some d ∧ ¬ Fits memSize d.base d.len
    let overlap : Prop := ∃ d, extentD i r = some d ∧ ∃ e ∈ inputExtents i r, ¬ Apart e.base e.len d.base d.len
    (validate i r memSize = .invalidConfig ↔ config) ∧
    (validate i r memSize = .unsupportedFormat ↔ ¬ config ∧ format) ∧
    (validate i r memSize = .dimensionMismatch ↔ ¬ config ∧ ¬ format ∧ dimensions) ∧
    (validate i r memSize = .resource ↔ ¬ config ∧ ¬ format ∧ ¬ dimensions ∧ bounds) ∧
    (validate i r memSize = .overlap ↔ ¬ config ∧ ¬ format ∧ ¬ dimensions ∧ ¬ bounds ∧ overlap) ∧
    (validate i r memSize = .ok ↔ ¬ config ∧ ¬ format ∧ ¬ dimensions ∧ ¬ bounds ∧ ¬ overlap)

/-- R96, R114: the extents each command uses, with the lengths written out, for every defined A format and, where the command
reads B, every packed B format, equal to A's or not. -/
def Obligations.ExtentsOfEachCommand : Prop :=
  ∀ (r : OpRegs),
    let n := r.aWidth.toNat * r.aHeight.toNat
    let a := r.aBase.toNat
    let b := r.bBase.toNat
    let d := r.dBase.toNat
    let mask : Extent := ⟨r.mBase.toNat, r.mWidth.toNat * r.mHeight.toNat⟩
    let nB := r.bWidth.toNat * r.bHeight.toNat
    let nI420 := n + 2 * (((r.aWidth.toNat + 1) / 2) * ((r.aHeight.toNat + 1) / 2))
    (∀ lenA, (∃ f bpp, r.aFmt = Format.code f ∧ f.bpp = some bpp ∧ lenA = n * bpp) ∨ (r.aFmt = 7 ∧ lenA = nI420) →
      inputExtents .compose r = [⟨a, lenA⟩, mask] ∧ inputExtents .rgb2hsv r = [⟨a, lenA⟩] ∧
      inputExtents .hsv2rgb r = [⟨a, lenA⟩] ∧ inputExtents .autostretch r = [⟨a, lenA⟩] ∧
      inputExtents .colorenhance r = [⟨a, lenA⟩] ∧ inputExtents .despeckle r = [⟨a, lenA⟩] ∧
      inputExtents .sobel r = [⟨a, lenA⟩] ∧
      ∀ g bppB, r.bFmt = Format.code g → g.bpp = some bppB →
        inputExtents .blend r = [⟨a, lenA⟩, ⟨b, nB * bppB⟩, mask] ∧
        inputExtents .subtract r = [⟨a, lenA⟩, ⟨b, nB * bppB⟩]) ∧
    (∀ f bpp, r.aFmt = Format.code f → f.bpp = some bpp →
      extentD .blend r = some ⟨d, n * bpp⟩ ∧ extentD .subtract r = some ⟨d, n * bpp⟩ ∧
      extentD .despeckle r = some ⟨d, n * bpp⟩) ∧
    extentD .compose r = some ⟨d, n * 4⟩ ∧ extentD .rgb2hsv r = some ⟨d, n * 3⟩ ∧
    extentD .hsv2rgb r = some ⟨d, n * 3⟩ ∧ extentD .autostretch r = some ⟨d, n * 3⟩ ∧
    extentD .colorenhance r = some ⟨d, n * 3⟩ ∧ extentD .sobel r = some ⟨d, nI420⟩

/-- R95: the format codes, their bytes per pixel, and no other code. -/
def Obligations.FormatCodesAreTheTable : Prop :=
  (Format.ofCode 0x01).map Format.bpp = some (some 1) ∧ (Format.ofCode 0x02).map Format.bpp = some (some 3) ∧
    (Format.ofCode 0x03).map Format.bpp = some (some 3) ∧ (Format.ofCode 0x04).map Format.bpp = some (some 3) ∧
    (Format.ofCode 0x05).map Format.bpp = some (some 4) ∧ (Format.ofCode 0x06).map Format.bpp = some (some 4) ∧
    (Format.ofCode 0x07).map Format.bpp = some none ∧ (Format.ofCode 0x11).map Format.bpp = some (some 1) ∧
    (Format.ofCode 0x12).map Format.bpp = some (some 2) ∧ (Format.ofCode 0x13).map Format.bpp = some (some 3) ∧
    (Format.ofCode 0x14).map Format.bpp = some (some 4) ∧
    ∀ w : Word, Format.ofCode w = none ↔ w.toNat = 0 ∨ (7 < w.toNat ∧ w.toNat < 0x11) ∨ 0x14 < w.toNat

/-- R115: with W = 0 or H = 0, whatever the bases, a command with sound settings, format and dimensions completes and touches no
byte; one whose dimensions differ is still DIMENSION_MISMATCH. -/
def Obligations.EmptyFramesCompleteUntouched : Prop :=
  ∀ (i : Instr) (s : State) (w : Word) (r : OpRegs), s.block.pending = some ⟨w, r⟩ → r.aWidth = 0 ∨ r.aHeight = 0 →
    badConfig i r = false → badFormat i r = false →
    (badDimensions i r = false → exec i s = .next (s.doneWith s.mem 0)) ∧
    (badDimensions i r = true → exec i s = .next (s.failedWith .dimensionMismatch))

/-- R118: every pending command, decodable or not, is over after one step that nothing comes before: BUSY falls, and DONE or ERR
is set. -/
def Obligations.EveryPendingCommandCompletes : Prop :=
  ∀ (s : State) (c : Snapshot), s.inbox = [] → s.block.pending = some c →
    ∃ t, step s = .next t ∧ t.block.busy = false ∧ (t.block.done = true ∨ t.block.err = true)

/-- R61, R117, R275: whatever a command does, it changes DONE, ERR, ERRCODE and the snapshot, the draw counter, and no byte
outside its output extent. -/
def Obligations.CommandWritesOnlyItsOutput : Prop :=
  ∀ (i : Instr) (s t : State) (w : Word) (r : OpRegs) (d : Extent), s.block.pending = some ⟨w, r⟩ →
    extentD i r = some d → exec i s = .next t →
    SameOutside s.mem t.mem d.base d.len ∧
    t = { s with
          mem := t.mem
          draws := t.draws
          block := { s.block with done := t.block.done, err := t.block.err, errCode := t.block.errCode, pending := none } }

/-- R41, R61, R112: two states with the same command pending that agree on the bytes of its input extents (and on the platform
and the MEDIAN_TIE draws) get the same output bytes, whatever else differs. That the draws are numbered by one counter, which
the two states share and leave equal, is the model's choice (log 4). -/
def Obligations.ResultDependsOnlyOnSnapshotAndInputs : Prop :=
  ∀ (i : Instr) (s s' t t' : State) (w : Word) (r : OpRegs) (d : Extent), s.block.pending = some ⟨w, r⟩ →
    s'.block.pending = some ⟨w, r⟩ → s'.platform = s.platform → s'.draws = s.draws →
    (∀ e ∈ inputExtents i r, ∀ a, e.base ≤ a → a < e.base + e.len → s'.mem.read a = s.mem.read a) →
    validate i r s.platform.memSize = .ok → extentD i r = some d → exec i s = .next t → exec i s' = .next t' →
    t'.draws = t.draws ∧ ∀ a, d.base ≤ a → a < d.base + d.len → t'.mem.read a = t.mem.read a

/-! ### COMPOSE, BLEND, SUBTRACT (41_compositor.md, 42_arithmetic.md) -/

/-- R140, R141: COMPOSE completes under the conditions of R113, and D[4i] = M[i], D[4i+1 .. 4i+3] = A[3i .. 3i+2]. -/
def Obligations.ComposePutsTheMaskFirst : Prop :=
  ∀ (s : State) (w : Word) (r : OpRegs), s.block.pending = some ⟨w, r⟩ → r.aFmt = 2 ∨ r.aFmt = 3 →
    r.mWidth = r.aWidth → r.mHeight = r.aHeight →
    let n := r.aWidth.toNat * r.aHeight.toNat
    let a := r.aBase.toNat
    let m := r.mBase.toNat
    let d := r.dBase.toNat
    OneInputReady s.platform.memSize r (n * 3) (n * 4) → Fits s.platform.memSize m n → Apart m n d (n * 4) →
    ∃ mem, exec .compose s = .next (s.doneWith mem 0) ∧ SameOutside s.mem mem d (n * 4) ∧
      ∀ i, i < n →
        mem.read (d + 4 * i) = s.mem.read (m + i) ∧ mem.read (d + 4 * i + 1) = s.mem.read (a + 3 * i) ∧
        mem.read (d + 4 * i + 2) = s.mem.read (a + 3 * i + 1) ∧ mem.read (d + 4 * i + 3) = s.mem.read (a + 3 * i + 2)

/-- R151: BLEND completes under the conditions of R113, and every output byte is (r·a + (255 - r)·b) / 255 with the mask byte of
its pixel. -/
def Obligations.BlendInterpolatesByTheMask : Prop :=
  ∀ (s : State) (w : Word) (r : OpRegs) (f : Format) (bpp : Nat), s.block.pending = some ⟨w, r⟩ → r.aFmt = f.code →
    f.bpp = some bpp → r.bFmt = r.aFmt → r.mWidth = r.aWidth → r.mHeight = r.aHeight → r.bWidth = r.aWidth →
    r.bHeight = r.aHeight →
    let n := r.aWidth.toNat * r.aHeight.toNat
    let a := r.aBase.toNat
    let b := r.bBase.toNat
    let m := r.mBase.toNat
    let d := r.dBase.toNat
    OneInputReady s.platform.memSize r (n * bpp) (n * bpp) → Fits s.platform.memSize b (n * bpp) →
    Apart b (n * bpp) d (n * bpp) → Fits s.platform.memSize m n → Apart m n d (n * bpp) →
    ∃ mem, exec .blend s = .next (s.doneWith mem 0) ∧ SameOutside s.mem mem d (n * bpp) ∧
      ∀ p ch, p < n → ch < bpp →
        mem.byteAt (d + p * bpp + ch) =
          (s.mem.byteAt (m + p) * s.mem.byteAt (a + p * bpp + ch) +
            (255 - s.mem.byteAt (m + p)) * s.mem.byteAt (b + p * bpp + ch)) / 255

/-- R152: weight 255 gives the first byte exactly, weight 0 the second; equal bytes blend to themselves (R151). -/
def Obligations.BlendEndWeightsReproduceTheInputs : Prop :=
  ∀ m a b : Byte, blendByte 255 a b = a ∧ blendByte 0 a b = b ∧ blendByte m a a = a ∧
    (blendByte m a b).toNat ≤ max a.toNat b.toNat

/-- R153: SUBTRACT completes under the conditions of R113, and every output byte is clamp(a - b, 0, 255), indexed p·bpp + c. -/
def Obligations.SubtractClampsTheDifference : Prop :=
  ∀ (s : State) (w : Word) (r : OpRegs) (f : Format) (bpp : Nat), s.block.pending = some ⟨w, r⟩ → r.aFmt = f.code →
    f.bpp = some bpp → r.bFmt = r.aFmt → r.bWidth = r.aWidth → r.bHeight = r.aHeight →
    let n := r.aWidth.toNat * r.aHeight.toNat
    let a := r.aBase.toNat
    let b := r.bBase.toNat
    let d := r.dBase.toNat
    OneInputReady s.platform.memSize r (n * bpp) (n * bpp) → Fits s.platform.memSize b (n * bpp) →
    Apart b (n * bpp) d (n * bpp) →
    ∃ mem, exec .subtract s = .next (s.doneWith mem 0) ∧ SameOutside s.mem mem d (n * bpp) ∧
      ∀ p ch, p < n → ch < bpp →
        (mem.byteAt (d + p * bpp + ch) : Int) =
          min (max ((s.mem.byteAt (a + p * bpp + ch) : Int) - s.mem.byteAt (b + p * bpp + ch)) 0) 255

/-! ### The colorspace commands (43_colorspace.md) -/

/-- R180: RGB2HSV completes under the conditions of R113, and every output pixel is toHSV of its input pixel. -/
def Obligations.Rgb2hsvConvertsEveryPixel : Prop :=
  ∀ (s : State) (w : Word) (r : OpRegs), s.block.pending = some ⟨w, r⟩ → r.aFmt = 2 →
    let n := r.aWidth.toNat * r.aHeight.toNat
    OneInputReady s.platform.memSize r (n * 3) (n * 3) →
    ∃ mem, exec .rgb2hsv s = .next (s.doneWith mem 0) ∧ SameOutside s.mem mem r.dBase.toNat (n * 3) ∧
      ∀ p, p < n → mem.pixel3 r.dBase.toNat p = toHSV (s.mem.pixel3 r.aBase.toNat p)

/-- R181: HSV2RGB completes under the conditions of R113, and every output pixel is toRGB of its input pixel. -/
def Obligations.Hsv2rgbConvertsEveryPixel : Prop :=
  ∀ (s : State) (w : Word) (r : OpRegs), s.block.pending = some ⟨w, r⟩ → r.aFmt = 4 →
    let n := r.aWidth.toNat * r.aHeight.toNat
    OneInputReady s.platform.memSize r (n * 3) (n * 3) →
    ∃ mem, exec .hsv2rgb s = .next (s.doneWith mem 0) ∧ SameOutside s.mem mem r.dBase.toNat (n * 3) ∧
      ∀ p, p < n → mem.pixel3 r.dBase.toNat p = toRGB (s.mem.pixel3 r.aBase.toNat p)

/-- R186, with R183 to R185 worked out: AUTOSTRETCH completes under the conditions of R113; S and V of every pixel are
stretched from 0 .. their largest value in the frame, H is passed unchanged. -/
def Obligations.AutostretchStretchesFromZero : Prop :=
  ∀ (s : State) (w : Word) (r : OpRegs), s.block.pending = some ⟨w, r⟩ → r.aFmt = 2 →
    let n := r.aWidth.toNat * r.aHeight.toNat
    let hsv := fun p => toHSV (s.mem.pixel3 r.aBase.toNat p)
    let sHi := largest n fun p => (hsv p).c1
    let vHi := largest n fun p => (hsv p).c2
    OneInputReady s.platform.memSize r (n * 3) (n * 3) →
    ∃ mem, exec .autostretch s = .next (s.doneWith mem 0) ∧ SameOutside s.mem mem r.dBase.toNat (n * 3) ∧
      ∀ p, p < n → mem.pixel3 r.dBase.toNat p =
        toRGB ⟨(hsv p).c0, stretchFromZero sHi (hsv p).c1, stretchFromZero vHi (hsv p).c2⟩

/-- R188, with R183 to R185 worked out: COLORENHANCE completes under the conditions of R113; k is taken out of the complements,
V is stretched from 0 .. its largest value, k goes back with a clamp, and the channels are inverted. -/
def Obligations.ColorenhanceStretchesValueOnly : Prop :=
  ∀ (s : State) (w : Word) (r : OpRegs), s.block.pending = some ⟨w, r⟩ → r.aFmt = 2 →
    let n := r.aWidth.toNat * r.aHeight.toNat
    let px := fun p => s.mem.pixel3 r.aBase.toNat p
    let k := fun p => min (min (255 - (px p).c0) (255 - (px p).c1)) (255 - (px p).c2)
    let hsv := fun p => toHSV ⟨255 - (px p).c0 - k p, 255 - (px p).c1 - k p, 255 - (px p).c2 - k p⟩
    let vHi := largest n fun p => (hsv p).c2
    let out := fun p => toRGB ⟨(hsv p).c0, (hsv p).c1, stretchFromZero vHi (hsv p).c2⟩
    OneInputReady s.platform.memSize r (n * 3) (n * 3) →
    ∃ mem, exec .colorenhance s = .next (s.doneWith mem 0) ∧ SameOutside s.mem mem r.dBase.toNat (n * 3) ∧
      ∀ p, p < n → mem.pixel3 r.dBase.toNat p =
        ⟨255 - min ((out p).c0 + k p) 255, 255 - min ((out p).c1 + k p) 255, 255 - min ((out p).c2 + k p) 255⟩

/-- R172, R173: v is the largest channel, s is (mx - mn)·255 / mx (0 for black), h is 0 where s is, and s is 0 exactly for a
grey pixel. -/
def Obligations.ToHsvValueAndSaturation : Prop :=
  ∀ r g b : Nat, r ≤ 255 → g ≤ 255 → b ≤ 255 →
    let mx := max (max r g) b
    let mn := min (min r g) b
    (toHSV ⟨r, g, b⟩).c2 = mx ∧
    (mx = 0 → (toHSV ⟨r, g, b⟩).c1 = 0) ∧ (mx ≠ 0 → (toHSV ⟨r, g, b⟩).c1 = ((mx - mn) * 255) / mx) ∧
    ((toHSV ⟨r, g, b⟩).c1 = 0 ↔ mn = mx) ∧
    ((toHSV ⟨r, g, b⟩).c1 = 0 → (toHSV ⟨r, g, b⟩).c0 = 0)

/-- R174 to R176: for a coloured pixel, the hue is the sector value of ANY channel that holds the maximum, scaled by ·60 tdiv 255,
wrapped once into 0..359 and rescaled by ·255 tdiv 360, so the test order cannot change it. Multiplying before dividing is the
spec's own choice (D15). -/
def Obligations.ToHsvHueIgnoresTheTestOrder : Prop :=
  ∀ r g b : Nat, r ≤ 255 → g ≤ 255 → b ≤ 255 →
    let mx := max (max r g) b
    let mn := min (min r g) b
    let degrees := fun x : Int => (x * 60).tdiv 255
    let wrap := fun hd : Int => if hd < 0 then hd + 360 else if hd ≥ 360 then hd - 360 else hd
    let hue := fun x : Int => (wrap (degrees x) * 255).tdiv 360
    mn ≠ mx →
    (r = mx → ((toHSV ⟨r, g, b⟩).c0 : Int) = hue ((((g : Int) - b) * 255).tdiv ((mx : Int) - mn))) ∧
    (g = mx → ((toHSV ⟨r, g, b⟩).c0 : Int) = hue (510 + (((b : Int) - r) * 255).tdiv ((mx : Int) - mn))) ∧
    (b = mx → ((toHSV ⟨r, g, b⟩).c0 : Int) = hue (1020 + (((r : Int) - g) * 255).tdiv ((mx : Int) - mn)))

/-- R170, R171: toHSV of bytes gives bytes, and its hue is never 255. -/
def Obligations.ToHsvStaysInBytes : Prop :=
  ∀ r g b : Nat, r ≤ 255 → g ≤ 255 → b ≤ 255 →
    (toHSV ⟨r, g, b⟩).c0 ≤ 254 ∧ (toHSV ⟨r, g, b⟩).c1 ≤ 255 ∧ (toHSV ⟨r, g, b⟩).c2 ≤ 255

/-- R177, R178 and the corner cases of R181: no saturation gives grey whatever the hue, and hue 255 acts as hue 0. That fold of
sector 6 onto sector 0 is the spec's own choice (D16). -/
def Obligations.ToRgbGreyAndHueFold : Prop :=
  (∀ h v : Nat, toRGB ⟨h, 0, v⟩ = ⟨v, v, v⟩) ∧ (∀ s v : Nat, toRGB ⟨255, s, v⟩ = toRGB ⟨0, s, v⟩)

/-- R177 to R179 and R181: toRGB written out: degrees, sector and fraction, the components p, q and t, and the six rows of the
table, whose form is the spec's own choice (D16). No channel exceeds v, and one of them equals it. -/
def Obligations.ToRgbChannelsReachValue : Prop :=
  ∀ h s v : Nat, h ≤ 255 → s ≤ 255 → v ≤ 255 →
    let o := toRGB ⟨h, s, v⟩
    let hd := (h * 360) / 255
    let i := (hd / 60) % 6
    let f := hd % 60
    let p := (v * (255 - s)) / 255
    let q := (v * (255 * 59 - s * f)) / (255 * 59)
    let t := (v * (255 * 59 - s * (59 - f))) / (255 * 59)
    (s = 0 → o = ⟨v, v, v⟩) ∧
    (s ≠ 0 →
      (i = 0 → o = ⟨v, t, p⟩) ∧ (i = 1 → o = ⟨q, v, p⟩) ∧ (i = 2 → o = ⟨p, v, t⟩) ∧
      (i = 3 → o = ⟨p, q, v⟩) ∧ (i = 4 → o = ⟨t, p, v⟩) ∧ (i = 5 → o = ⟨v, p, q⟩)) ∧
    o.c0 ≤ v ∧ o.c1 ≤ v ∧ o.c2 ≤ v ∧ (o.c0 = v ∨ o.c1 = v ∨ o.c2 = v)

/-- R182, what does hold of the round trip: grey comes back exactly, and the largest channel value comes back exactly. -/
def Obligations.RoundTripKeepsGreyAndTheLargestChannel : Prop :=
  ∀ r g b : Nat, r ≤ 255 → g ≤ 255 → b ≤ 255 →
    toRGB (toHSV ⟨r, r, r⟩) = ⟨r, r, r⟩ ∧
    (let o := toRGB (toHSV ⟨r, g, b⟩)
     max (max o.c0 o.c1) o.c2 = max (max r g) b)

/-- R182 and 95_test_vectors.md V6, V7: the round trip is not within ±1. -/
def Obligations.RoundTripIsNotWithinOne : Prop :=
  toHSV ⟨255, 8, 0⟩ = ⟨0, 255, 255⟩ ∧ toRGB ⟨0, 255, 255⟩ = ⟨255, 0, 0⟩ ∧
    toHSV ⟨0, 232, 20⟩ = ⟨87, 255, 232⟩ ∧ toRGB ⟨87, 255, 232⟩ = ⟨0, 232, 7⟩

/-- R184, R185: the accumulators start at 0 and take the minimum and maximum with each value, so the lower bound stays 0 for any
frame, the upper bound is the largest value seen, and a stretch of a value seen stays in 0..255. -/
def Obligations.StretchRangeStartsAtZero : Prop :=
  rangeOf [] = ⟨0, 0⟩ ∧
  (∀ (xs : List Nat) (x : Nat), rangeOf (xs ++ [x]) = ⟨min (rangeOf xs).lo x, max (rangeOf xs).hi x⟩) ∧
  ∀ xs : List Nat, (∀ x ∈ xs, x ≤ 255) →
    (rangeOf xs).lo = 0 ∧ (∀ x ∈ xs, x ≤ (rangeOf xs).hi) ∧ ((rangeOf xs).hi = 0 ∨ (rangeOf xs).hi ∈ xs) ∧
    ∀ x ∈ xs, (rangeOf xs).stretch x = (if (rangeOf xs).hi = 0 then x else x * 255 / (rangeOf xs).hi) ∧
      (rangeOf xs).stretch x ≤ 255

/-! ### DESPECKLE (44_median.md) -/

/-- R217, R219 (c), R216: DESPECKLE completes under the conditions of R113 with every setting, A and all bytes outside D stay,
and every output pixel is some pixel of the input frame. It draws at most once per pixel (R215; log 4). -/
def Obligations.DespeckleOnlyCopiesInputPixels : Prop :=
  ∀ (s : State) (w : Word) (r : OpRegs) (bpp : Nat), s.block.pending = some ⟨w, r⟩ →
    (r.aFmt = 1 ∧ bpp = 1) ∨ (r.aFmt = 2 ∧ bpp = 3) → DespeckleReady r →
    let n := r.aWidth.toNat * r.aHeight.toNat
    OneInputReady s.platform.memSize r (n * bpp) (n * bpp) →
    ∃ mem k, k ≤ n ∧ exec .despeckle s = .next (s.doneWith mem k) ∧ SameOutside s.mem mem r.dBase.toNat (n * bpp) ∧
      ∀ p, p < n → ∃ q, q < n ∧ mem.pixel r.dBase.toNat bpp p = s.mem.pixel r.aBase.toNat bpp q

/-- R219 (a): radius 0 is the identity, for every other setting. -/
def Obligations.DespeckleRadiusZeroIsTheIdentity : Prop :=
  ∀ (s : State) (w : Word) (r : OpRegs) (bpp : Nat), s.block.pending = some ⟨w, r⟩ →
    (r.aFmt = 1 ∧ bpp = 1) ∨ (r.aFmt = 2 ∧ bpp = 3) → DespeckleReady r → r.medRadius = 0 →
    let n := r.aWidth.toNat * r.aHeight.toNat
    OneInputReady s.platform.memSize r (n * bpp) (n * bpp) →
    ∃ mem, exec .despeckle s = .next (s.doneWith mem 0) ∧ SameOutside s.mem mem r.dBase.toNat (n * bpp) ∧
      ∀ p, p < n → mem.pixel r.dBase.toNat bpp p = s.mem.pixel r.aBase.toNat bpp p

/-- R219 (b): a frame whose pixels are all equal comes back as it is, for every setting. -/
def Obligations.DespeckleKeepsAUniformFrame : Prop :=
  ∀ (s : State) (w : Word) (r : OpRegs) (bpp : Nat), s.block.pending = some ⟨w, r⟩ →
    (r.aFmt = 1 ∧ bpp = 1) ∨ (r.aFmt = 2 ∧ bpp = 3) → DespeckleReady r →
    let n := r.aWidth.toNat * r.aHeight.toNat
    OneInputReady s.platform.memSize r (n * bpp) (n * bpp) →
    (∀ p, p < n → s.mem.pixel r.aBase.toNat bpp p = s.mem.pixel r.aBase.toNat bpp 0) →
    ∃ mem, exec .despeckle s = .next (s.doneWith mem 0) ∧ SameOutside s.mem mem r.dBase.toNat (n * bpp) ∧
      ∀ p, p < n → mem.pixel r.dBase.toNat bpp p = s.mem.pixel r.aBase.toNat bpp p

/-- R210 to R218, the whole scan: there is a sequence of effective radii that starts at the configured radius and moves by
AdaptStep, and at every pixel the output is the pixel itself where the window at that radius has fewer than two candidates, and
otherwise a candidate whose key is the lower median: at most k candidates have a smaller key and more than k a key no larger,
for k = (n - 1) / 2. In recursive mode a pixel before p is sampled from D. The key is the luminance of R213, written out. The
luminance, the lower median and the order of the classes are the spec's own choices (D19, D20, D23). Which of several such
candidates is written is not said: it is MEDIAN_TIE (R215; log 4). -/
def Obligations.DespeckleWritesLowerMediansAlongTheScan : Prop :=
  ∀ (s t : State) (w : Word) (r : OpRegs) (bpp : Nat), s.block.pending = some ⟨w, r⟩ →
    (r.aFmt = 1 ∧ bpp = 1) ∨ (r.aFmt = 2 ∧ bpp = 3) → DespeckleReady r →
    let width := r.aWidth.toNat
    let n := width * r.aHeight.toNat
    let black := r.medBlack.toNat
    let white := r.medWhite.toNat
    let radius := r.medRadius.toNat
    OneInputReady s.platform.memSize r (n * bpp) (n * bpp) → exec .despeckle s = .next t →
    let own := fun p => s.mem.pixel r.aBase.toNat bpp p
    let out := fun p => t.mem.pixel r.dBase.toNat bpp p
    let sample := fun p q => if r.medFlags.getLsbD 1 = true ∧ q < p then out q else own q
    let byte := fun (px : Pixel) (c : Nat) => (px.getD c 0).toNat
    let luminance := fun px : Pixel =>
      if bpp = 1 then byte px 0 else (2126 * byte px 0 + 7152 * byte px 1 + 722 * byte px 2 + 5000) / 10000
    let key := fun p q => luminance (sample p q)
    ∃ er : Nat → Nat, er 0 = radius ∧
      ∀ p, p < n →
        let win := windowSet width n p (er p)
        let dark := (win.filter fun q => key p q ≤ black).card
        let bright := (win.filter fun q => black < key p q ∧ white ≤ key p q).card
        let cands := win.filter fun q => black < key p q ∧ key p q < white
        (cands.card < 2 → out p = own p) ∧
        (2 ≤ cands.card → ∃ q ∈ cands, out p = sample p q ∧
          (cands.filter fun q' => key p q' < key p q).card ≤ (cands.card - 1) / 2 ∧
          (cands.card - 1) / 2 < (cands.filter fun q' => key p q' ≤ key p q).card) ∧
        er (p + 1) =
          (if r.medFlags.getLsbD 0 = true then
            (if er p ≤ dark ∨ er p ≤ bright then min (er p + 1) ((2 * radius + 1) / 2)
             else if 1 < er p then er p - 1 else er p)
           else er p)

/-- R218: the cap is the configured radius; with R ≥ 1 the effective radius stays in 1..R, with R = 0 it stays 0. -/
def Obligations.AdaptStepKeepsTheRadiusInRange : Prop :=
  ∀ (cfg : DespeckleConfig) (er dark bright : Nat),
    (2 * cfg.radius + 1) / 2 = cfg.radius ∧
    (1 ≤ er → er ≤ cfg.radius → 1 ≤ adaptStep cfg er dark bright ∧ adaptStep cfg er dark bright ≤ cfg.radius) ∧
    (cfg.radius = 0 → er = 0 → adaptStep cfg er dark bright = 0)

/-! ### SOBEL (45_sobel.md) -/

/-- R240 to R244, R246, R247: SOBEL completes under the conditions of R113; every luma byte is the narrowed gradient magnitude
of the clamped 3×3 neighbourhood, written out, or 0 on the border ring without MIRROR, and every chroma byte is 127. Which index
is the row, and the truncated rescale with its guard, are the spec's own choices (D27, D26). -/
def Obligations.SobelWritesTheGradientMagnitude : Prop :=
  ∀ (s : State) (w : Word) (r : OpRegs), s.block.pending = some ⟨w, r⟩ → r.aFmt = 7 → r.sobelFlags.toNat < 8 →
    let width := r.aWidth.toNat
    let height := r.aHeight.toNat
    let a := r.aBase.toNat
    let d := r.dBase.toNat
    let chroma := 2 * (((width + 1) / 2) * ((height + 1) / 2))
    OneInputReady s.platform.memSize r (width * height + chroma) (width * height + chroma) →
    let y := fun i j : Int =>
      (s.mem.byteAt (a + (max 0 (min i (height - 1))).toNat * width + (max 0 (min j (width - 1))).toNat) : Int)
    let gx := fun i j : Int =>
      y (i - 1) (j + 1) + 2 * y i (j + 1) + y (i + 1) (j + 1) - y (i - 1) (j - 1) - 2 * y i (j - 1) - y (i + 1) (j - 1)
    let gy := fun i j : Int =>
      y (i + 1) (j - 1) + 2 * y (i + 1) j + y (i + 1) (j + 1) - y (i - 1) (j - 1) - 2 * y (i - 1) j - y (i - 1) (j + 1)
    let mag := fun i j : Int =>
      if r.sobelFlags.getLsbD 1 = true then (gx i j).natAbs + (gy i j).natAbs
      else roundSqrt ((gx i j).natAbs ^ 2 + (gy i j).natAbs ^ 2)
    let top := if r.sobelFlags.getLsbD 1 = true then s.platform.sobelMaxAbs else s.platform.sobelMaxL2
    ∃ mem, exec .sobel s = .next (s.doneWith mem 0) ∧ SameOutside s.mem mem d (width * height + chroma) ∧
      (∀ i j : Nat, i < height → j < width →
        mem.byteAt (d + i * width + j) =
          if r.sobelFlags.getLsbD 0 = false ∧ (i = 0 ∨ i = height - 1 ∨ j = 0 ∨ j = width - 1) then 0
          else if r.sobelFlags.getLsbD 2 = true then min (mag i j) 255
          else min 255 (mag i j * 255 / top)) ∧
      ∀ k, k < chroma → mem.byteAt (d + width * height + k) = 127

/-- R245: a constant luma plane gives an all-zero luma plane, for every setting. -/
def Obligations.SobelOfAConstantPlaneIsZero : Prop :=
  ∀ (s : State) (w : Word) (r : OpRegs), s.block.pending = some ⟨w, r⟩ → r.aFmt = 7 → r.sobelFlags.toNat < 8 →
    let n := r.aWidth.toNat * r.aHeight.toNat
    let chroma := 2 * (((r.aWidth.toNat + 1) / 2) * ((r.aHeight.toNat + 1) / 2))
    OneInputReady s.platform.memSize r (n + chroma) (n + chroma) →
    (∀ p, p < n → s.mem.read (r.aBase.toNat + p) = s.mem.read r.aBase.toNat) →
    ∃ mem, exec .sobel s = .next (s.doneWith mem 0) ∧ ∀ p, p < n → mem.byteAt (r.dBase.toNat + p) = 0

/-- R8, R243: isqrt is the largest integer whose square does not exceed n, and round_sqrt is the integer nearest to √n. -/
def Obligations.RoundSqrtIsTheNearestInteger : Prop :=
  ∀ n : Nat, isqrt n * isqrt n ≤ n ∧ n < (isqrt n + 1) * (isqrt n + 1) ∧
    4 * n < (2 * roundSqrt n + 1) * (2 * roundSqrt n + 1) ∧
    (roundSqrt n = 0 ∨ (2 * roundSqrt n - 1) * (2 * roundSqrt n - 1) < 4 * n)

/-- R241, R243: over byte samples both gradients lie in -1020..1020 and the magnitudes in 0..1530 and 0..1140. -/
def Obligations.SobelMagnitudeRanges : Prop :=
  ∀ (sample : Int → Int → Int) (i j : Int), (∀ a b, 0 ≤ sample a b ∧ sample a b ≤ 255) →
    let gx := convolve kernelX sample i j
    let gy := convolve kernelY sample i j
    gx.natAbs ≤ 1020 ∧ gy.natAbs ≤ 1020 ∧ magnitude true gx gy ≤ 1530 ∧ magnitude false gx gy ≤ 1140

/-! ### The register port (10_state.md) -/

/-- R23, R311: a descriptor or configuration register reads back all 32 bits at once, BUSY or not; the write moves no other
register, no byte of memory and no snapshot. -/
def Obligations.DescriptorsReadBackWhatWasWritten : Prop :=
  ∀ (s : State) (reg : Reg) (v : Word) (rest : List Event), reg ≠ .ctrl → reg ≠ .status → reg ≠ .cmd →
    s.block.inReset = false → s.inbox = .regWrite 0 32 reg.offset v :: .regRead 0 32 reg.offset :: rest →
    ∃ t u, step s = .next t ∧ step t = .next u ∧ u.replies = .word v :: s.replies ∧
      (∀ reg', reg' ≠ reg → u.block.readReg reg' = s.block.readReg reg') ∧
      u = { s with inbox := rest, replies := u.replies, block := { s.block with regs := u.block.regs } }

/-- R23, R28 (93 X4): a reserved offset reads 0 and ignores writes. -/
def Obligations.ReservedOffsetsReadZeroAndIgnoreWrites : Prop :=
  ∀ (s : State) (off : BitVec 8) (v : Word) (rest : List Event), s.block.inReset = false → off.toNat % 4 = 0 →
    off.toNat = 0x0C ∨ off.toNat = 0x3C ∨ (0x44 ≤ off.toNat ∧ off.toNat ≤ 0x4C) ∨ 0x64 ≤ off.toNat →
    (s.inbox = .regWrite 0 32 off v :: rest → step s = .next { s with inbox := rest }) ∧
    (s.inbox = .regRead 0 32 off :: rest → step s = .next { s with inbox := rest, replies := .word 0 :: s.replies })

/-- R25, R270: the STATUS word bit by bit, the number of each error code, and a STATUS write clears exactly the DONE, ERR and
CMD_LOST bits written 1. -/
def Obligations.StatusWordAndItsClearBits : Prop :=
  (ErrCode.ok.number = 0 ∧ ErrCode.illegalCommand.number = 1 ∧ ErrCode.invalidConfig.number = 2 ∧
    ErrCode.unsupportedFormat.number = 3 ∧ ErrCode.dimensionMismatch.number = 4 ∧ ErrCode.resource.number = 5 ∧
    ErrCode.overlap.number = 6) ∧
  (∀ b : Block,
    b.statusWord.getLsbD 0 = b.busy ∧ b.statusWord.getLsbD 1 = b.done ∧ b.statusWord.getLsbD 2 = b.err ∧
    b.statusWord.getLsbD 3 = b.cmdLost ∧ b.statusWord.extractLsb' 8 4 = b.errCode.number ∧
    b.statusWord.extractLsb' 4 4 = 0 ∧ b.statusWord.extractLsb' 12 20 = 0) ∧
  ∀ (s : State) (v : Word) (rest : List Event), s.block.inReset = false → s.inbox = .regWrite 0 32 0x04 v :: rest →
    step s = .next { s with
      inbox := rest
      block := { s.block with
        done := if v.getLsbD 1 then false else s.block.done
        err := if v.getLsbD 2 then false else s.block.err
        cmdLost := if v.getLsbD 3 then false else s.block.cmdLost } }

/-- R24: CTRL holds IRQ_EN in bit 0 and reads 0 above it; a CTRL write moves nothing else. -/
def Obligations.CtrlHoldsOnlyIrqEnable : Prop :=
  ∀ (s : State) (v : Word) (rest : List Event), s.block.inReset = false →
    s.inbox = .regWrite 0 32 0x00 v :: .regRead 0 32 0x00 :: rest →
    ∃ t u, step s = .next t ∧ step t = .next u ∧
      t.block = { s.block with irqEn := v.getLsbD 0 } ∧ u.replies = .word (v &&& 1) :: s.replies ∧
      u = { s with inbox := rest, replies := u.replies, block := t.block }

/-- R29: irq is IRQ_EN and (DONE or ERR): CMD_LOST does not drive it, ACK lowers it, and so does acceptance. -/
def Obligations.IrqFollowsDoneAndErr : Prop :=
  ∀ b : Block, b.irq = (b.irqEn && (b.done || b.err)) ∧ { b with cmdLost := !b.cmdLost }.irq = b.irq ∧
    (b.clearStatus 0x0000000E).irq = false ∧ (b.writeCtrl 0).irq = false ∧ ∀ w, (b.accept w).irq = false

/-- R28, R112: no register write of any form changes the running command's snapshot, or memory. -/
def Obligations.RegisterWritesLeaveTheSnapshot : Prop :=
  ∀ (s : State) (bits : Nat) (off : BitVec 8) (v : Word) (c : Snapshot) (rest : List Event),
    s.inbox = .regWrite 0 bits off v :: rest → s.block.pending = some c →
    ∃ t, step s = .next t ∧ t.block.pending = some c ∧ t.mem = s.mem ∧ t.others = s.others ∧ t.draws = s.draws

/-- 93 U1, U7 (R28, R300): an access of another width or at another offset, or during reset, has no effect. That the host is
answered `refused` and the run goes on is the model's choice (log 7). -/
def Obligations.AccessesOutsideTheInterfaceHaveNoEffect : Prop :=
  ∀ (s : State) (bits : Nat) (off : BitVec 8) (v : Word) (rest : List Event),
    bits ≠ 32 ∨ off.toNat % 4 ≠ 0 ∨ s.block.inReset = true →
    (s.inbox = .regWrite 0 bits off v :: rest →
      step s = .next { s with inbox := rest, replies := .refused :: s.replies }) ∧
    (s.inbox = .regRead 0 bits off :: rest →
      step s = .next { s with inbox := rest, replies := .refused :: s.replies })

/-! ### Errors, reset, memory, instances -/

/-- R276: after an error the ACK clears ERR, ERRCODE keeps its value, irq falls, and nothing else changes but the bits ACK
clears. -/
def Obligations.AckReturnsFromAnError : Prop :=
  ∀ (s : State) (rest : List Event), s.block.inReset = false → s.inbox = ackStatus :: rest →
    ∃ t, step s = .next t ∧ t.block.err = false ∧ t.block.errCode = s.block.errCode ∧ t.block.irq = false ∧
      t = { s with inbox := rest, block := { s.block with done := false, err := false, cmdLost := false } }

/-- R23, R43, R300: the offsets of the registers, and their values after reset. -/
def Obligations.ResetLeavesTheSpecifiedRegisters : Prop :=
  Reg.all.map Reg.offset =
    [0x00, 0x04, 0x08, 0x10, 0x14, 0x18, 0x1C, 0x20, 0x24, 0x28, 0x2C, 0x30, 0x34, 0x38, 0x40, 0x50, 0x54, 0x58, 0x5C, 0x60] ∧
  Reg.all.map State.reset.block.readReg = [0, 0, 0, 0, 0, 0, 0, 0, 0, 0, 0, 0, 0, 0, 0, 1, 7, 0xF8, 0, 1] ∧
    State.reset.block.pending = none ∧ State.reset.block.irq = false

/-- R300, R301, R302: asserting reset puts every register at its reset value and discards the pending command; every byte that is
not in the abandoned output extent, and every byte of an input extent, keeps its value; an idle block, and one whose pending
command has no output extent, touches no byte. Releasing it (R304) changes the level of the reset input alone. The model's own
record of unsettled outputs (log 5) and its draw counter (log 6) are left open. -/
def Obligations.AssertingResetAbandonsTheCommand : Prop :=
  ∀ (s : State) (rest : List Event),
    (s.inbox = .reset 0 false :: rest →
      step s = .next { s with inbox := rest, block := { s.block with inReset := false } }) ∧
    (s.inbox = .reset 0 true :: rest →
      ∃ t, step s = .next t ∧
        t = { s with
              inbox := rest
              mem := t.mem
              draws := t.draws
              block := { Block.reset with inReset := true, unsettled := t.block.unsettled } } ∧
        t.block.irq = false ∧ t.block.statusWord = 0 ∧
        (s.block.pending = none → t.mem = s.mem) ∧
        (∀ (c : Snapshot), s.block.pending = some c →
          (∀ i, decode c.word = .ok i → extentD i c.regs = none) → t.mem = s.mem) ∧
        ∀ (c : Snapshot) (i : Instr) (d : Extent) (a : Nat), s.block.pending = some c → decode c.word = .ok i →
          extentD i c.regs = some d →
          a < d.base ∨ d.base + d.len ≤ a ∨ (∃ e ∈ inputExtents i c.regs, e.base ≤ a ∧ a < e.base + e.len) →
          t.mem.read a = s.mem.read a)

/-- R77, R310 H3: a host write that touches an extent of a running command, of any instance, is a fault. -/
def Obligations.HostWriteIntoARunningExtentFaults : Prop :=
  ∀ (s : State) (a : Word) (bytes : List Byte) (rest : List Event) (b : Block) (c : Snapshot) (i : Instr) (e : Extent)
    (k : Nat), s.inbox = .memWrite a bytes :: rest → b ∈ s.blocks → b.pending = some c → decode c.word = .ok i →
    e ∈ inputExtents i c.regs ∨ extentD i c.regs = some e → k < bytes.length →
    e.base ≤ a.toNat + k → a.toNat + k < e.base + e.len → a.toNat + bytes.length ≤ s.platform.memSize →
    step s = .fault .hostWroteLiveExtent

/-- R60, R68, R71, and the other side of R77 and R310 H3: a host write to existing bytes that lie in no extent of a running
command stores exactly those bytes, while commands run or none does. -/
def Obligations.HostWriteStoresItsBytes : Prop :=
  ∀ (s : State) (a : Word) (bytes : List Byte) (rest : List Event), s.inbox = .memWrite a bytes :: rest →
    Fits s.platform.memSize a.toNat bytes.length →
    (∀ b ∈ s.blocks, ∀ c i e k, b.pending = some c → decode c.word = .ok i →
      e ∈ inputExtents i c.regs ∨ extentD i c.regs = some e → k < bytes.length →
      a.toNat + k < e.base ∨ e.base + e.len ≤ a.toNat + k) →
    ∃ mem, step s = .next { s with inbox := rest, mem := mem } ∧ SameOutside s.mem mem a.toNat bytes.length ∧
      ∀ k (h : k < bytes.length), mem.read (a.toNat + k) = bytes[k]

/-- R72, R77: a host read of bytes no unsettled output covers answers frame memory and changes nothing else, running command or
not. -/
def Obligations.HostReadsSettledBytes : Prop :=
  ∀ (s : State) (a : Word) (n : Nat) (rest : List Event), s.inbox = .memRead a n :: rest →
    Fits s.platform.memSize a.toNat n →
    (∀ b ∈ s.blocks, ∀ e ∈ b.unsettled, ∀ k, k < n → a.toNat + k < e.base ∨ e.base + e.len ≤ a.toNat + k) →
    step s = .next { s with
      inbox := rest
      replies := .bytes ((List.range n).map fun k => s.mem.read (a.toNat + k)) :: s.replies }

/-- R72, R29, R310 H5: after a STATUS read that returns BUSY = 0, and after a look at a high irq line (log 19), the host reads
what the block's commands wrote, beside whatever other instances do to bytes it does not read. A look at irq answers its level,
and changes nothing but the model's own record of unsettled outputs (log 5), which a low level leaves too. WAIT (R98) is a
STATUS read, after which, while BUSY = 1, a turn of the block and another WAIT come next (log 17). -/
def Obligations.ObservingCompletionShowsTheOutput : Prop :=
  ∀ (s : State) (rest : List Event),
    (∀ (a : Word) (n : Nat), Fits s.platform.memSize a.toNat n →
      (∀ b ∈ s.others, ∀ e ∈ b.unsettled, ∀ k, k < n → a.toNat + k < e.base ∨ e.base + e.len ≤ a.toNat + k) →
      let got := Reply.bytes ((List.range n).map fun k => s.mem.read (a.toNat + k))
      (s.block.inReset = false → s.block.pending = none →
        s.inbox = .regRead 0 32 0x04 :: .memRead a n :: rest ∨ s.inbox = .wait 0 :: .memRead a n :: rest →
        ∃ t u, step s = .next t ∧ step t = .next u ∧ u.mem = s.mem ∧
          u.replies = got :: .word s.block.statusWord :: s.replies) ∧
      (s.block.irq = true → s.inbox = .irqRead 0 :: .memRead a n :: rest →
        ∃ t u, step s = .next t ∧ step t = .next u ∧ u.mem = s.mem ∧ u.replies = got :: .irq true :: s.replies)) ∧
    (s.inbox = .irqRead 0 :: rest →
      ∃ t, step s = .next t ∧
        t = { s with
              inbox := rest
              replies := .irq s.block.irq :: s.replies
              block := { s.block with unsettled := t.block.unsettled } } ∧
        (s.block.irq = false → t.block = s.block)) ∧
    (s.block.inReset = false → s.block.busy = true → s.inbox = .wait 0 :: rest →
      step s = .next { s with inbox := .block 0 :: .wait 0 :: rest, replies := .word s.block.statusWord :: s.replies })

/-- R292: whatever an event does at one instance, every other instance stays as it is: they share nothing but frame memory. -/
def Obligations.InstancesShareOnlyFrameMemory : Prop :=
  ∀ (s t : State) (e : Event) (k j : Nat) (rest : List Event),
    (∃ bits off v, e = .regWrite k bits off v) ∨ (∃ bits off, e = .regRead k bits off) ∨ e = .wait k ∨ e = .irqRead k ∨
      e = .block k ∨ (∃ level, e = .reset k level) →
    s.inbox = e :: rest → step s = .next t → j ≠ k → t.blocks[j]? = s.blocks[j]?

/-- R292, R310 H6: a command whose output shares a byte with an extent of another running instance, or one of whose inputs shares
a byte with the output of another running instance, stops the machine when it is accepted. That the stop comes at acceptance,
and for a command that would fail validation too, is the model's choice (log 10). -/
def Obligations.SharedOutputsStopTheMachine : Prop :=
  ∀ (s : State) (w : Word) (rest : List Event) (b : Block) (c : Snapshot) (i i' : Instr) (d e : Extent) (a : Nat),
    s.inbox = .regWrite 0 32 0x08 w :: rest → s.block.inReset = false → s.block.pending = none → b ∈ s.others →
    b.pending = some c → decode w = .ok i → decode c.word = .ok i' →
    (extentD i s.block.regs = some d ∧ (e ∈ inputExtents i' c.regs ∨ extentD i' c.regs = some e)) ∨
      (d ∈ inputExtents i s.block.regs ∧ extentD i' c.regs = some e) →
    d.base ≤ a → a < d.base + d.len → e.base ≤ a → a < e.base + e.len → step s = .fault .sharedExtents

/-! ### The whole machine -/

/-- Every step keeps the invariant: legal parameters, frame memory canonical and within MEM_SIZE, STATUS sound in every
instance, the reset values under reset, the outputs of running commands unsettled, and disjoint extents of what runs
concurrently. The canonical form (log 3), the record of unsettled outputs (log 5), and the stops that keep memory within
MEM_SIZE (log 9) and running extents disjoint (log 10) are the model's choices. -/
def Obligations.StepKeepsTheInvariant : Prop :=
  ∀ s t : State, s.Inv → step s = .next t → t.Inv

/-- The invariant holds after reset. The platform State.reset stands on is the model's choice (log 1). -/
def Obligations.ResetSatisfiesTheInvariant : Prop := State.reset.Inv

/-- R272, R277, R310, 93 section 2: a step never refuses, and it stops only on what the host did: a CMD write that shares extents,
a memory write into a running extent, or an access beyond MEM_SIZE. The model's choices in it: a register access outside the
interface goes on, answered `refused`, where 93 U1 and U7 say refuse (log 7); the stop at MEM_SIZE (log 9); and that shared
extents stop at the CMD write (log 10). -/
def Obligations.StepStopsOnlyOnBrokenHostDuties : Prop :=
  ∀ s : State, (∀ r, step s ≠ .refused r) ∧
    ∀ f, step s = .fault f →
      (f = .sharedExtents ∧ ∃ k v rest, s.inbox = .regWrite k 32 0x08 v :: rest) ∨
      (f = .hostWroteLiveExtent ∧ ∃ a bytes rest, s.inbox = .memWrite a bytes :: rest) ∨
      (f = .addressBeyondMemory ∧
        ∃ a rest, (∃ bytes, s.inbox = .memWrite a bytes :: rest) ∨ ∃ n, s.inbox = .memRead a n :: rest)

/-- R6: no step changes the parameters, or how many instances there are. -/
def Obligations.StepKeepsThePlatform : Prop :=
  ∀ s t : State, step s = .next t → t.platform = s.platform ∧ t.others.length = s.others.length

/-- R292: an event at instance k does there what it does at instance 0: the step is that of the machine with the two instances
in each other's place, put back. `focus` is that exchange, written out; so every statement about instance 0 speaks of each
instance. A WAIT names its instance in what it leaves in the inbox, and is not among the events (log 17). -/
def Obligations.EveryInstanceActsAsInstanceZero : Prop :=
  ∀ (s : State) (k : Nat) (rest : List Event) (e e0 : Event), k ≤ s.others.length →
    (∃ bits off v, e = .regWrite k bits off v ∧ e0 = .regWrite 0 bits off v) ∨
      (∃ bits off, e = .regRead k bits off ∧ e0 = .regRead 0 bits off) ∨ (e = .irqRead k ∧ e0 = .irqRead 0) ∨
      (e = .block k ∧ e0 = .block 0) ∨ (∃ level, e = .reset k level ∧ e0 = .reset 0 level) →
    let swapped := ({ s with inbox := e0 :: rest } : State).focus k
    (swapped = { s with inbox := e0 :: rest, block := swapped.block, others := swapped.others } ∧
      swapped.others.length = s.others.length ∧
      ∀ j, swapped.blocks[j]? = if j = 0 then s.blocks[k]? else if j = k then s.blocks[0]? else s.blocks[j]?) ∧
    (s.inbox = e :: rest →
      (∀ t, step s = .next t ↔ ∃ u, step swapped = .next u ∧ t = u.focus k) ∧
      ∀ f, step s = .fault f ↔ step swapped = .fault f)
end

