-- ==== Sys2Proof/Laws/Kernels.lean ====
section
/-! SUPPORT. What every command computes has the length of its D extent, and where each output byte stands. -/

namespace Sys2Proof.Machine

/-- The length of equal chunks joined. -/
theorem length_flatMap_range {α : Type} (f : Nat → List α) (k : Nat) (hf : ∀ i, (f i).length = k) (n : Nat) :
    ((List.range n).flatMap f).length = n * k := by
  induction n with
  | zero => simp
  | succ n ih => simp [List.range_succ, List.flatMap_append, ih, hf, Nat.succ_mul]

/-- Element c of chunk i of equal chunks joined. -/
theorem getElem?_flatMap_range {α : Type} (f : Nat → List α) (k : Nat) (hf : ∀ i, (f i).length = k) (n i c : Nat)
    (hi : i < n) (hc : c < k) : ((List.range n).flatMap f)[i * k + c]? = (f i)[c]? := by
  induction n with
  | zero => omega
  | succ n ih =>
    have hlen := length_flatMap_range f k hf n
    rw [List.range_succ, List.flatMap_append]
    rcases Nat.lt_or_ge i n with h | h
    · have : i * k + c < n * k := by
        calc i * k + c < i * k + k := by omega
          _ = (i + 1) * k := by ring
          _ ≤ n * k := Nat.mul_le_mul_right k h
      rw [List.getElem?_append_left (by omega), ih h]
    · have : i = n := by omega
      subst this
      rw [List.getElem?_append_right (by omega), hlen]
      simp

@[simp] theorem composePixel_length (r : OpRegs) (rd : Nat → Byte) (i : Nat) : (composePixel r rd i).length = 4 := rfl

@[simp] theorem blendPixel_length (r : OpRegs) (bpp : Nat) (rd : Nat → Byte) (p : Nat) :
    (blendPixel r bpp rd p).length = bpp := by simp [blendPixel]

@[simp] theorem subtractPixel_length (r : OpRegs) (bpp : Nat) (rd : Nat → Byte) (p : Nat) :
    (subtractPixel r bpp rd p).length = bpp := by simp [subtractPixel]

@[simp] theorem Triple.bytes_length (t : Triple) : t.bytes.length = 3 := rfl

@[simp] theorem inputPixel_length (r : OpRegs) (bpp : Nat) (rd : Nat → Byte) (q : Nat) :
    (inputPixel r bpp rd q).length = bpp := by simp [inputPixel]

@[simp] theorem composeBytes_length (r : OpRegs) (rd : Nat → Byte) : (composeBytes r rd).length = r.w * r.h * 4 :=
  length_flatMap_range _ 4 (fun _ => rfl) _

@[simp] theorem blendBytes_length (r : OpRegs) (rd : Nat → Byte) : (blendBytes r rd).length = r.w * r.h * bppA r :=
  length_flatMap_range _ _ (fun _ => blendPixel_length ..) _

@[simp] theorem subtractBytes_length (r : OpRegs) (rd : Nat → Byte) :
    (subtractBytes r rd).length = r.w * r.h * bppA r :=
  length_flatMap_range _ _ (fun _ => subtractPixel_length ..) _

@[simp] theorem rgb2hsvBytes_length (r : OpRegs) (rd : Nat → Byte) : (rgb2hsvBytes r rd).length = r.w * r.h * 3 :=
  length_flatMap_range _ 3 (fun _ => rfl) _

@[simp] theorem hsv2rgbBytes_length (r : OpRegs) (rd : Nat → Byte) : (hsv2rgbBytes r rd).length = r.w * r.h * 3 :=
  length_flatMap_range _ 3 (fun _ => rfl) _

/-- AUTOSTRETCH as one run of equal chunks. -/
theorem autostretchBytes_eq (r : OpRegs) (rd : Nat → Byte) :
    autostretchBytes r rd = (List.range (r.w * r.h)).flatMap fun p =>
      (autostretchPixel (rangeOf ((hsvFrame r rd).map Triple.c1)) (rangeOf ((hsvFrame r rd).map Triple.c2))
        (toHSV (readTriple r rd p))).bytes := by
  simp [autostretchBytes, hsvFrame, List.flatMap_map]

/-- COLORENHANCE as one run of equal chunks. -/
theorem colorenhanceBytes_eq (r : OpRegs) (rd : Nat → Byte) :
    colorenhanceBytes r rd = (List.range (r.w * r.h)).flatMap fun p =>
      (colorenhancePixel (rangeOf ((rgbFrame r rd).map fun t => (cmyHSV t).c2)) (readTriple r rd p)).bytes := by
  simp [colorenhanceBytes, rgbFrame, List.flatMap_map]

@[simp] theorem autostretchBytes_length (r : OpRegs) (rd : Nat → Byte) :
    (autostretchBytes r rd).length = r.w * r.h * 3 := by
  rw [autostretchBytes_eq]; exact length_flatMap_range _ 3 (fun _ => rfl) _

@[simp] theorem colorenhanceBytes_length (r : OpRegs) (rd : Nat → Byte) :
    (colorenhanceBytes r rd).length = r.w * r.h * 3 := by
  rw [colorenhanceBytes_eq]; exact length_flatMap_range _ 3 (fun _ => rfl) _

@[simp] theorem sobelBytes_length (pl : Platform) (r : OpRegs) (rd : Nat → Byte) :
    (sobelBytes pl r rd).length = r.w * r.h + 2 * (half r.w * half r.h) := by simp [sobelBytes]

/-! ### DESPECKLE -/

/-- Every candidate of a tally is one of its samples, or was there before. -/
theorem mem_foldl_classify (cfg : DespeckleConfig) (l : List Pixel) :
    ∀ (t : Tally) (px : Pixel), px ∈ (l.foldl (classify cfg) t).candidates → px ∈ t.candidates ∨ px ∈ l := by
  induction l with
  | nil => intro t px h; exact .inl h
  | cons x l ih =>
    intro t px h
    rcases ih _ _ h with h | h
    · unfold classify at h
      split at h
      · exact .inl h
      · split at h
        · exact .inl h
        · rcases List.mem_append.mp h with h | h
          · exact .inl h
          · exact .inr (by simp_all)
    · exact .inr (List.mem_cons_of_mem _ h)

theorem mem_tally {cfg : DespeckleConfig} {l : List Pixel} {px : Pixel} (h : px ∈ (tally cfg l).candidates) : px ∈ l := by
  rcases mem_foldl_classify cfg l _ px h with h | h
  · simp at h
  · exact h

/-- The median key is the key of a candidate. -/
theorem medianKey_mem {cands : List Pixel} (h : cands ≠ []) : ∃ px ∈ cands, lum px = medianKey cands := by
  have hlen : ((cands.map lum).insertionSort (· ≤ ·)).length = cands.length := by simp
  have hpos : 0 < cands.length := List.length_pos_of_ne_nil h
  have hk : (cands.length - 1) / 2 < ((cands.map lum).insertionSort (· ≤ ·)).length := by
    rw [hlen]
    have : (cands.length - 1) / 2 ≤ cands.length - 1 := Nat.div_le_self ..
    omega
  have hmem : medianKey cands ∈ (cands.map lum).insertionSort (· ≤ ·) := by
    unfold medianKey
    rw [List.getD_eq_getElem _ _ hk]
    exact List.getElem_mem hk
  rw [List.mem_insertionSort] at hmem
  simpa using hmem

/-- An admissible pixel is a candidate with the median key. -/
theorem mem_admissible {cands : List Pixel} {px : Pixel} :
    px ∈ admissible cands ↔ px ∈ cands ∧ lum px = medianKey cands := by
  simp [admissible, List.mem_eraseDups]

theorem admissible_ne_nil {cands : List Pixel} (h : cands ≠ []) : admissible cands ≠ [] := by
  obtain ⟨px, hm, hk⟩ := medianKey_mem h
  intro hnil
  have : px ∈ admissible cands := mem_admissible.mpr ⟨hm, hk⟩
  simp [hnil] at this

/-- Whatever the draw, select answers an admissible pixel (R215). -/
theorem select_mem_admissible {cands : List Pixel} (h : cands ≠ []) (draws : Nat) :
    (select cands draws).1 ∈ admissible cands := by
  have hne := admissible_ne_nil h
  unfold select
  split
  · next px heq => simp [heq]
  · next pxs heq =>
    have hlt : Config.medianTie draws % (admissible cands).length < (admissible cands).length :=
      Nat.mod_lt _ (List.length_pos_of_ne_nil hne)
    show (admissible cands).getD _ [] ∈ admissible cands
    rw [List.getD_eq_getElem _ _ hlt]
    exact List.getElem_mem hlt

/-- What one pixel writes is the pixel itself or an admissible candidate (R215). -/
theorem chooseOutput_cases (own : Pixel) (cands : List Pixel) (draws : Nat) :
    (cands.length < 2 ∧ (chooseOutput own cands draws).1 = own) ∨
      (2 ≤ cands.length ∧ (chooseOutput own cands draws).1 ∈ admissible cands) := by
  unfold chooseOutput
  split
  · next h => exact .inl ⟨h, rfl⟩
  · next h => exact .inr ⟨by omega, select_mem_admissible (by rintro rfl; simp at h) draws⟩

/-- The counter never falls, and one pixel draws at most once. -/
theorem chooseOutput_draws (own : Pixel) (cands : List Pixel) (draws : Nat) :
    draws ≤ (chooseOutput own cands draws).2 ∧ (chooseOutput own cands draws).2 ≤ draws + 1 := by
  unfold chooseOutput select
  split
  · simp
  · split <;> simp

@[simp] theorem despeckleScan_zero (cfg : DespeckleConfig) (w h : Nat) (input : Nat → Pixel) (draws : Nat) :
    despeckleScan cfg w h input draws 0 = ⟨cfg.radius, [], draws⟩ := rfl

/-- The scan, one pixel at a time. -/
theorem despeckleScan_succ (cfg : DespeckleConfig) (w h : Nat) (input : Nat → Pixel) (draws n : Nat) :
    despeckleScan cfg w h input draws (n + 1) = despecklePixel cfg w h input (despeckleScan cfg w h input draws n) n := by
  simp [despeckleScan, List.range_succ]

@[simp] theorem despeckleScan_length (cfg : DespeckleConfig) (w h : Nat) (input : Nat → Pixel) (draws n : Nat) :
    (despeckleScan cfg w h input draws n).out.length = n := by
  induction n with
  | zero => rfl
  | succ n ih => rw [despeckleScan_succ]; simp [despecklePixel, ih]

/-- An index in a window is one of the frame's, within er rows and columns of the pixel (R212). -/
theorem mem_window {w h x y er q : Nat} (hx : x < w) (hy : y < h) (hq : q ∈ window w h x y er) :
    q < w * h ∧ q % w ≤ x + er ∧ x ≤ q % w + er ∧ q / w ≤ y + er ∧ y ≤ q / w + er := by
  unfold window at hq
  simp only [List.mem_flatMap, List.mem_map, List.mem_range] at hq
  obtain ⟨dy, hdy, dx, hdx, rfl⟩ := hq
  have hxx : x - er + dx < w := by omega
  have hyy : y - er + dy < h := by omega
  have hmod : ((y - er + dy) * w + (x - er + dx)) % w = x - er + dx := by
    rw [Nat.add_comm, Nat.add_mul_mod_self_right, Nat.mod_eq_of_lt hxx]
  have hdiv : ((y - er + dy) * w + (x - er + dx)) / w = y - er + dy := by
    rw [Nat.add_comm, Nat.add_mul_div_right _ _ (by omega), Nat.div_eq_of_lt hxx, Nat.zero_add]
  rw [hmod, hdiv]
  refine ⟨?_, by omega, by omega, by omega, by omega⟩
  calc (y - er + dy) * w + (x - er + dx) < (y - er + dy) * w + w := by omega
    _ = (y - er + dy + 1) * w := by ring
    _ ≤ h * w := Nat.mul_le_mul_right w hyy
    _ = w * h := Nat.mul_comm h w

/-- A property of every input pixel holds of every output pixel: the filter only copies (R219 c). -/
theorem despeckleScan_forall (cfg : DespeckleConfig) (w h : Nat) (input : Nat → Pixel) (draws : Nat) (P : Pixel → Prop)
    (hin : ∀ q, q < w * h → P (input q)) :
    ∀ n, n ≤ w * h → ∀ px ∈ (despeckleScan cfg w h input draws n).out, P px := by
  intro n
  induction n with
  | zero => intro _ px hpx; simp at hpx
  | succ n ih =>
    intro hn px hpx
    have ih := ih (by omega)
    rw [despeckleScan_succ] at hpx
    simp only [despecklePixel, List.mem_cons] at hpx
    rcases hpx with rfl | hpx
    · rcases chooseOutput_cases (input n) _ _ with ⟨_, hown⟩ | ⟨_, hadm⟩
      · rw [hown]; exact hin n (by omega)
      · have hs := mem_tally (mem_admissible.mp hadm).1
        obtain ⟨q, hq, hqe⟩ := List.mem_map.mp hs
        have hw : 0 < w := Nat.pos_of_ne_zero (by rintro rfl; simp at hn)
        have hy : n / w < h := Nat.div_lt_of_lt_mul (by omega)
        rw [← hqe]
        unfold samplePixel
        split
        · next hc =>
          have hqn : q < n := by
            rw [Bool.and_eq_true, decide_eq_true_eq] at hc
            exact hc.2
          have hlt : n - 1 - q < (despeckleScan cfg w h input draws n).out.length := by
            rw [despeckleScan_length]; omega
          rw [List.getD_eq_getElem _ _ hlt]
          exact ih _ (List.getElem_mem hlt)
        · exact hin q (mem_window (Nat.mod_lt _ hw) hy hq).1
    · exact ih px hpx

theorem length_flatten_of_forall {α : Type} (k : Nat) :
    ∀ l : List (List α), (∀ x ∈ l, x.length = k) → l.flatten.length = l.length * k
  | [], _ => by simp
  | x :: l, h => by
    simp [h x List.mem_cons_self, length_flatten_of_forall k l fun y hy => h y (List.mem_cons_of_mem _ hy),
      Nat.succ_mul, Nat.add_comm]

@[simp] theorem despeckleBytes_length (r : OpRegs) (rd : Nat → Byte) (draws : Nat) :
    (despeckleBytes r rd draws).1.length = r.w * r.h * bppA r := by
  unfold despeckleBytes
  simp only
  rw [length_flatten_of_forall (bppA r)]
  · simp
  · intro px hpx
    exact despeckleScan_forall _ _ _ _ _ (fun px => px.length = bppA r) (fun q _ => inputPixel_length ..) _ le_rfl px
      (List.mem_reverse.mp hpx)

end Sys2Proof.Machine
end

