-- ==== Sys2Proof/Laws/Memory.lean ====
section
/-! SUPPORT. The laws of frame memory: a write is read back, it leaves every other byte alone, and every memory operation keeps
the canonical form. -/

namespace Sys2Proof.Machine

@[simp] theorem Memory.read?_nil (a : Nat) : Memory.read? [] a = none := rfl

theorem Memory.read?_write (m : Memory) (a b : Nat) (v : Byte) :
    (m.write a v).read? b = if b = a then some v else m.read? b := by
  induction m with
  | nil => simp [Memory.write, Memory.read?, eq_comm]
  | cons x rest ih =>
    obtain ⟨x, u⟩ := x
    by_cases hb : b = a
    · subst hb
      rcases Nat.lt_trichotomy b x with h | h | h
      · simp [Memory.write, Memory.read?, h]
      · simp [Memory.write, Memory.read?, h]
      · simp [Memory.write, Memory.read?, ih, show ¬ b < x by omega, show ¬ b = x by omega, show ¬ x = b by omega]
    · have hba : ¬ a = b := fun h => hb h.symm
      rcases Nat.lt_trichotomy a x with h | h | h
      · simp [Memory.write, Memory.read?, h, hb, hba]
      · subst h; simp [Memory.write, Memory.read?, hb, hba]
      · simp [Memory.write, Memory.read?, ih, hb, show ¬ a < x by omega, show ¬ a = x by omega]

/-- A read of one byte after a write of one byte. -/
theorem Memory.read_write (m : Memory) (a b : Nat) (v : Byte) : (m.write a v).read b = if b = a then v else m.read b := by
  by_cases h : b = a <;> simp [Memory.read, Memory.read?_write, h]

@[simp] theorem Memory.read_write_same (m : Memory) (a : Nat) (v : Byte) : (m.write a v).read a = v := by
  simp [Memory.read_write]

theorem Memory.read_write_ne (m : Memory) {a b : Nat} (v : Byte) (h : b ≠ a) : (m.write a v).read b = m.read b := by
  simp [Memory.read_write, h]

@[simp] theorem Memory.writeBytes_nil (m : Memory) (a : Nat) : m.writeBytes a [] = m := rfl

@[simp] theorem Memory.writeBytes_cons (m : Memory) (a : Nat) (v : Byte) (l : List Byte) :
    m.writeBytes a (v :: l) = (m.write a v).writeBytes (a + 1) l := rfl

/-- A run of bytes leaves every byte outside it alone. -/
theorem Memory.read_writeBytes_outside (l : List Byte) :
    ∀ (m : Memory) (a b : Nat), b < a ∨ a + l.length ≤ b → (m.writeBytes a l).read b = m.read b := by
  induction l with
  | nil => intro m a b _; rfl
  | cons v l ih =>
    intro m a b h
    simp only [List.length_cons] at h
    rw [Memory.writeBytes_cons, ih _ _ _ (by omega), Memory.read_write_ne _ _ (by omega)]

/-- A run of bytes is read back, byte k at the k-th address. -/
theorem Memory.read_writeBytes_inside (l : List Byte) :
    ∀ (m : Memory) (a k : Nat) (h : k < l.length), (m.writeBytes a l).read (a + k) = l[k] := by
  induction l with
  | nil => intro m a k h; simp at h
  | cons v l ih =>
    intro m a k h
    rw [Memory.writeBytes_cons]
    cases k with
    | zero => rw [Nat.add_zero, Memory.read_writeBytes_outside _ _ _ _ (by omega)]; simp
    | succ k =>
      have := ih (m.write a v) (a + 1) k (by simpa using h)
      simpa [show a + 1 + k = a + (k + 1) by omega] using this

theorem Memory.mem_write {m : Memory} {a : Nat} {v : Byte} {x : Nat × Byte} (h : x ∈ m.write a v) :
    x = (a, v) ∨ x ∈ m := by
  induction m with
  | nil => simpa [Memory.write] using h
  | cons y rest ih =>
    obtain ⟨y, u⟩ := y
    unfold Memory.write at h
    split at h
    · simpa using h
    · split at h
      · rcases List.mem_cons.mp h with h | h
        · exact .inl h
        · exact .inr (List.mem_cons_of_mem _ h)
      · rcases List.mem_cons.mp h with h | h
        · exact .inr (by simp [h])
        · rcases ih h with h | h
          · exact .inl h
          · exact .inr (List.mem_cons_of_mem _ h)

/-- A write keeps the canonical form. -/
theorem Memory.write_wf {m : Memory} (h : m.wf) (a : Nat) (v : Byte) : (m.write a v).wf := by
  induction m with
  | nil => simp [Memory.write, Memory.wf]
  | cons y rest ih =>
    obtain ⟨y, u⟩ := y
    obtain ⟨hy, hr⟩ := List.pairwise_cons.mp h
    unfold Memory.write
    split
    · next hlt =>
      refine List.pairwise_cons.mpr ⟨fun x hx => ?_, h⟩
      rcases List.mem_cons.mp hx with rfl | hx
      · exact hlt
      · exact lt_trans hlt (hy x hx)
    · split
      · next _ heq => subst heq; exact List.pairwise_cons.mpr ⟨hy, hr⟩
      · next h1 h2 =>
        refine List.pairwise_cons.mpr ⟨fun x hx => ?_, ih hr⟩
        rcases Memory.mem_write hx with rfl | hx
        · show y < a
          omega
        · exact hy x hx

/-- A write below MEM_SIZE keeps every listed address below MEM_SIZE. -/
theorem Memory.write_within {m : Memory} {n : Nat} (h : m.within n) {a : Nat} (ha : a < n) (v : Byte) :
    (m.write a v).within n := by
  intro x hx
  rcases Memory.mem_write hx with rfl | hx
  · exact ha
  · exact h x hx

/-- A run of bytes keeps the canonical form. -/
theorem Memory.writeBytes_wf (l : List Byte) : ∀ {m : Memory}, m.wf → ∀ a, (m.writeBytes a l).wf := by
  induction l with
  | nil => intro m h _; exact h
  | cons v l ih => intro m h a; exact ih (Memory.write_wf h a v) (a + 1)

/-- A run of bytes that fits keeps every listed address below MEM_SIZE. -/
theorem Memory.writeBytes_within (l : List Byte) :
    ∀ {m : Memory} {n : Nat}, m.within n → ∀ a, (l = [] ∨ a + l.length ≤ n) → (m.writeBytes a l).within n := by
  induction l with
  | nil => intro m n h _ _; exact h
  | cons v l ih =>
    intro m n h a hfit
    have hfit : a + (l.length + 1) ≤ n := by simpa using hfit
    refine ih (Memory.write_within h (by omega) v) (a + 1) ?_
    cases l with
    | nil => exact .inl rfl
    | cons => exact .inr (by simp at hfit ⊢; omega)

/-- A canonical memory has at most one entry for an address. -/
theorem Memory.read?_of_mem {m : Memory} (h : m.wf) {a : Nat} {v : Byte} (hx : (a, v) ∈ m) : m.read? a = some v := by
  induction m with
  | nil => simp at hx
  | cons y rest ih =>
    obtain ⟨y, u⟩ := y
    obtain ⟨hy, hr⟩ := List.pairwise_cons.mp h
    rcases List.mem_cons.mp hx with heq | hx
    · cases heq; simp [Memory.read?]
    · have : y < a := hy _ hx
      simp [Memory.read?, show ¬ y = a by omega, ih hr hx]

/-- Below the first listed address nothing is written. -/
theorem Memory.read?_below {m : Memory} {a : Nat} (h : ∀ x ∈ m, a < x.1) : m.read? a = none := by
  induction m with
  | nil => rfl
  | cons y rest ih =>
    obtain ⟨y, u⟩ := y
    have : a < y := h _ List.mem_cons_self
    simp [Memory.read?, show ¬ y = a by omega, ih fun x hx => h x (List.mem_cons_of_mem _ hx)]

/-- Equal memories are equal data. -/
theorem Memory.ext_of_wf : ∀ {m m' : Memory}, m.wf → m'.wf → (∀ a, m.read? a = m'.read? a) → m = m'
  | [], [], _, _, _ => rfl
  | [], (y, u) :: _, _, _, h => by simpa [Memory.read?] using h y
  | (y, u) :: _, [], _, _, h => by simpa [Memory.read?] using h y
  | (x, u) :: m, (y, v) :: m', hm, hm', h => by
    obtain ⟨hx, ht⟩ := List.pairwise_cons.mp hm
    obtain ⟨hy, ht'⟩ := List.pairwise_cons.mp hm'
    have hxy : x = y := by
      rcases Nat.lt_trichotomy x y with hlt | heq | hlt
      · have := h x
        rw [Memory.read?_below (m := (y, v) :: m') (by
          intro z hz
          rcases List.mem_cons.mp hz with rfl | hz
          · exact hlt
          · exact lt_trans hlt (hy z hz))] at this
        simp [Memory.read?] at this
      · exact heq
      · have := h y
        rw [Memory.read?_below (m := (x, u) :: m) (by
          intro z hz
          rcases List.mem_cons.mp hz with rfl | hz
          · exact hlt
          · exact lt_trans hlt (hx z hz))] at this
        simp [Memory.read?] at this
    subst hxy
    have huv : u = v := by simpa [Memory.read?] using h x
    subst huv
    have := Memory.ext_of_wf ht ht' fun a => by
      by_cases ha : x = a
      · subst ha; rw [Memory.read?_below hx, Memory.read?_below hy]
      · simpa [Memory.read?, ha] using h a
    rw [this]

end Sys2Proof.Machine
end

