-- ==== Sys2Proof/Laws/State.lean ====
section
/-! SUPPORT. One lemma per field per named update of the state, so that no later proof unfolds a record update. -/

namespace Sys2Proof.Machine

@[simp] theorem State.takeError_platform (s : State) (code : ErrCode) : (s.takeError code).platform = s.platform := rfl
@[simp] theorem State.takeError_block (s : State) (code : ErrCode) : (s.takeError code).block = s.block.completeError code := rfl
@[simp] theorem State.takeError_others (s : State) (code : ErrCode) : (s.takeError code).others = s.others := rfl
@[simp] theorem State.takeError_mem (s : State) (code : ErrCode) : (s.takeError code).mem = s.mem := rfl
@[simp] theorem State.takeError_inbox (s : State) (code : ErrCode) : (s.takeError code).inbox = s.inbox := rfl
@[simp] theorem State.takeError_replies (s : State) (code : ErrCode) : (s.takeError code).replies = s.replies := rfl
@[simp] theorem State.takeError_draws (s : State) (code : ErrCode) : (s.takeError code).draws = s.draws := rfl

@[simp] theorem State.finish_platform (s : State) (r : OpRegs) (out : List Byte × Nat) : (s.finish r out).platform = s.platform := rfl
@[simp] theorem State.finish_block (s : State) (r : OpRegs) (out : List Byte × Nat) : (s.finish r out).block = s.block.completeOk := rfl
@[simp] theorem State.finish_others (s : State) (r : OpRegs) (out : List Byte × Nat) : (s.finish r out).others = s.others := rfl
@[simp] theorem State.finish_mem (s : State) (r : OpRegs) (out : List Byte × Nat) : (s.finish r out).mem = s.mem.writeBytes r.dBase.toNat out.1 := rfl
@[simp] theorem State.finish_inbox (s : State) (r : OpRegs) (out : List Byte × Nat) : (s.finish r out).inbox = s.inbox := rfl
@[simp] theorem State.finish_replies (s : State) (r : OpRegs) (out : List Byte × Nat) : (s.finish r out).replies = s.replies := rfl
@[simp] theorem State.finish_draws (s : State) (r : OpRegs) (out : List Byte × Nat) : (s.finish r out).draws = out.2 := rfl

@[simp] theorem State.answer_platform (s : State) (r : Reply) : (s.answer r).platform = s.platform := rfl
@[simp] theorem State.answer_block (s : State) (r : Reply) : (s.answer r).block = s.block := rfl
@[simp] theorem State.answer_others (s : State) (r : Reply) : (s.answer r).others = s.others := rfl
@[simp] theorem State.answer_mem (s : State) (r : Reply) : (s.answer r).mem = s.mem := rfl
@[simp] theorem State.answer_inbox (s : State) (r : Reply) : (s.answer r).inbox = s.inbox := rfl
@[simp] theorem State.answer_replies (s : State) (r : Reply) : (s.answer r).replies = r :: s.replies := rfl
@[simp] theorem State.answer_draws (s : State) (r : Reply) : (s.answer r).draws = s.draws := rfl

@[simp] theorem State.releaseReset_platform (s : State) : (s.releaseReset).platform = s.platform := rfl
@[simp] theorem State.releaseReset_block (s : State) : (s.releaseReset).block = { s.block with inReset := false } := rfl
@[simp] theorem State.releaseReset_others (s : State) : (s.releaseReset).others = s.others := rfl
@[simp] theorem State.releaseReset_mem (s : State) : (s.releaseReset).mem = s.mem := rfl
@[simp] theorem State.releaseReset_inbox (s : State) : (s.releaseReset).inbox = s.inbox := rfl
@[simp] theorem State.releaseReset_replies (s : State) : (s.releaseReset).replies = s.replies := rfl
@[simp] theorem State.releaseReset_draws (s : State) : (s.releaseReset).draws = s.draws := rfl

@[simp] theorem State.withFetchWord_platform (s : State) (nbits w : Nat) : (s.withFetchWord nbits w).platform = s.platform := rfl
@[simp] theorem State.withFetchWord_block (s : State) (nbits w : Nat) : (s.withFetchWord nbits w).block = { s.block.accept (BitVec.ofNat 32 (w % 2 ^ nbits)) with inReset := false } := rfl
@[simp] theorem State.withFetchWord_others (s : State) (nbits w : Nat) : (s.withFetchWord nbits w).others = s.others := rfl
@[simp] theorem State.withFetchWord_mem (s : State) (nbits w : Nat) : (s.withFetchWord nbits w).mem = s.mem := rfl
@[simp] theorem State.withFetchWord_inbox (s : State) (nbits w : Nat) : (s.withFetchWord nbits w).inbox = if s.inbox.isEmpty then [] else .block 0 :: s.inbox := rfl
@[simp] theorem State.withFetchWord_replies (s : State) (nbits w : Nat) : (s.withFetchWord nbits w).replies = s.replies := rfl
@[simp] theorem State.withFetchWord_draws (s : State) (nbits w : Nat) : (s.withFetchWord nbits w).draws = s.draws := rfl

@[simp] theorem State.doneWith_platform (s : State) (m : Memory) (n : Nat) : (s.doneWith m n).platform = s.platform := rfl
@[simp] theorem State.doneWith_block (s : State) (m : Memory) (n : Nat) : (s.doneWith m n).block = { s.block with done := true, pending := none } := rfl
@[simp] theorem State.doneWith_others (s : State) (m : Memory) (n : Nat) : (s.doneWith m n).others = s.others := rfl
@[simp] theorem State.doneWith_mem (s : State) (m : Memory) (n : Nat) : (s.doneWith m n).mem = m := rfl
@[simp] theorem State.doneWith_inbox (s : State) (m : Memory) (n : Nat) : (s.doneWith m n).inbox = s.inbox := rfl
@[simp] theorem State.doneWith_replies (s : State) (m : Memory) (n : Nat) : (s.doneWith m n).replies = s.replies := rfl
@[simp] theorem State.doneWith_draws (s : State) (m : Memory) (n : Nat) : (s.doneWith m n).draws = s.draws + n := rfl

@[simp] theorem State.failedWith_platform (s : State) (code : ErrCode) : (s.failedWith code).platform = s.platform := rfl
@[simp] theorem State.failedWith_block (s : State) (code : ErrCode) : (s.failedWith code).block = { s.block with err := true, errCode := code, pending := none } := rfl
@[simp] theorem State.failedWith_others (s : State) (code : ErrCode) : (s.failedWith code).others = s.others := rfl
@[simp] theorem State.failedWith_mem (s : State) (code : ErrCode) : (s.failedWith code).mem = s.mem := rfl
@[simp] theorem State.failedWith_inbox (s : State) (code : ErrCode) : (s.failedWith code).inbox = s.inbox := rfl
@[simp] theorem State.failedWith_replies (s : State) (code : ErrCode) : (s.failedWith code).replies = s.replies := rfl
@[simp] theorem State.failedWith_draws (s : State) (code : ErrCode) : (s.failedWith code).draws = s.draws := rfl

@[simp] theorem Block.accept_irqEn (b : Block) (w : Word) : (b.accept w).irqEn = b.irqEn := rfl
@[simp] theorem Block.accept_done (b : Block) (w : Word) : (b.accept w).done = false := rfl
@[simp] theorem Block.accept_err (b : Block) (w : Word) : (b.accept w).err = false := rfl
@[simp] theorem Block.accept_cmdLost (b : Block) (w : Word) : (b.accept w).cmdLost = b.cmdLost := rfl
@[simp] theorem Block.accept_errCode (b : Block) (w : Word) : (b.accept w).errCode = .ok := rfl
@[simp] theorem Block.accept_regs (b : Block) (w : Word) : (b.accept w).regs = b.regs := rfl
@[simp] theorem Block.accept_pending (b : Block) (w : Word) : (b.accept w).pending = some ⟨w, b.regs⟩ := rfl
@[simp] theorem Block.accept_inReset (b : Block) (w : Word) : (b.accept w).inReset = b.inReset := rfl
@[simp] theorem Block.accept_unsettled (b : Block) (w : Word) : (b.accept w).unsettled = (Snapshot.mk w b.regs).output.toList ++ b.unsettled := rfl

@[simp] theorem Block.completeOk_irqEn (b : Block) : (b.completeOk).irqEn = b.irqEn := rfl
@[simp] theorem Block.completeOk_done (b : Block) : (b.completeOk).done = true := rfl
@[simp] theorem Block.completeOk_err (b : Block) : (b.completeOk).err = b.err := rfl
@[simp] theorem Block.completeOk_cmdLost (b : Block) : (b.completeOk).cmdLost = b.cmdLost := rfl
@[simp] theorem Block.completeOk_errCode (b : Block) : (b.completeOk).errCode = b.errCode := rfl
@[simp] theorem Block.completeOk_regs (b : Block) : (b.completeOk).regs = b.regs := rfl
@[simp] theorem Block.completeOk_pending (b : Block) : (b.completeOk).pending = none := rfl
@[simp] theorem Block.completeOk_inReset (b : Block) : (b.completeOk).inReset = b.inReset := rfl
@[simp] theorem Block.completeOk_unsettled (b : Block) : (b.completeOk).unsettled = b.unsettled := rfl

@[simp] theorem Block.completeError_irqEn (b : Block) (code : ErrCode) : (b.completeError code).irqEn = b.irqEn := rfl
@[simp] theorem Block.completeError_done (b : Block) (code : ErrCode) : (b.completeError code).done = b.done := rfl
@[simp] theorem Block.completeError_err (b : Block) (code : ErrCode) : (b.completeError code).err = true := rfl
@[simp] theorem Block.completeError_cmdLost (b : Block) (code : ErrCode) : (b.completeError code).cmdLost = b.cmdLost := rfl
@[simp] theorem Block.completeError_errCode (b : Block) (code : ErrCode) : (b.completeError code).errCode = code := rfl
@[simp] theorem Block.completeError_regs (b : Block) (code : ErrCode) : (b.completeError code).regs = b.regs := rfl
@[simp] theorem Block.completeError_pending (b : Block) (code : ErrCode) : (b.completeError code).pending = none := rfl
@[simp] theorem Block.completeError_inReset (b : Block) (code : ErrCode) : (b.completeError code).inReset = b.inReset := rfl
@[simp] theorem Block.completeError_unsettled (b : Block) (code : ErrCode) : (b.completeError code).unsettled = b.unsettled := rfl

@[simp] theorem Block.clearStatus_irqEn (b : Block) (v : Word) : (b.clearStatus v).irqEn = b.irqEn := rfl
@[simp] theorem Block.clearStatus_done (b : Block) (v : Word) : (b.clearStatus v).done = (b.done && !v.getLsbD 1) := rfl
@[simp] theorem Block.clearStatus_err (b : Block) (v : Word) : (b.clearStatus v).err = (b.err && !v.getLsbD 2) := rfl
@[simp] theorem Block.clearStatus_cmdLost (b : Block) (v : Word) : (b.clearStatus v).cmdLost = (b.cmdLost && !v.getLsbD 3) := rfl
@[simp] theorem Block.clearStatus_errCode (b : Block) (v : Word) : (b.clearStatus v).errCode = b.errCode := rfl
@[simp] theorem Block.clearStatus_regs (b : Block) (v : Word) : (b.clearStatus v).regs = b.regs := rfl
@[simp] theorem Block.clearStatus_pending (b : Block) (v : Word) : (b.clearStatus v).pending = b.pending := rfl
@[simp] theorem Block.clearStatus_inReset (b : Block) (v : Word) : (b.clearStatus v).inReset = b.inReset := rfl
@[simp] theorem Block.clearStatus_unsettled (b : Block) (v : Word) : (b.clearStatus v).unsettled = b.unsettled := rfl

@[simp] theorem Block.writeCtrl_irqEn (b : Block) (v : Word) : (b.writeCtrl v).irqEn = v.getLsbD 0 := rfl
@[simp] theorem Block.writeCtrl_done (b : Block) (v : Word) : (b.writeCtrl v).done = b.done := rfl
@[simp] theorem Block.writeCtrl_err (b : Block) (v : Word) : (b.writeCtrl v).err = b.err := rfl
@[simp] theorem Block.writeCtrl_cmdLost (b : Block) (v : Word) : (b.writeCtrl v).cmdLost = b.cmdLost := rfl
@[simp] theorem Block.writeCtrl_errCode (b : Block) (v : Word) : (b.writeCtrl v).errCode = b.errCode := rfl
@[simp] theorem Block.writeCtrl_regs (b : Block) (v : Word) : (b.writeCtrl v).regs = b.regs := rfl
@[simp] theorem Block.writeCtrl_pending (b : Block) (v : Word) : (b.writeCtrl v).pending = b.pending := rfl
@[simp] theorem Block.writeCtrl_inReset (b : Block) (v : Word) : (b.writeCtrl v).inReset = b.inReset := rfl
@[simp] theorem Block.writeCtrl_unsettled (b : Block) (v : Word) : (b.writeCtrl v).unsettled = b.unsettled := rfl

@[simp] theorem Block.observe_irqEn (b : Block) : (b.observe).irqEn = b.irqEn := rfl
@[simp] theorem Block.observe_done (b : Block) : (b.observe).done = b.done := rfl
@[simp] theorem Block.observe_err (b : Block) : (b.observe).err = b.err := rfl
@[simp] theorem Block.observe_cmdLost (b : Block) : (b.observe).cmdLost = b.cmdLost := rfl
@[simp] theorem Block.observe_errCode (b : Block) : (b.observe).errCode = b.errCode := rfl
@[simp] theorem Block.observe_regs (b : Block) : (b.observe).regs = b.regs := rfl
@[simp] theorem Block.observe_pending (b : Block) : (b.observe).pending = b.pending := rfl
@[simp] theorem Block.observe_inReset (b : Block) : (b.observe).inReset = b.inReset := rfl
@[simp] theorem Block.observe_unsettled (b : Block) : (b.observe).unsettled = [] := rfl

theorem State.finish_eq_doneWith (s : State) (r : OpRegs) (l : List Byte) (n : Nat) :
    s.finish r (l, s.draws + n) = s.doneWith (s.mem.writeBytes r.dBase.toNat l) n := rfl

theorem State.takeError_eq_failedWith (s : State) (code : ErrCode) : s.takeError code = s.failedWith code := rfl

@[simp] theorem State.blocks_eq (s : State) : s.blocks = s.block :: s.others := rfl

end Sys2Proof.Machine
end

