-- ==== Sys2Proof/Laws/Ops.lean ====
section
/-! SUPPORT. What each shared operation can do, said once: validation, the step every command shares, instances, reset, and the
host's operations. -/

namespace Sys2Proof.Machine

/-! ### Decoding -/

@[simp] theorem decode_encode (i : Instr) : decode (encode i) = .ok i := by cases i <;> decide

/-! ### Validation -/

/-- Validation passes exactly when no check fails (R113). -/
theorem validate_ok_iff (i : Instr) (r : OpRegs) (n : Nat) :
    validate i r n = .ok ↔ badConfig i r = false ∧ badFormat i r = false ∧ badDimensions i r = false ∧
      badBounds i r n = false ∧ badOverlap i r = false := by
  unfold validate
  cases badConfig i r <;> cases badFormat i r <;> cases badDimensions i r <;> cases badBounds i r n <;>
    cases badOverlap i r <;> simp

/-- Validation never answers ILLEGAL_COMMAND: that is the decoder's (R113 check 1). -/
theorem validate_ne_illegal (i : Instr) (r : OpRegs) (n : Nat) : validate i r n ≠ .illegalCommand := by
  unfold validate
  cases badConfig i r <;> cases badFormat i r <;> cases badDimensions i r <;> cases badBounds i r n <;>
    cases badOverlap i r <;> simp

theorem endsBeyond_eq_false {n : Nat} {e : Extent} : endsBeyond n e = false ↔ Fits n e.base e.len := by
  unfold endsBeyond Fits
  rw [Bool.and_eq_false_iff, decide_eq_false_iff_not, decide_eq_false_iff_not]
  omega

theorem overlaps_eq_false {e f : Extent} : overlaps e f = false ↔ Apart e.base e.len f.base f.len := by
  unfold overlaps Apart
  simp only [Bool.and_eq_false_iff, decide_eq_false_iff_not]
  omega

theorem overlaps_comm (e f : Extent) : overlaps e f = overlaps f e := by
  unfold overlaps
  rw [Bool.eq_iff_iff]
  simp only [Bool.and_eq_true, decide_eq_true_eq]
  omega

@[simp] theorem Extent.covers_iff {e : Extent} {a : Nat} : e.covers a = true ↔ e.base ≤ a ∧ a < e.base + e.len := by
  simp [Extent.covers]

/-- Format codes name one format each (R95). -/
@[simp] theorem Format.ofCode_code (f : Format) : Format.ofCode f.code = some f := by cases f <;> decide

@[simp] theorem Format.ofCode_1 : Format.ofCode 1#32 = some .gray8 := by decide
@[simp] theorem Format.ofCode_2 : Format.ofCode 2#32 = some .rgb24 := by decide
@[simp] theorem Format.ofCode_3 : Format.ofCode 3#32 = some .yuv444 := by decide
@[simp] theorem Format.ofCode_4 : Format.ofCode 4#32 = some .hsv24 := by decide
@[simp] theorem Format.ofCode_5 : Format.ofCode 5#32 = some .argb32 := by decide
@[simp] theorem Format.ofCode_6 : Format.ofCode 6#32 = some .ayuv32 := by decide
@[simp] theorem Format.ofCode_7 : Format.ofCode 7#32 = some .i420 := by decide

theorem Format.ofCode_eq_some {w : Word} {f : Format} : Format.ofCode w = some f ↔ w = f.code := by
  constructor
  · intro h
    have := List.find?_some h
    exact (beq_iff_eq.mp this).symm
  · rintro rfl; exact Format.ofCode_code f

/-- The formats a command accepts are those whose codes R96 lists. -/
theorem acceptsA_iff_mem (i : Instr) (r : OpRegs) :
    (formatA r).any (acceptsA i) = true ↔ r.aFmt ∈ acceptedCodes i := by
  constructor
  · intro h
    cases hf : formatA r with
    | none => simp [hf] at h
    | some f =>
      rw [hf] at h
      rw [Format.ofCode_eq_some.mp hf]
      revert h
      cases i <;> cases f <;> simp [acceptsA, acceptedCodes, Format.code, Format.packed, Format.bpp]
  · intro h
    have hmem : (acceptedCodes i).all (fun w => (Format.ofCode w).any (acceptsA i)) = true := by cases i <;> decide
    exact List.all_eq_true.mp hmem _ h

/-- A command that passes the format check has an output extent (R96). -/
theorem lenD_isSome {i : Instr} {r : OpRegs} (h : badFormat i r = false) : ∃ n, lenD i r = some n := by
  unfold badFormat at h
  rw [Bool.or_eq_false_iff, Bool.not_eq_false'] at h
  obtain ⟨h, -⟩ := h
  cases hf : formatA r with
  | none => simp [hf] at h
  | some f => cases i <;> cases f <;> simp_all [lenD, acceptsA, Format.packed, Format.bpp]

/-- bpp(A_FMT) of a despeckle, blend or subtract that passes the format check (R95, R96). -/
theorem lenD_bppA {i : Instr} {r : OpRegs} {n : Nat} (hi : i = .blend ∨ i = .subtract ∨ i = .despeckle)
    (h : lenD i r = some n) : n = r.w * r.h * bppA r := by
  unfold bppA
  cases hf : (formatA r).bind Format.bpp with
  | none => rcases hi with rfl | rfl | rfl <;> simp [lenD, hf] at h
  | some bpp => rcases hi with rfl | rfl | rfl <;> simp_all [lenD]

/-! ### The step every command shares -/

theorem runCommand_idle {i : Instr} {k : Kernel} {s : State} (h : s.block.pending = none) :
    runCommand i k s = .fault .noPendingCommand := by simp [runCommand, h]

/-- A command that passes validation completes (R118). -/
theorem runCommand_ok {i : Instr} {k : Kernel} {s : State} {c : Snapshot} (h : s.block.pending = some c)
    (hv : validate i c.regs s.platform.memSize = .ok) :
    runCommand i k s = .next (s.finish c.regs (k c.regs s.mem.read s.draws)) := by simp [runCommand, h, hv]

/-- A command that fails validation ends with the code (R116, R118). -/
theorem runCommand_error {i : Instr} {k : Kernel} {s : State} {c : Snapshot} (h : s.block.pending = some c)
    (hv : validate i c.regs s.platform.memSize ≠ .ok) :
    runCommand i k s = .next (s.takeError (validate i c.regs s.platform.memSize)) := by
  cases hcode : validate i c.regs s.platform.memSize <;> simp_all [runCommand]

/-- What each command computes. -/
def kernelOf (pl : Platform) : Instr → Kernel
  | .compose => fun r rd n => (composeBytes r rd, n)
  | .blend => fun r rd n => (blendBytes r rd, n)
  | .subtract => fun r rd n => (subtractBytes r rd, n)
  | .rgb2hsv => fun r rd n => (rgb2hsvBytes r rd, n)
  | .hsv2rgb => fun r rd n => (hsv2rgbBytes r rd, n)
  | .autostretch => fun r rd n => (autostretchBytes r rd, n)
  | .colorenhance => fun r rd n => (colorenhanceBytes r rd, n)
  | .despeckle => despeckleBytes
  | .sobel => fun r rd n => (sobelBytes pl r rd, n)

/-- Every meaning is the shared step over what its command computes. -/
theorem exec_eq (i : Instr) (s : State) : exec i s = runCommand i (kernelOf s.platform i) s := by cases i <;> rfl

/-- What a command computes fills its D extent exactly (R61). -/
theorem kernelOf_length {i : Instr} {r : OpRegs} {n : Nat} (h : lenD i r = some n) (pl : Platform) (rd : Nat → Byte)
    (draws : Nat) : (kernelOf pl i r rd draws).1.length = n := by
  cases i
  case blend => rw [lenD_bppA (by simp) h]; simp [kernelOf]
  case subtract => rw [lenD_bppA (by simp) h]; simp [kernelOf]
  case despeckle => rw [lenD_bppA (by simp) h]; simp [kernelOf]
  all_goals simp_all [lenD, kernelOf]

/-- All that exec can do: nothing pending, an error entry, or a completed command that has filled its D extent. -/
theorem exec_cases (i : Instr) (s : State) :
    (s.block.pending = none ∧ exec i s = .fault .noPendingCommand) ∨
    (∃ c, s.block.pending = some c ∧ validate i c.regs s.platform.memSize ≠ .ok ∧
      exec i s = .next (s.failedWith (validate i c.regs s.platform.memSize))) ∨
    (∃ c n, s.block.pending = some c ∧ validate i c.regs s.platform.memSize = .ok ∧ lenD i c.regs = some n ∧
      (kernelOf s.platform i c.regs s.mem.read s.draws).1.length = n ∧
      exec i s = .next (s.finish c.regs (kernelOf s.platform i c.regs s.mem.read s.draws))) := by
  rw [exec_eq]
  cases hp : s.block.pending with
  | none => exact .inl ⟨rfl, runCommand_idle hp⟩
  | some c =>
    by_cases hv : validate i c.regs s.platform.memSize = .ok
    · obtain ⟨n, hn⟩ := lenD_isSome ((validate_ok_iff ..).mp hv).2.1
      exact .inr (.inr ⟨c, n, rfl, hv, hn, kernelOf_length hn .., runCommand_ok hp hv⟩)
    · exact .inr (.inl ⟨c, rfl, hv, runCommand_error hp hv⟩)

/-- A turn of the block: idle, an illegal word, or the decoded command (R113, R118). -/
theorem blockTurn_cases (s : State) :
    (s.block.pending = none ∧ blockTurn s = .next s) ∨
    (∃ c e, s.block.pending = some c ∧ decode c.word = .error e ∧
      blockTurn s = .next (s.failedWith .illegalCommand)) ∨
    (∃ c i, s.block.pending = some c ∧ decode c.word = .ok i ∧ blockTurn s = exec i s) := by
  unfold blockTurn
  cases hp : s.block.pending with
  | none => simp
  | some c =>
    cases hd : decode c.word with
    | error e => exact .inr (.inl ⟨c, e, rfl, hd, by simp [hd, State.takeError_eq_failedWith]⟩)
    | ok i => exact .inr (.inr ⟨c, i, rfl, hd, by simp [hd]⟩)

/-- A turn of the block always answers a next state, and leaves no command pending. -/
theorem blockTurn_next (s : State) : ∃ t, blockTurn s = .next t ∧ t.block.pending = none := by
  rcases blockTurn_cases s with ⟨hp, h⟩ | ⟨c, e, _, _, h⟩ | ⟨c, i, hp, _, h⟩
  · exact ⟨s, h, hp⟩
  · exact ⟨_, h, rfl⟩
  · rw [h]
    rcases exec_cases i s with ⟨hn, _⟩ | ⟨_, _, _, h⟩ | ⟨_, _, _, _, _, _, h⟩
    · simp [hp] at hn
    · exact ⟨_, h, rfl⟩
    · exact ⟨_, h, rfl⟩

/-! ### Instances -/

@[simp] theorem State.focus_zero (s : State) : s.focus 0 = s := rfl

theorem State.focus_succ_some {s : State} {j : Nat} {b : Block} (h : s.others[j]? = some b) :
    s.focus (j + 1) = { s with block := b, others := s.others.set j s.block } := by simp [State.focus, h]

theorem State.focus_succ_none {s : State} {j : Nat} (h : s.others[j]? = none) : s.focus (j + 1) = s := by
  simp [State.focus, h]

@[simp] theorem State.focus_platform (s : State) (k : Nat) : (s.focus k).platform = s.platform := by
  cases k with
  | zero => rfl
  | succ j => unfold State.focus; cases h : s.others[j]? <;> simp [h]

@[simp] theorem State.focus_mem (s : State) (k : Nat) : (s.focus k).mem = s.mem := by
  cases k with
  | zero => rfl
  | succ j => unfold State.focus; cases h : s.others[j]? <;> simp [h]

@[simp] theorem State.focus_inbox (s : State) (k : Nat) : (s.focus k).inbox = s.inbox := by
  cases k with
  | zero => rfl
  | succ j => unfold State.focus; cases h : s.others[j]? <;> simp [h]

@[simp] theorem State.focus_replies (s : State) (k : Nat) : (s.focus k).replies = s.replies := by
  cases k with
  | zero => rfl
  | succ j => unfold State.focus; cases h : s.others[j]? <;> simp [h]

@[simp] theorem State.focus_draws (s : State) (k : Nat) : (s.focus k).draws = s.draws := by
  cases k with
  | zero => rfl
  | succ j => unfold State.focus; cases h : s.others[j]? <;> simp [h]

/-- Which instance is in front does not matter to what is still to come. -/
theorem State.focus_withInbox (s : State) (k : Nat) (l : List Event) :
    ({ s with inbox := l } : State).focus k = { s.focus k with inbox := l } := by
  cases k with
  | zero => rfl
  | succ j => unfold State.focus; cases h : s.others[j]? <;> simp [h]

@[simp] theorem State.focus_others_length (s : State) (k : Nat) : (s.focus k).others.length = s.others.length := by
  cases k with
  | zero => rfl
  | succ j => unfold State.focus; cases h : s.others[j]? <;> simp [h]

/-- Instance k comes to the front, instance 0 to its place, and the others stay (R292). -/
theorem State.focus_blocks (s : State) {k : Nat} (hk : k ≤ s.others.length) (j : Nat) :
    (s.focus k).blocks[j]? = if j = 0 then s.blocks[k]? else if j = k then s.blocks[0]? else s.blocks[j]? := by
  cases k with
  | zero => cases j <;> simp [State.blocks]
  | succ m =>
    have hm : m < s.others.length := by omega
    rw [State.focus_succ_some (List.getElem?_eq_getElem hm)]
    cases j with
    | zero => simp [State.blocks, hm]
    | succ j =>
      by_cases h : m = j
      · subst h; simp [State.blocks, hm]
      · simp [State.blocks, h, Ne.symm h]

/-- Bringing an instance forward twice is nothing. -/
@[simp] theorem State.focus_focus (s : State) (k : Nat) : (s.focus k).focus k = s := by
  cases k with
  | zero => rfl
  | succ j =>
    cases h : s.others[j]? with
    | none => rw [State.focus_succ_none h, State.focus_succ_none h]
    | some b =>
      have hj : j < s.others.length := (List.getElem?_eq_some_iff.mp h).1
      have hb : s.others[j] = b := (List.getElem?_eq_some_iff.mp h).2
      rw [State.focus_succ_some h, State.focus_succ_some (b := s.block) (by simp [hj])]
      simp [← hb]

/-- The instances of a focused state are the same, in another order. -/
theorem State.focus_blocks_perm (s : State) (k : Nat) : (s.focus k).blocks.Perm s.blocks := by
  cases k with
  | zero => exact List.Perm.refl _
  | succ j =>
    cases h : s.others[j]? with
    | none => rw [State.focus_succ_none h]
    | some b =>
      have hj : j < s.others.length := (List.getElem?_eq_some_iff.mp h).1
      have hb : s.others[j] = b := (List.getElem?_eq_some_iff.mp h).2
      have h1 : (s.others.set j s.block).Perm (s.block :: s.others.eraseIdx j) := by
        rw [List.set_eq_take_append_cons_drop, if_pos hj, List.eraseIdx_eq_take_drop_succ]
        exact List.perm_middle
      have h2 : s.others.Perm (b :: s.others.eraseIdx j) := by
        rw [List.eraseIdx_eq_take_drop_succ]
        conv_lhs => rw [← List.take_append_drop j s.others, List.drop_eq_getElem_cons hj, hb]
        exact List.perm_middle
      rw [State.focus_succ_some h]
      show (b :: s.others.set j s.block).Perm (s.block :: s.others)
      exact ((h1.cons b).trans (List.Perm.swap s.block b _)).trans (h2.symm.cons s.block)

@[simp] theorem mapNext_next (f : State → State) (s : State) : mapNext f (.next s) = .next (f s) := rfl
@[simp] theorem mapNext_fault (f : State → State) (r : Fault) : mapNext f (.fault r) = .fault r := rfl
@[simp] theorem mapNext_refused (f : State → State) (r : Refusal) : mapNext f (.refused r) = .refused r := rfl

theorem mapNext_eq_next {f : State → State} {o : Host.Outcome State Fault Refusal} {t : State}
    (h : mapNext f o = .next t) : ∃ u, o = .next u ∧ t = f u := by
  cases o with
  | next u => exact ⟨u, rfl, by simpa using h.symm⟩
  | fault r => simp [mapNext] at h
  | refused r => simp [mapNext] at h

theorem mapNext_eq_fault {f : State → State} {o : Host.Outcome State Fault Refusal} {r : Fault}
    (h : mapNext f o = .fault r) : o = .fault r := by
  cases o <;> simp_all [mapNext]

theorem mapNext_eq_refused {f : State → State} {o : Host.Outcome State Fault Refusal} {r : Refusal}
    (h : mapNext f o = .refused r) : o = .refused r := by
  cases o <;> simp_all [mapNext]

theorem onInstance_zero (f : State → Host.Outcome State Fault Refusal) (s : State) : onInstance 0 f s = f s := by
  show mapNext (fun t => t.focus 0) (f s) = f s
  cases f s <;> rfl

/-! ### The register map -/

/-- Every register stands at its offset (R23). -/
@[simp] theorem Reg.ofOffset_offset (r : Reg) : Reg.ofOffset r.offset = some r := by cases r <;> decide

@[simp] theorem Reg.ofOffset_ctrl : Reg.ofOffset 0#8 = some .ctrl := by decide
@[simp] theorem Reg.ofOffset_status : Reg.ofOffset 4#8 = some .status := by decide
@[simp] theorem Reg.ofOffset_cmd : Reg.ofOffset 8#8 = some .cmd := by decide

@[simp] theorem accessWf_offset (r : Reg) : accessWf 32 r.offset = true := by cases r <;> decide

/-! ### Reset -/

/-- Abandoning an output touches memory and the counter only. -/
theorem State.abandon_eq (s : State) :
    s.abandon = { s with mem := s.abandon.mem, draws := s.abandon.draws } := by
  unfold State.abandon
  cases s.block.pending with
  | none => rfl
  | some c => cases hc : c.output <;> simp [hc]

@[simp] theorem State.assertReset_platform (s : State) : s.assertReset.platform = s.platform := by
  unfold State.assertReset; rw [State.abandon_eq]

@[simp] theorem State.assertReset_others (s : State) : s.assertReset.others = s.others := by
  unfold State.assertReset; rw [State.abandon_eq]

@[simp] theorem State.assertReset_inbox (s : State) : s.assertReset.inbox = s.inbox := by
  unfold State.assertReset; rw [State.abandon_eq]

@[simp] theorem State.assertReset_replies (s : State) : s.assertReset.replies = s.replies := by
  unfold State.assertReset; rw [State.abandon_eq]

@[simp] theorem State.assertReset_block (s : State) :
    s.assertReset.block = { Block.reset with inReset := true, unsettled := s.block.unsettled } := rfl

@[simp] theorem State.assertReset_mem (s : State) : s.assertReset.mem = s.abandon.mem := rfl

/-- A run of abandoned bytes keeps the canonical form. -/
theorem foldl_abandonByte_wf (c : Snapshot) (e : Extent) (draws : Nat) (l : List Nat) :
    ∀ {m : Memory}, m.wf → (l.foldl (abandonByte c e draws) m).wf := by
  induction l with
  | nil => intro m h; exact h
  | cons k l ih =>
    intro m h
    refine ih ?_
    unfold abandonByte
    split
    · exact h
    · exact Memory.write_wf h _ _

theorem foldl_abandonByte_within (c : Snapshot) (e : Extent) (draws size : Nat) (l : List Nat)
    (hl : ∀ k ∈ l, e.base + k < size) :
    ∀ {m : Memory}, m.within size → (l.foldl (abandonByte c e draws) m).within size := by
  induction l with
  | nil => intro m h; exact h
  | cons k l ih =>
    intro m h
    refine ih (fun j hj => hl j (List.mem_cons_of_mem _ hj)) ?_
    unfold abandonByte
    split
    · exact h
    · exact Memory.write_within h (hl k List.mem_cons_self) _

theorem State.abandon_wf {s : State} (h : s.mem.wf) : s.abandon.mem.wf := by
  unfold State.abandon
  split
  · exact h
  · split
    · exact h
    · exact foldl_abandonByte_wf _ _ _ _ h

theorem State.abandon_within {s : State} (h : s.mem.within s.platform.memSize) :
    s.abandon.mem.within s.platform.memSize := by
  unfold State.abandon
  split
  · exact h
  · split
    · exact h
    · next e _ =>
      refine foldl_abandonByte_within _ _ _ _ _ (fun k hk => ?_) h
      have hk := List.mem_range.mp hk
      unfold Extent.clip at hk
      omega

/-- Abandoning an output leaves every byte outside it, and every input byte, alone (R301). -/
theorem State.read_abandon (s : State) (a : Nat)
    (h : ∀ c, s.block.pending = some c → ∀ e, c.output = some e → e.covers a = true →
      (c.inputs.any fun f => f.covers a) = true) : s.abandon.mem.read a = s.mem.read a := by
  unfold State.abandon
  split
  · rfl
  · next c hc =>
    split
    · rfl
    · next e he =>
      have key : ∀ (l : List Nat) (m : Memory), (∀ k ∈ l, k < e.len) →
          (l.foldl (abandonByte c e s.draws) m).read a = m.read a := by
        intro l
        induction l with
        | nil => intro m _; rfl
        | cons k l ih =>
          intro m hl
          rw [List.foldl_cons, ih _ fun j hj => hl j (List.mem_cons_of_mem _ hj)]
          unfold abandonByte
          split
          · rfl
          · next hin =>
            refine Memory.read_write_ne _ _ fun heq => hin ?_
            have hk := hl k List.mem_cons_self
            rw [← heq]
            exact h c hc e he (by rw [Extent.covers_iff]; omega)
      refine key _ _ fun k hk => ?_
      have hk := List.mem_range.mp hk
      unfold Extent.clip at hk
      omega

/-! ### What the host reads -/

@[simp] theorem State.hostBytes_zero (s : State) (a draws : Nat) : s.hostBytes a 0 draws = ([], draws) := rfl

theorem State.hostBytes_length (s : State) (n : Nat) : ∀ a draws, (s.hostBytes a n draws).1.length = n := by
  induction n with
  | zero => intro a draws; rfl
  | succ n ih => intro a draws; unfold State.hostBytes; split <;> simp [ih]

/-- A settled region reads as frame memory holds it, and draws nothing (R72). -/
theorem State.hostBytes_settled (s : State) (n : Nat) :
    ∀ a draws, (∀ k, k < n → s.unsettledAt (a + k) = false) →
      s.hostBytes a n draws = ((List.range n).map fun k => s.mem.read (a + k), draws) := by
  induction n with
  | zero => intro a draws _; rfl
  | succ n ih =>
    intro a draws h
    have h0 : s.unsettledAt a = false := by simpa using h 0 (by omega)
    unfold State.hostBytes
    rw [h0, ih (a + 1) draws fun k hk => by
      have := h (k + 1) (by omega)
      rwa [show a + (k + 1) = a + 1 + k by omega] at this]
    simp [List.range_succ_eq_map, Function.comp_def, Nat.add_assoc, Nat.add_comm 1]

end Sys2Proof.Machine
end

