-- ==== Sys2Proof/Laws/PerInstr.lean ====
section
/-! SUPPORT. Statements made once per command. `CommandWord`: what the word of each command is made of (R90, R91, R97). -/

namespace Sys2Proof.Laws

/-- The word of a command holds its opcode in bits 7:0 and zero in bits 31:8, and the opcode table reads it back. -/
def CommandWord.Statement (i : Instr) : Prop :=
  i.wf = true ∧ opcodeField (encode i) = opcode i ∧ rsvdField (encode i) = 0 ∧ (encode i).toNat = (opcode i).toNat ∧
    decodeTableWord 32 (encode i).toNat = some i

theorem CommandWord.compose : CommandWord.Statement .compose := by unfold CommandWord.Statement; decide
theorem CommandWord.blend : CommandWord.Statement .blend := by unfold CommandWord.Statement; decide
theorem CommandWord.subtract : CommandWord.Statement .subtract := by unfold CommandWord.Statement; decide
theorem CommandWord.rgb2hsv : CommandWord.Statement .rgb2hsv := by unfold CommandWord.Statement; decide
theorem CommandWord.hsv2rgb : CommandWord.Statement .hsv2rgb := by unfold CommandWord.Statement; decide
theorem CommandWord.autostretch : CommandWord.Statement .autostretch := by unfold CommandWord.Statement; decide
theorem CommandWord.colorenhance : CommandWord.Statement .colorenhance := by unfold CommandWord.Statement; decide
theorem CommandWord.despeckle : CommandWord.Statement .despeckle := by unfold CommandWord.Statement; decide
theorem CommandWord.sobel : CommandWord.Statement .sobel := by unfold CommandWord.Statement; decide

end Sys2Proof.Laws
end

