-- ==== Sys2Proof/Laws/Port.lean ====
section
/-! SUPPORT. What each operation of the host, each event and each step can do, said once. -/

namespace Sys2Proof.Machine

/-- A CMD write is dropped, stops on shared extents, or is accepted (R27, R111, R292). -/
theorem State.writeCmd_cases (s : State) (w : Word) :
    (s.block.busy = true ∧ s.writeCmd w = .next { s with block := { s.block with cmdLost := true } }) ∨
    (s.block.busy = false ∧ (∃ b ∈ s.others, ∃ c, b.pending = some c ∧ c.clashes ⟨w, s.block.regs⟩ = true) ∧
      s.writeCmd w = .fault .sharedExtents) ∨
    (s.block.busy = false ∧ (∀ b ∈ s.others, ∀ c, b.pending = some c → c.clashes ⟨w, s.block.regs⟩ = false) ∧
      s.writeCmd w = .next { s with block := s.block.accept w }) := by
  unfold State.writeCmd
  cases hb : s.block.busy
  · cases hc : s.others.any fun b => b.pending.any fun c => c.clashes ⟨w, s.block.regs⟩
    · refine .inr (.inr ⟨rfl, fun b hbm c hbc => ?_, by simp⟩)
      have := (List.any_eq_false.mp hc) b hbm
      simpa [hbc] using this
    · refine .inr (.inl ⟨rfl, ?_, by simp⟩)
      obtain ⟨b, hbm, hbc⟩ := List.any_eq_true.mp hc
      cases hp : b.pending with
      | none => simp [hp] at hbc
      | some c => exact ⟨b, hbm, c, hp, by simpa [hp] using hbc⟩
  · exact .inl ⟨rfl, by simp⟩

/-- A register write is refused, falls on a reserved offset, writes CMD, or writes another register (R28). -/
theorem State.regWrite_cases (s : State) (bits : Nat) (off : BitVec 8) (v : Word) :
    (s.portTakes bits off = false ∧ s.regWrite bits off v = .next (s.answer .refused)) ∨
    (s.portTakes bits off = true ∧ Reg.ofOffset off = none ∧ s.regWrite bits off v = .next s) ∨
    (s.portTakes bits off = true ∧ Reg.ofOffset off = some .cmd ∧ s.regWrite bits off v = s.writeCmd v) ∨
    (s.portTakes bits off = true ∧ ∃ reg, reg ≠ .cmd ∧ Reg.ofOffset off = some reg ∧
      s.regWrite bits off v = .next { s with block := s.block.writeReg v reg }) := by
  unfold State.regWrite
  cases s.portTakes bits off
  · exact .inl ⟨rfl, by simp⟩
  · cases h : Reg.ofOffset off with
    | none => exact .inr (.inl ⟨rfl, rfl, by simp⟩)
    | some reg =>
      by_cases hc : reg = .cmd
      · subst hc; exact .inr (.inr (.inl ⟨rfl, rfl, by simp⟩))
      · refine .inr (.inr (.inr ⟨rfl, reg, hc, rfl, ?_⟩))
        cases reg <;> first | rfl | exact absurd rfl hc

/-- A register read is refused, reads 0 at a reserved offset, or answers the register (R28). -/
theorem State.regRead_cases (s : State) (bits : Nat) (off : BitVec 8) :
    (s.portTakes bits off = false ∧ s.regRead bits off = s.answer .refused) ∨
    (s.portTakes bits off = true ∧ Reg.ofOffset off = none ∧ s.regRead bits off = s.answer (.word 0)) ∨
    (s.portTakes bits off = true ∧ ∃ reg, Reg.ofOffset off = some reg ∧
      s.regRead bits off = { s with block := s.block.afterRead reg }.answer (.word (s.block.readReg reg))) := by
  unfold State.regRead
  cases s.portTakes bits off
  · exact .inl ⟨rfl, by simp⟩
  · cases h : Reg.ofOffset off with
    | none => exact .inr (.inl ⟨rfl, rfl, by simp⟩)
    | some reg => exact .inr (.inr ⟨rfl, reg, rfl, by simp⟩)

/-- A read leaves the block as it is, or settles its outputs while no command is pending (R72). -/
theorem Block.afterRead_cases (b : Block) (reg : Reg) :
    b.afterRead reg = b ∨ (b.busy = false ∧ reg = .status ∧ b.afterRead reg = b.observe) := by
  unfold Block.afterRead
  split
  · next h => exact .inr ⟨h.2, h.1, rfl⟩
  · exact .inl rfl

/-- A host memory write stops, or writes its bytes (R77). -/
theorem State.memWrite_cases (s : State) (a : Word) (bytes : List Byte) :
    (endsBeyond s.platform.memSize ⟨a.toNat, bytes.length⟩ = true ∧
      s.memWrite a bytes = .fault .addressBeyondMemory) ∨
    (endsBeyond s.platform.memSize ⟨a.toNat, bytes.length⟩ = false ∧
      (∃ k, k < bytes.length ∧ s.liveAt (a.toNat + k) = true) ∧ s.memWrite a bytes = .fault .hostWroteLiveExtent) ∨
    (endsBeyond s.platform.memSize ⟨a.toNat, bytes.length⟩ = false ∧
      (∀ k, k < bytes.length → s.liveAt (a.toNat + k) = false) ∧
      s.memWrite a bytes = .next { s with mem := s.mem.writeBytes a.toNat bytes }) := by
  unfold State.memWrite
  cases endsBeyond s.platform.memSize ⟨a.toNat, bytes.length⟩
  · cases hl : (List.range bytes.length).any fun k => s.liveAt (a.toNat + k)
    · refine .inr (.inr ⟨rfl, fun k hk => ?_, by simp⟩)
      simpa using (List.any_eq_false.mp hl) k (List.mem_range.mpr hk)
    · refine .inr (.inl ⟨rfl, ?_, by simp⟩)
      obtain ⟨k, hk, hkl⟩ := List.any_eq_true.mp hl
      exact ⟨k, List.mem_range.mp hk, hkl⟩
  · exact .inl ⟨rfl, by simp⟩

/-- A host memory read stops, or answers and draws (R77). -/
theorem State.memRead_cases (s : State) (a : Word) (n : Nat) :
    (endsBeyond s.platform.memSize ⟨a.toNat, n⟩ = true ∧ s.memRead a n = .fault .addressBeyondMemory) ∨
    (endsBeyond s.platform.memSize ⟨a.toNat, n⟩ = false ∧
      s.memRead a n = .next ({ s with draws := (s.hostBytes a.toNat n s.draws).2 }.answer
        (.bytes (s.hostBytes a.toNat n s.draws).1))) := by
  unfold State.memRead
  cases endsBeyond s.platform.memSize ⟨a.toNat, n⟩
  · exact .inr ⟨rfl, by simp⟩
  · exact .inl ⟨rfl, by simp⟩

/-- A poll is a read of STATUS, and changes nothing more than the inbox. -/
theorem State.waitTurn_cases (s : State) (k : Nat) :
    s.waitTurn k = s.regRead 32 Reg.status.offset ∨
      (s.block.busy = true ∧
        s.waitTurn k = { s.regRead 32 Reg.status.offset with inbox := .block k :: .wait k :: s.inbox }) := by
  unfold State.waitTurn
  split
  · next h => exact .inr ⟨(Bool.and_eq_true_iff.mp h).1, rfl⟩
  · exact .inl rfl

/-! ### Steps -/

/-- A step takes the next event. -/
theorem step_of_inbox {s : State} {e : Event} {rest : List Event} (h : s.inbox = e :: rest) :
    step s = perform e { s with inbox := rest } := by
  unfold step turn
  rw [h]

/-- A register write to instance 0. -/
theorem step_regWrite {s : State} {bits : Nat} {off : BitVec 8} {v : Word} {rest : List Event}
    (h : s.inbox = .regWrite 0 bits off v :: rest) :
    step s = ({ s with inbox := rest } : State).regWrite bits off v := by
  rw [step_of_inbox h]
  simp [perform, State.hasInstance, onInstance_zero]

/-- A register read of instance 0. -/
theorem step_regRead {s : State} {bits : Nat} {off : BitVec 8} {rest : List Event}
    (h : s.inbox = .regRead 0 bits off :: rest) :
    step s = .next (({ s with inbox := rest } : State).regRead bits off) := by
  rw [step_of_inbox h]
  simp [perform, State.hasInstance, onInstance_zero]

/-- With nothing to come, a pending command of instance 0 has its turn. -/
theorem step_of_pending {s : State} {c : Snapshot} (hi : s.inbox = []) (hp : s.block.pending = some c) :
    step s = blockTurn s := by
  have hpi : s.pendingInstance = some 0 := by simp [State.pendingInstance, List.findIdx?_cons, Block.busy, hp]
  unfold step turn
  rw [hi, hpi]
  exact onInstance_zero _ _

end Sys2Proof.Machine
end

