-- ==== Sys2Proof/Tests/Slice0.lean ====
section
/-! SUPPORT. Tests. Expected bytes come from spec/95_test_vectors.md (V<n>), expected words from R90 and R91. The witness
theorems show a concrete state that meets every hypothesis of an obligation together. -/

namespace Sys2Proof.Tests

open Sys2Proof.Machine

/-! ### Helpers -/

/-- Frame memory with some bytes written. -/
def load (l : List (Nat × List Byte)) : Memory := l.foldl (fun m x => m.writeBytes x.1 x.2) []

/-- The machine right after the acceptance of a word, with the given registers and memory. -/
def pendingWord (w : Word) (r : OpRegs) (m : Memory) : State :=
  { State.reset with block := { Block.reset with regs := r, pending := some ⟨w, r⟩ }, mem := m }

/-- The same, for a command. -/
def pendingState (i : Instr) (r : OpRegs) (m : Memory) : State := pendingWord (encode i) r m

/-- The state with events to come. -/
def arriving (l : List Event) : State := { State.reset with inbox := l }

/-- The n bytes from address a in the next state. -/
def bytesAfter (o : Host.Outcome State Fault Refusal) (a n : Nat) : Option (List Byte) :=
  match o with
  | .next t => some ((List.range n).map fun k => t.mem.read (a + k))
  | .fault _ => none
  | .refused _ => none

/-- The STATUS word of the next state. -/
def statusAfter (o : Host.Outcome State Fault Refusal) : Option Word :=
  match o with
  | .next t => some t.block.statusWord
  | .fault _ => none
  | .refused _ => none

/-- A W×H frame of a format at 0x100, its output at 0x300. -/
def frameA (w h fmt : Word) : OpRegs := { OpRegs.reset with aBase := 0x100, aWidth := w, aHeight := h, aFmt := fmt, dBase := 0x300 }

/-- The same with a second frame at 0x180 and a mask at 0x200. -/
def frameABM (w h fmt : Word) : OpRegs :=
  { frameA w h fmt with
    bBase := 0x180, bWidth := w, bHeight := h, bFmt := fmt, mBase := 0x200, mWidth := w, mHeight := h }

/-! ### Well-formedness: each check refuses an ill-formed access (R28, 93 U1) -/

theorem test_wf_width8 : (Event.regWrite 0 8 0x10 0).wf = false := by decide
theorem test_wf_width64 : (Event.regRead 0 64 0x10).wf = false := by decide
theorem test_wf_offset : (Event.regWrite 0 32 0x11 0).wf = false := by decide
theorem test_wf_read_offset : (Event.regRead 0 32 0x06).wf = false := by decide
theorem test_wf_ok : (Event.regWrite 0 32 0x08 0xFFFFFFFF).wf = true := by decide

/-! ### Decoding: a word of each command, OPCODE in bits 7:0 and RSVD in bits 31:8 (R90, R91) -/

theorem test_decode_compose : decode 0b00000000000000000000000000000001#32 = .ok .compose := by decide
theorem test_decode_blend : decode 0b00000000000000000000000000000010#32 = .ok .blend := by decide
theorem test_decode_subtract : decode 0b00000000000000000000000000000011#32 = .ok .subtract := by decide
theorem test_decode_rgb2hsv : decode 0b00000000000000000000000000000100#32 = .ok .rgb2hsv := by decide
theorem test_decode_hsv2rgb : decode 0b00000000000000000000000000000101#32 = .ok .hsv2rgb := by decide
theorem test_decode_autostretch : decode 0b00000000000000000000000000000110#32 = .ok .autostretch := by decide
theorem test_decode_colorenhance : decode 0b00000000000000000000000000000111#32 = .ok .colorenhance := by decide
theorem test_decode_despeckle : decode 0b00000000000000000000000000001000#32 = .ok .despeckle := by decide
theorem test_decode_sobel : decode 0b00000000000000000000000000001001#32 = .ok .sobel := by decide
theorem test_decode_rsvd_low : decode 0b00000000000000000000000100001001#32 = .error .reservedBits := by decide
theorem test_decode_rsvd_high : decode 0b10000000000000000000000000000001#32 = .error .reservedBits := by decide
theorem test_decode_zero : decode 0#32 = .error .undefinedOpcode := by decide
theorem test_decode_ten : decode 0b00000000000000000000000000001010#32 = .error .undefinedOpcode := by decide
theorem test_decode_ff : decode 0b00000000000000000000000011111111#32 = .error .undefinedOpcode := by decide

theorem test_table_word : decodeTableWord 32 9 = some .sobel := by decide
theorem test_table_word_short : decodeTableWord 8 0x103 = some .subtract := by decide
theorem test_table_word_refused : decodeTableWord 32 0x109 = none := by decide

/-- The word placed for the next step runs as the first command after reset (V68: no format, UNSUPPORTED_FORMAT). -/
theorem test_withFetchWord : statusAfter (step (State.reset.withFetchWord 32 2)) = some 0x00000304 := by decide

/-! ### One step of each command -/

/-- V1. -/
def composeState : State :=
  pendingState .compose (frameABM 2 1 2) (load [(0x100, [10, 20, 30, 40, 50, 60]), (0x200, [200, 100])])

theorem test_compose : bytesAfter (step composeState) 0x300 8 = some [200, 10, 20, 30, 100, 40, 50, 60] := by decide

/-- V28: one mask byte serves all four channels. -/
def blendState : State :=
  pendingState .blend (frameABM 1 1 0x14) (load [(0x100, [0, 0, 255, 255]), (0x180, [255, 0, 0, 255]), (0x200, [128])])

theorem test_blend : bytesAfter (step blendState) 0x300 4 = some [127, 0, 128, 255] := by decide

/-- V30: index p·3 + c. -/
def subtractState : State :=
  pendingState .subtract (frameABM 2 1 2) (load [(0x100, [10, 20, 30, 40, 50, 60]), (0x180, [1, 2, 3, 40, 60, 0])])

theorem test_subtract : bytesAfter (step subtractState) 0x300 6 = some [9, 18, 27, 0, 0, 60] := by decide

/-- V9: the negative red sector. -/
def rgb2hsvState : State :=
  pendingState .rgb2hsv (frameA 2 1 2) (load [(0x100, [255, 0, 4, 255, 0, 5])])

theorem test_rgb2hsv : bytesAfter (step rgb2hsvState) 0x300 6 = some [0, 255, 255, 254, 255, 255] := by decide

/-- V34 and V32q: the fraction, and sector 6 folded onto 0. -/
def hsv2rgbState : State :=
  pendingState .hsv2rgb (frameA 2 1 4) (load [(0x100, [14, 191, 200, 255, 128, 200])])

theorem test_hsv2rgb : bytesAfter (step hsv2rgbState) 0x300 6 = some [200, 98, 50, 200, 99, 99] := by decide

/-- V32e, V32g, V32j, V32l, V32o: one hue of each of the sectors 1 to 5. -/
theorem test_hsv2rgb_sectors :
    bytesAfter (step (pendingState .hsv2rgb (frameA 5 1 4) (load [(0x100,
      [64, 128, 200, 106, 128, 200, 149, 128, 200, 191, 128, 200, 234, 128, 200])]))) 0x300 15 =
    some [148, 200, 99, 99, 200, 148, 99, 148, 200, 148, 99, 200, 200, 99, 148] := by decide

/-- V35. -/
def autostretchState : State :=
  pendingState .autostretch (frameA 2 1 2) (load [(0x100, [200, 100, 50, 100, 100, 100])])

theorem test_autostretch : bytesAfter (step autostretchState) 0x300 6 = some [255, 82, 0, 127, 127, 127] := by decide

/-- V38. -/
def colorenhanceState : State :=
  pendingState .colorenhance (frameA 2 1 2) (load [(0x100, [200, 100, 50, 50, 50, 50])])

theorem test_colorenhance : bytesAfter (step colorenhanceState) 0x300 6 = some [200, 28, 0, 50, 50, 50] := by decide

/-- V46: recursive. -/
def despeckleState : State :=
  pendingState .despeckle { frameA 4 1 1 with medFlags := 2 } (load [(0x100, [50, 200, 0, 100])])

theorem test_despeckle_recursive : bytesAfter (step despeckleState) 0x300 4 = some [50, 50, 50, 50] := by decide

/-- V48: adaptive. -/
theorem test_despeckle_adaptive :
    bytesAfter (step (pendingState .despeckle { frameA 5 1 1 with medFlags := 1, medRadius := 2 }
      (load [(0x100, [10, 50, 20, 60, 30])]))) 0x300 5 = some [20, 20, 50, 30, 30] := by decide

/-- V57b: replicated borders, L2 magnitude, rescaled; then the neutral chroma. -/
def sobelState : State := pendingState .sobel (frameA 2 2 7) (load [(0x100, [10, 200, 30, 40, 1, 2])])

theorem test_sobel : bytesAfter (step sobelState) 0x300 6 = some [131, 165, 54, 114, 127, 127] := by decide

/-- V53c: no border, absolute magnitude, rescaled. -/
theorem test_sobel_abs :
    bytesAfter (step (pendingState .sobel { frameA 3 3 7 with sobelFlags := 2 }
      (load [(0x100, [0, 0, 255, 0, 0, 255, 0, 0, 255])]))) 0x300 9 = some [0, 0, 0, 0, 170, 0, 0, 0, 0] := by decide

/-! ### Validation and STATUS (V61, V64, V74, V75, V77, V81) -/

theorem test_status_illegal : statusAfter (step (pendingWord 0 OpRegs.reset [])) = some 0x00000104 := by decide
theorem test_status_config :
    statusAfter (step (pendingWord 8 { OpRegs.reset with medRadius := 256 } [])) = some 0x00000204 := by decide
theorem test_status_bounds :
    statusAfter (step (pendingState .compose { frameABM 2 1 2 with aBase := 0xFFFB } [])) = some 0x00000504 := by decide
theorem test_status_overlap :
    statusAfter (step (pendingState .compose { frameABM 2 1 2 with dBase := 0x100 } [])) = some 0x00000604 := by decide
theorem test_status_empty_mismatch :
    statusAfter (step (pendingState .compose { frameABM 0 5 2 with mHeight := 6 } [])) = some 0x00000404 := by decide

/-! ### Witnesses: a state that meets every hypothesis of each obligation -/

/-- Two instances: instance 1 runs COMPOSE. -/
def twoInstances : State := { State.reset with others := [composeState.block], mem := composeState.mem }

theorem witness_EveryOtherWordEndsIllegal :
    (∃ (s : State) (r : OpRegs), s.block.pending = some ⟨0, r⟩ ∧ s.inbox = []) ∧
    (∃ (s : State) (r : OpRegs), s.block.pending = some ⟨0xA, r⟩ ∧ 9 < (0xA : Word).toNat ∧ s.inbox = [.block 0]) ∧
    (∃ (s : State) (r : OpRegs), s.block.pending = some ⟨0xFFFFFFFF, r⟩ ∧ 9 < (0xFFFFFFFF : Word).toNat ∧ s.inbox = []) :=
  ⟨⟨pendingWord 0 OpRegs.reset [], _, rfl, rfl⟩,
    ⟨{ pendingWord 0xA OpRegs.reset [] with inbox := [.block 0] }, _, rfl, by decide, rfl⟩,
    ⟨pendingWord 0xFFFFFFFF OpRegs.reset [], _, rfl, by decide, rfl⟩⟩

theorem witness_StepRunsTheDecodedCommand :
    (∃ (s : State) (w : Word) (r : OpRegs) (i : Instr), i.wf = true ∧ s.block.pending = some ⟨w, r⟩ ∧ decode w = .ok i ∧
      s.inbox = []) ∧
    (∃ (s : State) (w : Word) (r : OpRegs) (i : Instr), i.wf = true ∧ s.block.pending = some ⟨w, r⟩ ∧ decode w = .ok i ∧
      s.inbox = [.block 0]) :=
  ⟨⟨composeState, _, _, .compose, rfl, rfl, by decide, rfl⟩,
    ⟨{ sobelState with inbox := [.block 0] }, _, _, .sobel, rfl, rfl, by decide, rfl⟩⟩

/-- One instance that runs nothing, beside a running instance the new command does not clash with. -/
theorem witness_AcceptanceTakesTheSnapshot :
    ∃ (s : State) (w : Word) (rest : List Event), s.inbox = .regWrite 0 32 0x08 w :: rest ∧ s.block.inReset = false ∧
      s.block.pending = none ∧ s.others ≠ [] ∧
      ∀ b ∈ s.others, ∀ c, b.pending = some c → c.clashes ⟨w, s.block.regs⟩ = false := by
  refine ⟨{ twoInstances with inbox := [cmd .sobel] }, 9, [], rfl, rfl, rfl, by decide, ?_⟩
  intro b hb c hc
  simp only [twoInstances, List.mem_singleton] at hb
  subst hb
  cases hc
  decide

theorem witness_CommandWhileBusyIsDropped :
    ∃ (s : State) (w : Word) (c : Snapshot) (rest : List Event), s.inbox = .regWrite 0 32 0x08 w :: rest ∧
      s.block.inReset = false ∧ s.block.pending = some c :=
  ⟨{ composeState with inbox := [cmd .blend] }, 2, _, [], rfl, rfl, rfl⟩

theorem witness_FailedValidationOnlyReportsItsCode :
    ∃ (i : Instr) (s : State) (w : Word) (r : OpRegs), s.block.pending = some ⟨w, r⟩ ∧
      validate i r s.platform.memSize ≠ .ok :=
  ⟨.blend, pendingState .blend OpRegs.reset [], _, OpRegs.reset, rfl, by decide⟩

/-- One snapshot for each answer of validation. -/
theorem witness_ValidationReportsTheFirstFailingCheck :
    validate .despeckle { frameA 4 1 1 with medRadius := 256 } 0x10000 = .invalidConfig ∧
    validate .despeckle { frameA 4 1 1 with medFlags := 4 } 0x10000 = .invalidConfig ∧
    validate .sobel { frameA 2 2 7 with sobelFlags := 8 } 0x10000 = .invalidConfig ∧
    validate .blend { frameABM 1 1 0x11 with bFmt := 1 } 0x10000 = .unsupportedFormat ∧
    validate .blend { frameABM 2 1 0x11 with bHeight := 3, aBase := 0xFFFF } 0x10000 = .dimensionMismatch ∧
    validate .compose { frameABM 2 1 2 with aBase := 0xFFFB } 0x10000 = .resource ∧
    validate .compose { frameABM 2 1 2 with dBase := 0xFD } 0x10000 = .overlap ∧
    validate .compose { frameABM 2 1 2 with dBase := 0xF8 } 0x10000 = .ok ∧
    validate .despeckle { frameA 4 1 1 with medRadius := 255, medBlack := 255, medWhite := 255, medFlags := 3 } 0x10000 =
      .ok := by decide

/-- A packed A format and I420; a B format that is A's, one that is not, and an undefined one that DESPECKLE does not mind. -/
theorem witness_ExtentsOfEachCommand :
    (∃ (r : OpRegs) (lenA : Nat), (∃ f bpp, r.aFmt = Format.code f ∧ f.bpp = some bpp ∧
        lenA = r.aWidth.toNat * r.aHeight.toNat * bpp) ∧ 0 < lenA ∧ r.bFmt = Format.raw1.code ∧ Format.raw1.bpp = some 1 ∧
      r.bFmt ≠ r.aFmt) ∧
    (∃ r : OpRegs, r.aFmt = 7 ∧ r.bFmt = 0 ∧ extentD .sobel r = some ⟨0x300, 17⟩) ∧
    (∃ r : OpRegs, r.aFmt = Format.gray8.code ∧ Format.gray8.bpp = some 1 ∧ r.bFmt = 0 ∧
      inputExtents .despeckle r = [⟨0x100, 4⟩]) :=
  ⟨⟨{ frameABM 2 1 0x14 with bFmt := 0x11 }, 8, ⟨.raw4, 4, by decide⟩, by decide⟩, ⟨frameA 3 3 7, by decide⟩,
    ⟨frameA 4 1 1, by decide⟩⟩

theorem witness_EmptyFramesCompleteUntouched :
    (∃ (i : Instr) (s : State) (w : Word) (r : OpRegs), s.block.pending = some ⟨w, r⟩ ∧ (r.aWidth = 0 ∨ r.aHeight = 0) ∧
      badConfig i r = false ∧ badFormat i r = false ∧ badDimensions i r = false) ∧
    (∃ (i : Instr) (s : State) (w : Word) (r : OpRegs), s.block.pending = some ⟨w, r⟩ ∧ (r.aWidth = 0 ∨ r.aHeight = 0) ∧
      badConfig i r = false ∧ badFormat i r = false ∧ badDimensions i r = true) :=
  ⟨⟨.sobel, pendingState .sobel { frameA 0 0 7 with aBase := 0xFFFF0000 } [], _, { frameA 0 0 7 with aBase := 0xFFFF0000 },
      rfl, by decide, by decide, by decide, by decide⟩,
    ⟨.compose, pendingState .compose { frameABM 0 5 2 with mHeight := 6 } [], _, { frameABM 0 5 2 with mHeight := 6 }, rfl,
      by decide, by decide, by decide, by decide⟩⟩

theorem witness_EveryPendingCommandCompletes :
    ∃ (s : State) (c : Snapshot), s.inbox = [] ∧ s.block.pending = some c :=
  ⟨despeckleState, _, rfl, rfl⟩

theorem witness_CommandWritesOnlyItsOutput :
    ∃ (i : Instr) (s t : State) (w : Word) (r : OpRegs) (d : Extent), s.block.pending = some ⟨w, r⟩ ∧
      extentD i r = some d ∧ 0 < d.len ∧ exec i s = .next t :=
  ⟨.compose, composeState, _, _, _, ⟨0x300, 8⟩, rfl, by decide, by decide, rfl⟩

/-- Two machines with the same COMPOSE pending: one has a busy neighbour, other bytes outside the inputs and CMD_LOST set. -/
def composeElsewhere : State :=
  { composeState with
    mem := composeState.mem.write 0x400 77
    others := [sobelState.block]
    block := { composeState.block with cmdLost := true } }

theorem witness_ResultDependsOnlyOnSnapshotAndInputs :
    ∃ (i : Instr) (s s' t t' : State) (w : Word) (r : OpRegs) (d : Extent), s.block.pending = some ⟨w, r⟩ ∧
      s'.block.pending = some ⟨w, r⟩ ∧ s'.platform = s.platform ∧ s'.draws = s.draws ∧ s ≠ s' ∧
      (∀ e ∈ inputExtents i r, ∀ a, e.base ≤ a → a < e.base + e.len → s'.mem.read a = s.mem.read a) ∧
      validate i r s.platform.memSize = .ok ∧ extentD i r = some d ∧ exec i s = .next t ∧ exec i s' = .next t' := by
  refine ⟨.compose, composeState, composeElsewhere, _, _, _, _, ⟨0x300, 8⟩, rfl, rfl, rfl, rfl, by decide, ?_, by decide,
    by decide, rfl, rfl⟩
  have h : inputExtents .compose (frameABM 2 1 2) = [⟨0x100, 6⟩, ⟨0x200, 2⟩] := by decide
  intro e he a h1 h2
  rw [h] at he
  have hne : a ≠ 0x400 := by
    rcases List.mem_cons.mp he with rfl | he
    · simp only at h1 h2
      omega
    · rw [List.mem_singleton.mp he] at h1 h2
      simp only at h1 h2
      omega
  have hmem : ∀ m : Memory, (m.write 0x400 77).read a = m.read a := by
    intro m
    induction m with
    | nil => simp [Memory.write, Memory.read, Memory.read?, hne.symm]
    | cons x m ih =>
      obtain ⟨x, u⟩ := x
      unfold Memory.write
      split
      · simp [Memory.read, Memory.read?, hne.symm]
      · split
        · next hx => simp [Memory.read, Memory.read?, hne.symm, ← hx]
        · simp only [Memory.read, Memory.read?] at ih ⊢
          split
          · rfl
          · exact ih
  exact hmem _

theorem witness_ComposePutsTheMaskFirst :
    ∃ (s : State) (w : Word) (r : OpRegs), s.block.pending = some ⟨w, r⟩ ∧ (r.aFmt = 2 ∨ r.aFmt = 3) ∧
      r.mWidth = r.aWidth ∧ r.mHeight = r.aHeight ∧ 0 < r.aWidth.toNat * r.aHeight.toNat ∧
      OneInputReady s.platform.memSize r (r.aWidth.toNat * r.aHeight.toNat * 3) (r.aWidth.toNat * r.aHeight.toNat * 4) ∧
      Fits s.platform.memSize r.mBase.toNat (r.aWidth.toNat * r.aHeight.toNat) ∧
      Apart r.mBase.toNat (r.aWidth.toNat * r.aHeight.toNat) r.dBase.toNat (r.aWidth.toNat * r.aHeight.toNat * 4) := by
  refine ⟨composeState, _, frameABM 2 1 2, rfl, ?_⟩
  unfold OneInputReady Fits Apart
  decide

theorem witness_BlendInterpolatesByTheMask :
    ∃ (s : State) (w : Word) (r : OpRegs) (f : Format) (bpp : Nat), s.block.pending = some ⟨w, r⟩ ∧ r.aFmt = f.code ∧
      f.bpp = some bpp ∧ r.bFmt = r.aFmt ∧ r.mWidth = r.aWidth ∧ r.mHeight = r.aHeight ∧ r.bWidth = r.aWidth ∧
      r.bHeight = r.aHeight ∧ 0 < r.aWidth.toNat * r.aHeight.toNat ∧
      OneInputReady s.platform.memSize r (r.aWidth.toNat * r.aHeight.toNat * bpp) (r.aWidth.toNat * r.aHeight.toNat * bpp) ∧
      Fits s.platform.memSize r.bBase.toNat (r.aWidth.toNat * r.aHeight.toNat * bpp) ∧
      Apart r.bBase.toNat (r.aWidth.toNat * r.aHeight.toNat * bpp) r.dBase.toNat
        (r.aWidth.toNat * r.aHeight.toNat * bpp) ∧
      Fits s.platform.memSize r.mBase.toNat (r.aWidth.toNat * r.aHeight.toNat) ∧
      Apart r.mBase.toNat (r.aWidth.toNat * r.aHeight.toNat) r.dBase.toNat (r.aWidth.toNat * r.aHeight.toNat * bpp) := by
  refine ⟨blendState, _, frameABM 1 1 0x14, .raw4, 4, rfl, ?_⟩
  unfold OneInputReady Fits Apart
  decide

theorem witness_SubtractClampsTheDifference :
    ∃ (s : State) (w : Word) (r : OpRegs) (f : Format) (bpp : Nat), s.block.pending = some ⟨w, r⟩ ∧ r.aFmt = f.code ∧
      f.bpp = some bpp ∧ r.bFmt = r.aFmt ∧ r.bWidth = r.aWidth ∧ r.bHeight = r.aHeight ∧
      0 < r.aWidth.toNat * r.aHeight.toNat ∧
      OneInputReady s.platform.memSize r (r.aWidth.toNat * r.aHeight.toNat * bpp) (r.aWidth.toNat * r.aHeight.toNat * bpp) ∧
      Fits s.platform.memSize r.bBase.toNat (r.aWidth.toNat * r.aHeight.toNat * bpp) ∧
      Apart r.bBase.toNat (r.aWidth.toNat * r.aHeight.toNat * bpp) r.dBase.toNat
        (r.aWidth.toNat * r.aHeight.toNat * bpp) := by
  refine ⟨subtractState, _, frameABM 2 1 2, .rgb24, 3, rfl, ?_⟩
  unfold OneInputReady Fits Apart
  decide

/-- RGB2HSV, AUTOSTRETCH and COLORENHANCE have the same hypotheses. -/
theorem witness_Rgb24Commands :
    ∀ s ∈ [rgb2hsvState, autostretchState, colorenhanceState], ∃ (w : Word) (r : OpRegs), s.block.pending = some ⟨w, r⟩ ∧
      r.aFmt = 2 ∧ 0 < r.aWidth.toNat * r.aHeight.toNat ∧
      OneInputReady s.platform.memSize r (r.aWidth.toNat * r.aHeight.toNat * 3) (r.aWidth.toNat * r.aHeight.toNat * 3) := by
  have h : ∀ w m, ∃ (w' : Word) (r : OpRegs), (pendingWord w (frameA 2 1 2) m).block.pending = some ⟨w', r⟩ ∧
      r.aFmt = 2 ∧ 0 < r.aWidth.toNat * r.aHeight.toNat ∧
      OneInputReady (pendingWord w (frameA 2 1 2) m).platform.memSize r (r.aWidth.toNat * r.aHeight.toNat * 3)
        (r.aWidth.toNat * r.aHeight.toNat * 3) := by
    intro w m
    refine ⟨w, frameA 2 1 2, rfl, ?_⟩
    show _ ∧ _ ∧ OneInputReady 0x10000 _ _ _
    unfold OneInputReady Fits Apart
    decide
  intro s hs
  simp only [List.mem_cons, List.not_mem_nil, or_false] at hs
  rcases hs with rfl | rfl | rfl <;> exact h _ _

theorem witness_Hsv2rgbConvertsEveryPixel :
    ∃ (s : State) (w : Word) (r : OpRegs), s.block.pending = some ⟨w, r⟩ ∧ r.aFmt = 4 ∧
      0 < r.aWidth.toNat * r.aHeight.toNat ∧
      OneInputReady s.platform.memSize r (r.aWidth.toNat * r.aHeight.toNat * 3) (r.aWidth.toNat * r.aHeight.toNat * 3) := by
  refine ⟨hsv2rgbState, _, frameA 2 1 4, rfl, ?_⟩
  unfold OneInputReady Fits Apart
  decide

/-- Bytes for ToHsvValueAndSaturation, ToHsvHueIgnoresTheTestOrder (each channel holding the maximum, and a tie), ToHsvStaysInBytes,
ToRgbChannelsReachValue and RoundTripKeepsGreyAndTheLargestChannel: black, the largest value, and three coloured pixels. -/
theorem witness_ChannelValues :
    ∀ t ∈ [(⟨0, 0, 0⟩ : Triple), ⟨255, 255, 255⟩, ⟨255, 0, 5⟩, ⟨5, 255, 0⟩, ⟨0, 5, 255⟩, ⟨255, 255, 0⟩],
      t.c0 ≤ 255 ∧ t.c1 ≤ 255 ∧ t.c2 ≤ 255 ∧
        (maxChannel t = 0 ∨ maxChannel t = 255 ∧ (t.c0 = 255 ∨ t.c1 = 255 ∨ t.c2 = 255)) := by decide

theorem witness_StretchRangeStartsAtZero : ∀ x ∈ [0, 7, 255], x ≤ 255 := by decide

/-- GRAY8 with every flag, the largest settings and radius 255; RGB24 with radius 0 and a uniform frame. -/
theorem witness_DespeckleSettings :
    (∃ (s : State) (w : Word) (r : OpRegs) (bpp : Nat), s.block.pending = some ⟨w, r⟩ ∧
      ((r.aFmt = 1 ∧ bpp = 1) ∨ (r.aFmt = 2 ∧ bpp = 3)) ∧ DespeckleReady r ∧ 0 < r.aWidth.toNat * r.aHeight.toNat ∧
      OneInputReady s.platform.memSize r (r.aWidth.toNat * r.aHeight.toNat * bpp)
        (r.aWidth.toNat * r.aHeight.toNat * bpp)) ∧
    (∃ (s : State) (w : Word) (r : OpRegs) (bpp : Nat), s.block.pending = some ⟨w, r⟩ ∧
      ((r.aFmt = 1 ∧ bpp = 1) ∨ (r.aFmt = 2 ∧ bpp = 3)) ∧ DespeckleReady r ∧ r.medRadius = 0 ∧
      0 < r.aWidth.toNat * r.aHeight.toNat ∧
      OneInputReady s.platform.memSize r (r.aWidth.toNat * r.aHeight.toNat * bpp)
        (r.aWidth.toNat * r.aHeight.toNat * bpp) ∧
      ∀ p, p < r.aWidth.toNat * r.aHeight.toNat →
        s.mem.pixel r.aBase.toNat bpp p = s.mem.pixel r.aBase.toNat bpp 0) := by
  refine ⟨⟨pendingState .despeckle
      { frameA 4 1 1 with medRadius := 255, medBlack := 255, medWhite := 255, medFlags := 3 } [], _,
      { frameA 4 1 1 with medRadius := 255, medBlack := 255, medWhite := 255, medFlags := 3 }, 1, rfl, ?_⟩,
    ⟨pendingState .despeckle { frameA 2 1 2 with medRadius := 0 } (load [(0x100, [9, 200, 31, 9, 200, 31])]), _,
      { frameA 2 1 2 with medRadius := 0 }, 3, rfl, ?_⟩⟩
  · unfold DespeckleReady OneInputReady Fits Apart
    decide
  · unfold DespeckleReady OneInputReady Fits Apart
    decide

theorem witness_DespeckleWritesLowerMediansAlongTheScan :
    ∃ (s t : State) (w : Word) (r : OpRegs) (bpp : Nat), s.block.pending = some ⟨w, r⟩ ∧
      ((r.aFmt = 1 ∧ bpp = 1) ∨ (r.aFmt = 2 ∧ bpp = 3)) ∧ DespeckleReady r ∧ 0 < r.aWidth.toNat * r.aHeight.toNat ∧
      OneInputReady s.platform.memSize r (r.aWidth.toNat * r.aHeight.toNat * bpp)
        (r.aWidth.toNat * r.aHeight.toNat * bpp) ∧
      exec .despeckle s = .next t := by
  refine ⟨despeckleState, _, _, { frameA 4 1 1 with medFlags := 2 }, 1, rfl, by decide, ?_, by decide, ?_, rfl⟩
  · unfold DespeckleReady; decide
  · unfold OneInputReady Fits Apart; decide

/-- AdaptStep at both ends of the range of the radius. -/
theorem witness_AdaptStepKeepsTheRadiusInRange :
    ∀ cfg ∈ [(⟨255, 7, 248, true, false⟩ : DespeckleConfig)], (1 ≤ 1 ∧ 1 ≤ cfg.radius) ∧ (1 ≤ 255 ∧ 255 ≤ cfg.radius) := by
  decide

theorem witness_AdaptStepRadiusZero : (⟨0, 7, 248, true, true⟩ : DespeckleConfig).radius = 0 := rfl

/-- Both statements about SOBEL, every flag bit among them: the frame is 2×2 and, for the constant plane, all 77. -/
theorem witness_Sobel :
    (∃ (s : State) (w : Word) (r : OpRegs), s.block.pending = some ⟨w, r⟩ ∧ r.aFmt = 7 ∧ r.sobelFlags.toNat < 8 ∧
      0 < r.aWidth.toNat * r.aHeight.toNat ∧
      OneInputReady s.platform.memSize r
        (r.aWidth.toNat * r.aHeight.toNat + 2 * (((r.aWidth.toNat + 1) / 2) * ((r.aHeight.toNat + 1) / 2)))
        (r.aWidth.toNat * r.aHeight.toNat + 2 * (((r.aWidth.toNat + 1) / 2) * ((r.aHeight.toNat + 1) / 2)))) ∧
    (∃ (s : State) (w : Word) (r : OpRegs), s.block.pending = some ⟨w, r⟩ ∧ r.aFmt = 7 ∧ r.sobelFlags.toNat < 8 ∧
      0 < r.aWidth.toNat * r.aHeight.toNat ∧
      OneInputReady s.platform.memSize r
        (r.aWidth.toNat * r.aHeight.toNat + 2 * (((r.aWidth.toNat + 1) / 2) * ((r.aHeight.toNat + 1) / 2)))
        (r.aWidth.toNat * r.aHeight.toNat + 2 * (((r.aWidth.toNat + 1) / 2) * ((r.aHeight.toNat + 1) / 2))) ∧
      ∀ p, p < r.aWidth.toNat * r.aHeight.toNat → s.mem.read (r.aBase.toNat + p) = s.mem.read r.aBase.toNat) := by
  refine ⟨⟨sobelState, _, frameA 2 2 7, rfl, ?_⟩,
    ⟨pendingState .sobel { frameA 2 2 7 with sobelFlags := 7 } (load [(0x100, [77, 77, 77, 77])]), _,
      { frameA 2 2 7 with sobelFlags := 7 }, rfl, ?_⟩⟩
  · unfold OneInputReady Fits Apart
    decide
  · unfold OneInputReady Fits Apart
    decide

theorem witness_SobelMagnitudeRanges : ∀ a b : Int, 0 ≤ (fun _ _ : Int => (255 : Int)) a b ∧
    (fun _ _ : Int => (255 : Int)) a b ≤ 255 :=
  fun _ _ => by norm_num

/-- A descriptor write and read, for the first, an inner and the last register. -/
theorem witness_DescriptorsReadBackWhatWasWritten :
    ∀ reg ∈ [Reg.aBase, Reg.dBase, Reg.sobelFlags], ∃ (s : State) (v : Word) (rest : List Event), reg ≠ .ctrl ∧
      reg ≠ .status ∧ reg ≠ .cmd ∧ s.block.inReset = false ∧
      s.inbox = .regWrite 0 32 reg.offset v :: .regRead 0 32 reg.offset :: rest := by
  intro reg hreg
  refine ⟨arriving [wr reg 0xFFFFFFFF, rd reg], 0xFFFFFFFF, [], ?_, ?_, ?_, rfl, rfl⟩ <;>
    · rintro rfl
      revert hreg
      decide

/-- Each range of reserved offsets, at both ends. -/
theorem witness_ReservedOffsetsReadZeroAndIgnoreWrites :
    (∀ off ∈ [(0x0C : BitVec 8), 0x3C, 0x44, 0x4C, 0x64, 0xFC], off.toNat % 4 = 0 ∧
      (off.toNat = 0x0C ∨ off.toNat = 0x3C ∨ (0x44 ≤ off.toNat ∧ off.toNat ≤ 0x4C) ∨ 0x64 ≤ off.toNat)) ∧
    (∃ s : State, s.block.inReset = false ∧ s.inbox = [.regWrite 0 32 0xFC 1]) ∧
    (∃ s : State, s.block.inReset = false ∧ s.inbox = [.regRead 0 32 0x0C]) :=
  ⟨by decide, ⟨arriving [.regWrite 0 32 0xFC 1], rfl, rfl⟩, ⟨arriving [.regRead 0 32 0x0C], rfl, rfl⟩⟩

theorem witness_StatusWordAndItsClearBits :
    ∃ (s : State) (v : Word) (rest : List Event), s.block.inReset = false ∧ s.block.done = true ∧
      s.inbox = .regWrite 0 32 0x04 v :: rest :=
  ⟨{ arriving [ackStatus] with block := { Block.reset with done := true } }, 0xE, [], rfl, rfl, rfl⟩

theorem witness_CtrlHoldsOnlyIrqEnable :
    ∃ (s : State) (v : Word) (rest : List Event), s.block.inReset = false ∧
      s.inbox = .regWrite 0 32 0x00 v :: .regRead 0 32 0x00 :: rest :=
  ⟨arriving [wr .ctrl 0xFFFFFFFF, rd .ctrl], _, [], rfl, rfl⟩

theorem witness_RegisterWritesLeaveTheSnapshot :
    ∃ (s : State) (bits : Nat) (off : BitVec 8) (v : Word) (c : Snapshot) (rest : List Event),
      s.inbox = .regWrite 0 bits off v :: rest ∧ s.block.pending = some c :=
  ⟨{ composeState with inbox := [wr .aBase 5] }, 32, 0x10, 5, _, [], rfl, rfl⟩

/-- Each clause: another width, another offset, reset. -/
theorem witness_AccessesOutsideTheInterfaceHaveNoEffect :
    (∃ (s : State) (bits : Nat) (off : BitVec 8) (v : Word) (rest : List Event), bits ≠ 32 ∧
      s.inbox = .regWrite 0 bits off v :: rest) ∧
    (∃ (s : State) (bits : Nat) (off : BitVec 8) (rest : List Event), off.toNat % 4 ≠ 0 ∧
      s.inbox = .regRead 0 bits off :: rest) ∧
    (∃ (s : State) (bits : Nat) (off : BitVec 8) (v : Word) (rest : List Event), s.block.inReset = true ∧
      s.inbox = .regWrite 0 bits off v :: rest) :=
  ⟨⟨arriving [.regWrite 0 16 0x10 0], 16, 0x10, 0, [], by decide, rfl⟩,
    ⟨arriving [.regRead 0 32 0x11], 32, 0x11, [], by decide, rfl⟩,
    ⟨{ arriving [cmd .sobel] with block := { Block.reset with inReset := true } }, 32, 0x08, 9, [], rfl, rfl⟩⟩

theorem witness_AckReturnsFromAnError :
    ∃ (s : State) (rest : List Event), s.block.inReset = false ∧ s.block.err = true ∧ s.inbox = ackStatus :: rest :=
  ⟨{ arriving [ackStatus] with block := { Block.reset with err := true, errCode := .overlap } }, [], rfl, rfl, rfl⟩

/-- Release; reset during a command, with an address below its output, one above it, and an input byte; reset with an illegal
word pending, and with a BLEND whose A_FMT is undefined. -/
theorem witness_AssertingResetAbandonsTheCommand :
    (∃ (s : State) (rest : List Event), s.inbox = .reset 0 false :: rest ∧ s.block.inReset = true) ∧
    (∃ (s : State) (rest : List Event) (c : Snapshot) (i : Instr) (d : Extent), s.inbox = .reset 0 true :: rest ∧
      s.block.pending = some c ∧ decode c.word = .ok i ∧ extentD i c.regs = some d ∧ 0x2FF < d.base ∧
      d.base + d.len ≤ 0x308 ∧ ∃ e ∈ inputExtents i c.regs, e.base ≤ 0x100 ∧ 0x100 < e.base + e.len) ∧
    (∃ (s : State) (rest : List Event) (c : Snapshot), s.inbox = .reset 0 true :: rest ∧ s.block.pending = some c ∧
      ∀ i, decode c.word = .ok i → extentD i c.regs = none) ∧
    (∃ (s : State) (rest : List Event) (c : Snapshot), s.inbox = .reset 0 true :: rest ∧ s.block.pending = some c ∧
      decode c.word = .ok .blend ∧ extentD .blend c.regs = none) := by
  refine ⟨⟨{ arriving [.reset 0 false] with block := { Block.reset with inReset := true } }, [], rfl, rfl⟩,
    ⟨{ composeState with inbox := [.reset 0 true] }, [], _, .compose, ⟨0x300, 8⟩, rfl, rfl, by decide, by decide,
      by decide, by decide, ⟨0x100, 6⟩, ?_, by decide, by decide⟩,
    ⟨{ pendingWord 0xA OpRegs.reset [] with inbox := [.reset 0 true] }, [], _, rfl, rfl, ?_⟩,
    ⟨{ pendingState .blend OpRegs.reset [] with inbox := [.reset 0 true] }, [], _, rfl, rfl, by decide, by decide⟩⟩
  · decide
  · intro i
    cases i <;> decide

/-- The host writes the first byte of an input, and the last byte of the output of instance 1. -/
theorem witness_HostWriteIntoARunningExtentFaults :
    (∃ (s : State) (a : Word) (bytes : List Byte) (rest : List Event) (b : Block) (c : Snapshot) (i : Instr) (e : Extent)
      (k : Nat), s.inbox = .memWrite a bytes :: rest ∧ b ∈ s.blocks ∧ b.pending = some c ∧ decode c.word = .ok i ∧
      (e ∈ inputExtents i c.regs ∨ extentD i c.regs = some e) ∧ k < bytes.length ∧ e.base ≤ a.toNat + k ∧
      a.toNat + k < e.base + e.len ∧ a.toNat + bytes.length ≤ s.platform.memSize) ∧
    (∃ (s : State) (a : Word) (bytes : List Byte) (rest : List Event) (b : Block) (c : Snapshot) (i : Instr) (e : Extent)
      (k : Nat), s.inbox = .memWrite a bytes :: rest ∧ b ∈ s.blocks ∧ b.pending = some c ∧ decode c.word = .ok i ∧
      (e ∈ inputExtents i c.regs ∨ extentD i c.regs = some e) ∧ k < bytes.length ∧ e.base ≤ a.toNat + k ∧
      a.toNat + k < e.base + e.len ∧ a.toNat + bytes.length ≤ s.platform.memSize) := by
  refine ⟨⟨{ composeState with inbox := [.memWrite 0xFF [1, 2]] }, 0xFF, [1, 2], [], composeState.block, _, .compose, ⟨0x100, 6⟩, 1,
      rfl, by decide, rfl, by decide, .inl ?_, by decide, by decide, by decide, by decide⟩,
    ⟨{ twoInstances with inbox := [.memWrite 0x307 [1]] }, 0x307, [1], [], composeState.block, _, .compose, ⟨0x300, 8⟩, 0,
      rfl, by decide, rfl, by decide, .inr ?_, by decide, by decide, by decide, by decide⟩⟩
  · decide
  · decide

/-- While COMPOSE runs: the two bytes right after its A extent. -/
theorem witness_HostWriteStoresItsBytes :
    ∃ (s : State) (a : Word) (bytes : List Byte) (rest : List Event), s.inbox = .memWrite a bytes :: rest ∧
      Fits s.platform.memSize a.toNat bytes.length ∧ bytes ≠ [] ∧ s.block.busy = true ∧
      ∀ b ∈ s.blocks, ∀ c i e k, b.pending = some c → decode c.word = .ok i →
        e ∈ inputExtents i c.regs ∨ extentD i c.regs = some e → k < bytes.length →
        a.toNat + k < e.base ∨ e.base + e.len ≤ a.toNat + k := by
  refine ⟨{ composeState with inbox := [.memWrite 0x106 [1, 2]] }, 0x106, [1, 2], [], rfl, ?_, by decide, by decide, ?_⟩
  · unfold Fits
    decide
  · intro b hb c i e k hp hd he hk
    have hb : b = composeState.block := by simpa [State.blocks, composeState, pendingState, pendingWord, State.reset] using hb
    subst hb
    cases hp
    have hi : i = .compose := by
      have h : decode (encode .compose) = .ok i := hd
      simpa [eq_comm] using h
    subst hi
    have hin : inputExtents .compose (frameABM 2 1 2) = [⟨0x100, 6⟩, ⟨0x200, 2⟩] := by decide
    have hout : extentD .compose (frameABM 2 1 2) = some ⟨0x300, 8⟩ := by decide
    have ha : (0x106 : Word).toNat = 0x106 := by decide
    have hk : k < 2 := hk
    rw [ha]
    have he : e ∈ inputExtents .compose (frameABM 2 1 2) ∨ extentD .compose (frameABM 2 1 2) = some e := he
    rw [hin, hout] at he
    simp only [List.mem_cons, List.not_mem_nil, or_false, Option.some.injEq] at he
    rcases he with (rfl | rfl) | rfl <;> simp only <;> omega

/-- A read up to the last byte before an unsettled output. -/
theorem witness_HostReadsSettledBytes :
    ∃ (s : State) (a : Word) (n : Nat) (rest : List Event), s.inbox = .memRead a n :: rest ∧ 0 < n ∧
      Fits s.platform.memSize a.toNat n ∧ s.block.unsettled ≠ [] ∧
      ∀ b ∈ s.blocks, ∀ e ∈ b.unsettled, ∀ k, k < n → a.toNat + k < e.base ∨ e.base + e.len ≤ a.toNat + k := by
  refine ⟨{ arriving [.memRead 0x2FE 2] with block := { Block.reset with unsettled := [⟨0x300, 8⟩] } }, 0x2FE, 2, [], rfl,
    by decide, ?_, by decide, ?_⟩
  · unfold Fits
    decide
  · decide

/-- A STATUS read and a WAIT of an idle block, a high irq, and a WAIT of a busy block; beside them an instance whose unsettled
output ends right before the bytes read. -/
theorem witness_ObservingCompletionShowsTheOutput :
    (∀ e ∈ [rd .status, Event.wait 0, .irqRead 0], ∃ (s : State) (rest : List Event) (a : Word) (n : Nat),
      Fits s.platform.memSize a.toNat n ∧ 0 < n ∧ s.block.unsettled ≠ [] ∧ s.others ≠ [] ∧
      (∀ b ∈ s.others, ∀ e ∈ b.unsettled, ∀ k, k < n → a.toNat + k < e.base ∨ e.base + e.len ≤ a.toNat + k) ∧
      s.block.inReset = false ∧ s.block.pending = none ∧ s.block.irq = true ∧ s.inbox = e :: .memRead a n :: rest) ∧
    (∃ (s : State) (rest : List Event), s.block.inReset = false ∧ s.block.busy = true ∧ s.inbox = .wait 0 :: rest) := by
  refine ⟨fun e _ => ⟨{ arriving [e, .memRead 0x300 8] with
      block := { Block.reset with irqEn := true, done := true, unsettled := [⟨0x300, 8⟩] }
      others := [{ Block.reset with unsettled := [⟨0x2F8, 8⟩] }] },
      [], 0x300, 8, ?_, by decide, by simp, by simp, ?_, rfl, rfl, rfl, rfl⟩,
    ⟨{ composeState with inbox := [.wait 0] }, [], rfl, by decide, rfl⟩⟩
  · show Fits 0x10000 _ _
    unfold Fits
    decide
  · show ∀ b ∈ [({ Block.reset with unsettled := [⟨0x2F8, 8⟩] } : Block)], _
    decide

theorem witness_InstancesShareOnlyFrameMemory :
    ∃ (s t : State) (e : Event) (k j : Nat) (rest : List Event), e = .block k ∧ s.inbox = e :: rest ∧
      step s = .next t ∧ j ≠ k ∧ s.blocks[j]? ≠ none :=
  ⟨{ twoInstances with inbox := [.block 1] }, _, .block 1, 1, 0, [], rfl, rfl, rfl, by decide, by decide⟩

/-- A command that writes where instance 1 reads, and one that reads where instance 1 writes. -/
theorem witness_SharedOutputsStopTheMachine :
    (∃ (s : State) (w : Word) (rest : List Event) (b : Block) (c : Snapshot) (i i' : Instr) (d e : Extent) (a : Nat),
      s.inbox = .regWrite 0 32 0x08 w :: rest ∧ s.block.inReset = false ∧ s.block.pending = none ∧ b ∈ s.others ∧
      b.pending = some c ∧ decode w = .ok i ∧ decode c.word = .ok i' ∧ extentD i s.block.regs = some d ∧
      (e ∈ inputExtents i' c.regs ∨ extentD i' c.regs = some e) ∧ d.base ≤ a ∧ a < d.base + d.len ∧ e.base ≤ a ∧
      a < e.base + e.len) ∧
    (∃ (s : State) (w : Word) (rest : List Event) (b : Block) (c : Snapshot) (i i' : Instr) (d e : Extent) (a : Nat),
      s.inbox = .regWrite 0 32 0x08 w :: rest ∧ s.block.inReset = false ∧ s.block.pending = none ∧ b ∈ s.others ∧
      b.pending = some c ∧ decode w = .ok i ∧ decode c.word = .ok i' ∧
      (d ∈ inputExtents i s.block.regs ∧ extentD i' c.regs = some e) ∧ d.base ≤ a ∧ a < d.base + d.len ∧ e.base ≤ a ∧
      a < e.base + e.len) := by
  refine ⟨⟨{ twoInstances with
      inbox := [cmd .rgb2hsv], block := { Block.reset with regs := { frameA 1 1 2 with aBase := 0, dBase := 0x105 } } },
    4, [], composeState.block, _, .rgb2hsv, .compose, ⟨0x105, 3⟩, ⟨0x100, 6⟩, 0x105, rfl, rfl, rfl, ?_, rfl, by decide,
    by decide, by decide, .inl ?_, by decide, by decide, by decide, by decide⟩,
    ⟨{ twoInstances with
      inbox := [cmd .rgb2hsv], block := { Block.reset with regs := { frameA 1 1 2 with aBase := 0x307, dBase := 0 } } },
    4, [], composeState.block, _, .rgb2hsv, .compose, ⟨0x307, 3⟩, ⟨0x300, 8⟩, 0x307, rfl, rfl, rfl, ?_, rfl, by decide,
    by decide, ⟨?_, by decide⟩, by decide, by decide, by decide, by decide⟩⟩
  all_goals decide

/-- A state that meets the invariant and takes a step that is not idle. -/
theorem witness_StepKeepsTheInvariant :
    ∃ s t : State, s.Inv ∧ s ≠ t ∧ step s = .next t := by
  refine ⟨arriving [wr .aBase 5], _, ⟨by decide, by decide, by decide, ?_, by simp [State.blocks, arriving, State.reset]⟩,
    ?_, rfl⟩
  · intro b hb
    have hb : b = Block.reset := by simpa [State.blocks, arriving, State.reset] using hb
    subst hb
    exact ⟨by decide, by decide, by decide, by decide, by intro c hc; cases hc⟩
  · decide

theorem witness_StepStopsOnlyOnBrokenHostDuties :
    (∃ s : State, step s = .fault .hostWroteLiveExtent) ∧ (∃ s : State, step s = .fault .addressBeyondMemory) ∧
      (∃ s : State, step s = .fault .sharedExtents) :=
  ⟨⟨{ composeState with inbox := [.memWrite 0x100 [1]] }, rfl⟩, ⟨arriving [.memRead 0x10000 1], rfl⟩,
    ⟨{ twoInstances with
        inbox := [cmd .rgb2hsv], block := { Block.reset with regs := { frameA 1 1 2 with aBase := 0, dBase := 0x105 } } },
      rfl⟩⟩

theorem witness_StepKeepsThePlatform : ∃ s t : State, step s = .next t ∧ s ≠ t :=
  ⟨composeState, _, rfl, by decide⟩

/-- The last instance, and an event of each form. -/
theorem witness_EveryInstanceActsAsInstanceZero :
    ∀ e ∈ [Event.regWrite 1 32 0x08 1, .regRead 1 32 0x04, .irqRead 1, .block 1, .reset 1 true],
      ∃ (s : State) (rest : List Event), 1 ≤ s.others.length ∧ s.inbox = e :: rest :=
  fun e _ => ⟨{ twoInstances with inbox := [e] }, [], le_rfl, rfl⟩

end Sys2Proof.Tests
end

section
/-! PROOFS. 00_scope.md: isqrt and round_sqrt (R8, R243), and the parameters of the platform (R6, R292). -/

namespace Sys2Proof.Machine

/-! ### The square root (R8, R243) -/

/-- m is the integer part of the square root of n. -/
def IsFloorSqrt (n m : Nat) : Prop := m * m ≤ n ∧ n < (m + 1) * (m + 1)

/-- The bit-by-bit search: while b bits remain, the root lies in [m, m + 2^b), and each bit halves that range. -/
theorem isqrtBits_isFloorSqrt (n b : Nat) :
    ∀ m, m * m ≤ n → n < (m + 2 ^ b) * (m + 2 ^ b) → IsFloorSqrt n (isqrtBits n b m) := by
  induction b with
  | zero => exact fun m hlo hhi => ⟨hlo, hhi⟩
  | succ b ih =>
    intro m hlo hhi
    have hhalves : m + 2 ^ (b + 1) = m + 2 ^ b + 2 ^ b := by rw [pow_succ]; omega
    rw [hhalves] at hhi
    unfold isqrtBits
    split
    case isTrue hfits => exact ih (m + 2 ^ b) hfits hhi
    case isFalse hexceeds => exact ih m hlo (not_le.mp hexceeds)

/-- The bits that isqrt searches reach beyond the root. -/
theorem lt_sq_two_pow_log2 (n : Nat) : n < 2 ^ (n.log2 / 2 + 1) * 2 ^ (n.log2 / 2 + 1) :=
  calc n < 2 ^ (n.log2 + 1) := Nat.lt_log2_self
    _ ≤ 2 ^ ((n.log2 / 2 + 1) + (n.log2 / 2 + 1)) := Nat.pow_le_pow_right two_pos (by omega)
    _ = 2 ^ (n.log2 / 2 + 1) * 2 ^ (n.log2 / 2 + 1) := pow_add ..

theorem isqrt_isFloorSqrt (n : Nat) : IsFloorSqrt n (isqrt n) :=
  isqrtBits_isFloorSqrt n _ 0 (Nat.zero_le n) (by simpa using lt_sq_two_pow_log2 n)

/-- round_sqrt rounds up exactly where n lies beyond m·m + m, the last integer below the square of m + 1/2. -/
theorem roundSqrt_cases (n : Nat) :
    (roundSqrt n = isqrt n ∧ n ≤ isqrt n * isqrt n + isqrt n) ∨
      (roundSqrt n = isqrt n + 1 ∧ isqrt n * isqrt n + isqrt n < n) := by
  unfold roundSqrt
  split <;> omega

theorem two_mul_add_one_sq (m : Nat) : (2 * m + 1) * (2 * m + 1) = 4 * (m * m + m) + 1 := by ring

/-- √n is below roundSqrt n + 1/2, in integers. -/
theorem four_mul_lt_roundSqrt (n : Nat) : 4 * n < (2 * roundSqrt n + 1) * (2 * roundSqrt n + 1) := by
  obtain ⟨_, hbelow⟩ := isqrt_isFloorSqrt n
  rcases roundSqrt_cases n with ⟨hr, hn⟩ | ⟨hr, _⟩ <;> rw [hr, two_mul_add_one_sq] <;> omega

/-- √n is above roundSqrt n - 1/2, in integers. -/
theorem roundSqrt_lt_four_mul (n : Nat) :
    roundSqrt n = 0 ∨ (2 * roundSqrt n - 1) * (2 * roundSqrt n - 1) < 4 * n := by
  obtain ⟨habove, _⟩ := isqrt_isFloorSqrt n
  cases hround : roundSqrt n with
  | zero => exact .inl rfl
  | succ r =>
    right
    rw [show 2 * (r + 1) - 1 = 2 * r + 1 by omega, two_mul_add_one_sq]
    rcases roundSqrt_cases n with ⟨hr, _⟩ | ⟨hr, hn⟩
    · have hsq : (r + 1) * (r + 1) = r * r + 2 * r + 1 := by ring
      rw [← hr, hround, hsq] at habove
      omega
    · obtain rfl : r = isqrt n := by omega
      omega

/-- Settles O38: isqrt by the interval its search halves, round_sqrt by the case it rounds in. -/
theorem roundSqrtIsTheNearestInteger : Obligations.RoundSqrtIsTheNearestInteger := fun n =>
  have ⟨hle, hlt⟩ := isqrt_isFloorSqrt n
  ⟨hle, hlt, four_mul_lt_roundSqrt n, roundSqrt_lt_four_mul n⟩

/-! ### The platform (R6, R292)

No operation touches the parameters, and the only one that writes to the other instances is `focus`, which exchanges two. -/

/-- What a state holds of the platform: the parameters (R6) and how many further instances there are (R292). -/
def State.shape (s : State) : Platform × Nat := (s.platform, s.others.length)

theorem State.shape_eq_iff {s t : State} :
    t.shape = s.shape ↔ t.platform = s.platform ∧ t.others.length = s.others.length := Prod.mk_inj

@[simp] theorem State.focus_shape (s : State) (k : Nat) : (s.focus k).shape = s.shape := by simp [State.shape]

@[simp] theorem State.answer_shape (s : State) (r : Reply) : (s.answer r).shape = s.shape := rfl

@[simp] theorem State.withBlock_shape (s : State) (b : Block) : ({ s with block := b } : State).shape = s.shape := rfl

@[simp] theorem State.withInbox_shape (s : State) (l : List Event) : ({ s with inbox := l } : State).shape = s.shape := rfl

@[simp] theorem State.releaseReset_shape (s : State) : s.releaseReset.shape = s.shape := rfl

@[simp] theorem State.assertReset_shape (s : State) : s.assertReset.shape = s.shape := by simp [State.shape]

@[simp] theorem State.regRead_shape (s : State) (bits : Nat) (off : BitVec 8) : (s.regRead bits off).shape = s.shape := by
  rcases s.regRead_cases bits off with ⟨_, h⟩ | ⟨_, _, h⟩ | ⟨_, reg, _, h⟩ <;> simp [h]

@[simp] theorem State.waitTurn_shape (s : State) (k : Nat) : (s.waitTurn k).shape = s.shape := by
  rcases s.waitTurn_cases k with h | ⟨_, h⟩
  · simp [h]
  · rw [h]
    exact s.regRead_shape 32 Reg.status.offset

@[simp] theorem State.irqRead_shape (s : State) : s.irqRead.shape = s.shape := by
  unfold State.irqRead
  split <;> simp

/-- Where f gives a next state, the platform is as before. -/
def KeepsShape (f : State → Host.Outcome State Fault Refusal) : Prop := ∀ ⦃s t⦄, f s = .next t → t.shape = s.shape

theorem KeepsShape.of_next {g : State → State} (hg : ∀ s, (g s).shape = s.shape) : KeepsShape fun s => .next (g s) := by
  rintro s _ ⟨⟩
  exact hg s

theorem KeepsShape.ite {c : State → Bool} {f g : State → Host.Outcome State Fault Refusal} (hf : KeepsShape f)
    (hg : KeepsShape g) : KeepsShape fun s => if c s then f s else g s := by
  intro s t h
  dsimp only at h
  split at h
  · exact hf h
  · exact hg h

theorem KeepsShape.onInstance {f : State → Host.Outcome State Fault Refusal} (hf : KeepsShape f) (k : Nat) :
    KeepsShape (onInstance k f) := by
  intro s t h
  obtain ⟨u, hu, rfl⟩ := mapNext_eq_next h
  calc (u.focus k).shape = u.shape := u.focus_shape k
    _ = (s.focus k).shape := hf hu
    _ = s.shape := s.focus_shape k

theorem exec_keepsShape (i : Instr) : KeepsShape (exec i) := by
  intro s t h
  rcases exec_cases i s with ⟨_, he⟩ | ⟨c, _, _, he⟩ | ⟨c, n, _, _, _, _, he⟩ <;> rw [he] at h
  case inl => cases h
  all_goals cases h; rfl

theorem blockTurn_keepsShape : KeepsShape blockTurn := by
  intro s t h
  rcases blockTurn_cases s with ⟨_, hb⟩ | ⟨c, e, _, _, hb⟩ | ⟨c, i, _, _, hb⟩ <;> rw [hb] at h
  case inl => cases h; rfl
  case inr.inl => cases h; rfl
  case inr.inr => exact exec_keepsShape i h

theorem State.writeCmd_keepsShape (w : Word) : KeepsShape fun s => s.writeCmd w := by
  intro s t (h : s.writeCmd w = .next t)
  rcases s.writeCmd_cases w with ⟨_, hw⟩ | ⟨_, _, hw⟩ | ⟨_, _, hw⟩ <;> rw [hw] at h
  case inr.inl => cases h
  all_goals cases h; rfl

theorem State.regWrite_keepsShape (bits : Nat) (off : BitVec 8) (v : Word) : KeepsShape fun s => s.regWrite bits off v := by
  intro s t (h : s.regWrite bits off v = .next t)
  rcases s.regWrite_cases bits off v with ⟨_, hw⟩ | ⟨_, _, hw⟩ | ⟨_, _, hw⟩ | ⟨_, reg, _, _, hw⟩ <;> rw [hw] at h
  case inr.inr.inl => exact State.writeCmd_keepsShape v h
  all_goals cases h; rfl

theorem State.memWrite_keepsShape (a : Word) (bytes : List Byte) : KeepsShape fun s => s.memWrite a bytes := by
  intro s t (h : s.memWrite a bytes = .next t)
  rcases s.memWrite_cases a bytes with ⟨_, hw⟩ | ⟨_, _, hw⟩ | ⟨_, _, hw⟩ <;> rw [hw] at h
  case inr.inr => cases h; rfl
  all_goals cases h

theorem State.memRead_keepsShape (a : Word) (n : Nat) : KeepsShape fun s => s.memRead a n := by
  intro s t (h : s.memRead a n = .next t)
  rcases s.memRead_cases a n with ⟨_, hr⟩ | ⟨_, hr⟩ <;> rw [hr] at h
  case inl => cases h
  case inr => cases h; rfl

/-- Every event, also one addressed to a block that the platform does not hold. -/
theorem perform_keepsShape (e : Event) : KeepsShape (perform e) := by
  have hrefused : KeepsShape fun s => .next (s.answer .refused) := .of_next fun s => s.answer_shape .refused
  have hnothing : KeepsShape fun s => .next s := .of_next fun _ => rfl
  cases e with
  | regWrite k bits off v => exact .ite (.onInstance (State.regWrite_keepsShape bits off v) k) hrefused
  | regRead k bits off => exact .ite (.onInstance (.of_next fun s => s.regRead_shape bits off) k) hrefused
  | wait k => exact .ite (.onInstance (.of_next fun s => s.waitTurn_shape k) k) hrefused
  | irqRead k => exact .ite (.onInstance (.of_next State.irqRead_shape) k) hrefused
  | memWrite a bytes => exact State.memWrite_keepsShape a bytes
  | memRead a n => exact State.memRead_keepsShape a n
  | block k => exact .ite (.onInstance blockTurn_keepsShape k) hnothing
  | reset k asserted =>
    refine .ite (.onInstance (.of_next fun s => ?_) k) hnothing
    cases asserted
    · exact s.releaseReset_shape
    · exact s.assertReset_shape

/-- A step is an event, the turn of the first block that holds a command, or nothing. -/
theorem step_keepsShape : KeepsShape step := by
  intro s t h
  cases hin : s.inbox with
  | cons e rest =>
    rw [step_of_inbox hin] at h
    exact (perform_keepsShape e h).trans (s.withInbox_shape rest)
  | nil =>
    unfold step turn at h
    rw [hin] at h
    cases hp : s.pendingInstance with
    | some k => rw [hp] at h; exact blockTurn_keepsShape.onInstance k h
    | none => rw [hp] at h; cases h; rfl

/-- Settles O59, by the cases of a step: each operation keeps the platform, and so does the exchange of two instances. -/
theorem stepKeepsThePlatform : Obligations.StepKeepsThePlatform := fun _ _ h =>
  State.shape_eq_iff.mp (step_keepsShape h)

end Sys2Proof.Machine
end

section
/-! PROOFS. 10_state.md: the register port (R22 to R29, R300), the state after reset (R43), what a result depends on (R41, R61,
R112), and the invariant of the machine (R25, R37, R38, R60, R111, R117, R292). -/

namespace Sys2Proof.Machine

/-! ### Which accesses the port takes (R28, R300) -/

theorem accessWf_iff {bits : Nat} {off : BitVec 8} : accessWf bits off = true ↔ bits = 32 ∧ off.toNat % 4 = 0 := by
  simp [accessWf]

theorem State.portTakes_iff {s : State} {bits : Nat} {off : BitVec 8} :
    s.portTakes bits off = true ↔ s.block.inReset = false ∧ bits = 32 ∧ off.toNat % 4 = 0 := by
  rw [State.portTakes, Bool.and_eq_true, Bool.not_eq_true', accessWf_iff]

theorem State.portTakes_offset {s : State} (h : s.block.inReset = false) (reg : Reg) :
    s.portTakes 32 reg.offset = true := by
  simp [State.portTakes, h]

theorem State.regWrite_refused {s : State} {bits : Nat} {off : BitVec 8} (h : s.portTakes bits off = false) (v : Word) :
    s.regWrite bits off v = .next (s.answer .refused) := by
  simp [State.regWrite, h]

theorem State.regRead_refused {s : State} {bits : Nat} {off : BitVec 8} (h : s.portTakes bits off = false) :
    s.regRead bits off = s.answer .refused := by
  simp [State.regRead, h]

/-- Settles O46: an access of another form, or during reset, is one the port does not take. -/
theorem accessesOutsideTheInterfaceHaveNoEffect : Obligations.AccessesOutsideTheInterfaceHaveNoEffect := by
  intro s bits off v rest hform
  have hrefused : ({ s with inbox := rest } : State).portTakes bits off = false := by
    rw [← Bool.not_eq_true, State.portTakes_iff]
    rintro ⟨hrun, hbits, hoff⟩
    rcases hform with h | h | h
    · exact h hbits
    · exact h hoff
    · exact absurd (hrun.symm.trans h) (by decide)
  constructor <;> intro hin
  · rw [step_regWrite hin, State.regWrite_refused hrefused]; rfl
  · rw [step_regRead hin, State.regRead_refused hrefused]; rfl

/-! ### The register map (R23) -/

/-- No register stands at a reserved offset. -/
theorem Reg.offset_not_reserved (reg : Reg) :
    ¬ (reg.offset.toNat = 0x0C ∨ reg.offset.toNat = 0x3C ∨ (0x44 ≤ reg.offset.toNat ∧ reg.offset.toNat ≤ 0x4C) ∨
      0x64 ≤ reg.offset.toNat) := by
  cases reg <;> decide

theorem Reg.ofOffset_reserved {off : BitVec 8}
    (h : off.toNat = 0x0C ∨ off.toNat = 0x3C ∨ (0x44 ≤ off.toNat ∧ off.toNat ≤ 0x4C) ∨ 0x64 ≤ off.toNat) :
    Reg.ofOffset off = none := by
  refine List.find?_eq_none.mpr fun reg _ hoff => reg.offset_not_reserved ?_
  rwa [beq_iff_eq.mp hoff]

/-- Settles O41: the port takes the access, and no register answers it. -/
theorem reservedOffsetsReadZeroAndIgnoreWrites : Obligations.ReservedOffsetsReadZeroAndIgnoreWrites := by
  intro s off v rest hrun halign hres
  have htakes : ({ s with inbox := rest } : State).portTakes 32 off = true := State.portTakes_iff.mpr ⟨hrun, rfl, halign⟩
  have hnone := Reg.ofOffset_reserved hres
  constructor <;> intro hin
  · rw [step_regWrite hin]
    simp [State.regWrite, htakes, hnone]
  · rw [step_regRead hin]
    simp [State.regRead, htakes, hnone, State.answer]

/-- Settles O48: the offsets and the reset values, register by register. -/
theorem resetLeavesTheSpecifiedRegisters : Obligations.ResetLeavesTheSpecifiedRegisters :=
  ⟨rfl, rfl, rfl, rfl⟩

/-! ### A write and a read of one register -/

theorem step_regWrite_cmd {s : State} {w : Word} {rest : List Event} (hrun : s.block.inReset = false)
    (hin : s.inbox = .regWrite 0 32 Reg.cmd.offset w :: rest) :
    step s = ({ s with inbox := rest } : State).writeCmd w := by
  rw [step_regWrite hin]
  simp [State.regWrite, State.portTakes_offset (s := { s with inbox := rest }) hrun]

theorem step_regWrite_reg {s : State} {reg : Reg} {v : Word} {rest : List Event} (hreg : reg ≠ .cmd)
    (hrun : s.block.inReset = false) (hin : s.inbox = .regWrite 0 32 reg.offset v :: rest) :
    step s = .next { s with inbox := rest, block := s.block.writeReg v reg } := by
  rw [step_regWrite hin]
  have htakes := State.portTakes_offset (s := { s with inbox := rest }) hrun reg
  cases reg
  case cmd => exact absurd rfl hreg
  all_goals simp [State.regWrite, htakes]

theorem step_regRead_reg {s : State} {reg : Reg} {rest : List Event} (hrun : s.block.inReset = false)
    (hin : s.inbox = .regRead 0 32 reg.offset :: rest) :
    step s = .next { s with
      inbox := rest, block := s.block.afterRead reg, replies := .word (s.block.readReg reg) :: s.replies } := by
  rw [step_regRead hin]
  simp [State.regRead, State.portTakes_offset (s := { s with inbox := rest }) hrun, State.answer]

theorem Block.afterRead_of_ne_status (b : Block) {reg : Reg} (h : reg ≠ .status) : b.afterRead reg = b := by
  simp [Block.afterRead, h]

@[simp] theorem Block.writeReg_pending (b : Block) (v : Word) (reg : Reg) : (b.writeReg v reg).pending = b.pending := by
  cases reg <;> rfl

@[simp] theorem Block.writeReg_inReset (b : Block) (v : Word) (reg : Reg) : (b.writeReg v reg).inReset = b.inReset := by
  cases reg <;> rfl

/-- A descriptor or configuration register is storage of its own (R23). -/
theorem Block.writeReg_eq_set {reg : Reg} (hctrl : reg ≠ .ctrl) (hstatus : reg ≠ .status) (b : Block) (v : Word) :
    b.writeReg v reg = { b with regs := b.regs.set v reg } := by
  cases reg
  case ctrl => exact absurd rfl hctrl
  case status => exact absurd rfl hstatus
  all_goals rfl

/-- The register file: the register written reads the value, every other register as before. -/
theorem Block.readReg_set {reg : Reg} (hctrl : reg ≠ .ctrl) (hstatus : reg ≠ .status) (hcmd : reg ≠ .cmd) (b : Block)
    (v : Word) (reg' : Reg) :
    ({ b with regs := b.regs.set v reg } : Block).readReg reg' = if reg' = reg then v else b.readReg reg' := by
  cases reg
  case ctrl => exact absurd rfl hctrl
  case status => exact absurd rfl hstatus
  case cmd => exact absurd rfl hcmd
  all_goals cases reg' <;> rfl

/-- Settles O40, by the laws of the register file over the two steps. -/
theorem descriptorsReadBackWhatWasWritten : Obligations.DescriptorsReadBackWhatWasWritten := by
  intro s reg v rest hctrl hstatus hcmd hrun hin
  have hwrite := step_regWrite_reg hcmd hrun hin
  rw [Block.writeReg_eq_set hctrl hstatus] at hwrite
  refine ⟨_, _, hwrite, step_regRead_reg hrun rfl, ?_, fun reg' hne => ?_, ?_⟩
  · simp [Block.readReg_set hctrl hstatus hcmd]
  · simp [Block.afterRead_of_ne_status _ hstatus, Block.readReg_set hctrl hstatus hcmd, hne]
  · rw [Block.afterRead_of_ne_status _ hstatus]

/-! ### CTRL, STATUS and irq (R24, R25, R29) -/

/-- CTRL holds IRQ_EN in bit 0 (R24). -/
theorem Block.ctrlWord_getLsbD (b : Block) (i : Nat) : b.ctrlWord.getLsbD i = (decide (i = 0) && b.irqEn) := by
  cases i <;> simp [-BitVec.getLsbD_eq_getElem, Block.ctrlWord, BitVec.getLsbD_append (m := 1)]

theorem Block.ctrlWord_writeCtrl (b : Block) (v : Word) : (b.writeCtrl v).ctrlWord = v &&& 1 := by
  ext i hi
  rw [← BitVec.getLsbD_eq_getElem, Block.ctrlWord_getLsbD]
  by_cases h : i = 0 <;> simp [h, BitVec.getElem_one]

/-- Settles O43, by the laws of CTRL over the two steps. -/
theorem ctrlHoldsOnlyIrqEnable : Obligations.CtrlHoldsOnlyIrqEnable := by
  intro s v rest hrun hin
  refine ⟨_, _, step_regWrite_reg (reg := .ctrl) (by decide) hrun hin, step_regRead_reg (reg := .ctrl) hrun rfl, rfl, ?_, ?_⟩
  · exact congrArg (fun w => Reply.word w :: s.replies) (s.block.ctrlWord_writeCtrl v)
  · rw [Block.afterRead_of_ne_status _ (by decide)]

/-- What STATUS holds, bit by bit (R25). -/
theorem Block.statusWord_getLsbD (b : Block) (i : Nat) :
    b.statusWord.getLsbD i =
      if i = 0 then b.busy else if i = 1 then b.done else if i = 2 then b.err else if i = 3 then b.cmdLost
      else decide (8 ≤ i ∧ i < 12) && b.errCode.number.getLsbD (i - 8) := by
  rcases i with _ | _ | _ | _ | i <;>
    simp [-BitVec.getLsbD_eq_getElem, Block.statusWord, BitVec.getLsbD_append (m := 1), BitVec.getLsbD_append (m := 4)]
  rw [← Bool.and_assoc]
  congr 1
  rw [Bool.eq_iff_iff]
  simp only [Bool.and_eq_true, Bool.not_eq_true', decide_eq_true_eq, decide_eq_false_iff_not]
  omega

/-- The three fields of STATUS above bit 3: ERRCODE, and the reserved bits on either side of it (R25). -/
theorem Block.statusWord_fields (b : Block) :
    b.statusWord.extractLsb' 8 4 = b.errCode.number ∧ b.statusWord.extractLsb' 4 4 = 0 ∧
      b.statusWord.extractLsb' 12 20 = 0 := by
  refine ⟨?_, ?_, ?_⟩ <;> ext i hi <;> rw [BitVec.getElem_extractLsb', Block.statusWord_getLsbD]
  · simp [hi, show ¬ 8 + i = 1 by omega, show ¬ 8 + i = 2 by omega, show ¬ 8 + i = 3 by omega,
      show 8 + i < 12 by omega]
  · simp [show ¬ 4 + i = 1 by omega, show ¬ 4 + i = 2 by omega, show ¬ 4 + i = 3 by omega, show ¬ 8 ≤ 4 + i by omega]
  · simp [show ¬ 12 + i = 1 by omega, show ¬ 12 + i = 2 by omega, show ¬ 12 + i = 3 by omega]

theorem Block.clearStatus_eq (b : Block) (v : Word) :
    b.clearStatus v = { b with
      done := if v.getLsbD 1 then false else b.done
      err := if v.getLsbD 2 then false else b.err
      cmdLost := if v.getLsbD 3 then false else b.cmdLost } := by
  unfold Block.clearStatus
  cases v.getLsbD 1 <;> cases v.getLsbD 2 <;> cases v.getLsbD 3 <;> simp

/-- Settles O42: the bits of STATUS, and the step of a write to it. -/
theorem statusWordAndItsClearBits : Obligations.StatusWordAndItsClearBits := by
  refine ⟨by decide, fun b => ?_, fun s v rest hrun hin => ?_⟩
  · refine ⟨?_, ?_, ?_, ?_, b.statusWord_fields⟩ <;> exact b.statusWord_getLsbD _
  · rw [step_regWrite_reg (reg := .status) (by decide) hrun hin, ← s.block.clearStatus_eq v]
    rfl

/-- Settles O44: each of the three writes takes a factor of the formula away. -/
theorem irqFollowsDoneAndErr : Obligations.IrqFollowsDoneAndErr := by
  refine fun b => ⟨rfl, rfl, ?_, ?_, fun w => ?_⟩
  · have hdone : (0x0000000E : Word).getLsbD 1 = true := by decide
    have herr : (0x0000000E : Word).getLsbD 2 = true := by decide
    rw [Block.irq, Block.clearStatus_done, Block.clearStatus_err, hdone, herr]
    simp
  · simp [Block.irq]
  · simp [Block.irq]

/-! ### Writes while a command is pending (R27, R28, R112) -/

/-- A CMD write while BUSY is dropped (R27). -/
theorem State.writeCmd_busy (s : State) {c : Snapshot} (h : s.block.pending = some c) (w : Word) :
    s.writeCmd w = .next { s with block := { s.block with cmdLost := true } } := by
  simp [State.writeCmd, Block.busy, h]

/-- Settles O6. -/
theorem commandWhileBusyIsDropped : Obligations.CommandWhileBusyIsDropped := by
  intro s w c rest hin hrun hpend
  exact (step_regWrite_cmd hrun hin).trans (State.writeCmd_busy { s with inbox := rest } hpend w)

/-- Settles O45, by the four things a register write can be. -/
theorem registerWritesLeaveTheSnapshot : Obligations.RegisterWritesLeaveTheSnapshot := by
  intro s bits off v c rest hin hpend
  rw [step_regWrite hin]
  rcases State.regWrite_cases { s with inbox := rest } bits off v with
    ⟨_, hw⟩ | ⟨_, _, hw⟩ | ⟨_, _, hw⟩ | ⟨_, reg, _, _, hw⟩
  case inr.inr.inl => exact ⟨_, hw.trans (State.writeCmd_busy { s with inbox := rest } hpend v), hpend, rfl, rfl, rfl⟩
  case inr.inr.inr => exact ⟨_, hw, (Block.writeReg_pending ..).trans hpend, rfl, rfl, rfl⟩
  all_goals exact ⟨_, hw, hpend, rfl, rfl, rfl⟩

/-! ### What a result depends on (R41, R61, R112)

Every address that a command reads after validation lies in an input extent, so memories that agree there give it the same
output. -/

/-- Two memories hold the same bytes in a region. -/
def SameIn (rd rd' : Nat → Byte) (base len : Nat) : Prop := ∀ k < len, rd' (base + k) = rd (base + k)

theorem SameIn.mono {rd rd' : Nat → Byte} {base len len' : Nat} (h : SameIn rd rd' base len) (hle : len' ≤ len) :
    SameIn rd rd' base len' := fun k hk => h k (lt_of_lt_of_le hk hle)

/-- Byte c of pixel p lies in a frame of n pixels. -/
theorem pixel_offset_lt {n bpp p c : Nat} (hp : p < n) (hc : c < bpp) : p * bpp + c < n * bpp :=
  calc p * bpp + c < p * bpp + bpp := by omega
    _ = (p + 1) * bpp := (Nat.succ_mul p bpp).symm
    _ ≤ n * bpp := Nat.mul_le_mul_right bpp hp

theorem SameIn.pixel {rd rd' : Nat → Byte} {base n bpp p c : Nat} (h : SameIn rd rd' base (n * bpp)) (hp : p < n)
    (hc : c < bpp) : rd' (base + p * bpp + c) = rd (base + p * bpp + c) := by
  rw [Nat.add_assoc]
  exact h _ (pixel_offset_lt hp hc)

/-! #### The regions a command reads -/

/-- A command past the checks of format and dimensions, before two memories that agree on its input extents. -/
structure SameInputs (i : Instr) (r : OpRegs) (rd rd' : Nat → Byte) : Prop where
  format : badFormat i r = false
  dimensions : badDimensions i r = false
  extents : ∀ e ∈ inputExtents i r, SameIn rd rd' e.base e.len

section
variable {i : Instr} {r : OpRegs} {rd rd' : Nat → Byte}

/-- The format of A is one that the command accepts, and the A frame is an input (R96). -/
theorem SameInputs.frameA (h : SameInputs i r rd rd') :
    ∃ f, formatA r = some f ∧ acceptsA i f = true ∧ SameIn rd rd' r.aBase.toNat (f.size r.w r.h) := by
  have hformat := h.format
  rw [badFormat, Bool.or_eq_false_iff, Bool.not_eq_false', Option.any_eq_true] at hformat
  obtain ⟨⟨f, hf, haccepts⟩, -⟩ := hformat
  have hextent : extentA r = some ⟨r.aBase.toNat, f.size r.w r.h⟩ := by rw [extentA, hf]; rfl
  exact ⟨f, hf, haccepts, h.extents ⟨r.aBase.toNat, f.size r.w r.h⟩ (by simp [inputExtents, hextent])⟩

/-- Every command but SOBEL reads a packed frame (R95, R96). -/
theorem bpp_of_acceptsA {f : Format} (h : acceptsA i f = true) (hi : i ≠ .sobel) : ∃ bpp, f.bpp = some bpp := by
  cases i
  case sobel => exact absurd rfl hi
  all_goals cases f <;> simp_all [acceptsA, Format.packed, Format.bpp]

theorem SameInputs.bppA (h : SameInputs i r rd rd') (hi : i ≠ .sobel) :
    (formatA r).bind Format.bpp = some (bppA r) := by
  obtain ⟨f, hf, haccepts, -⟩ := h.frameA
  obtain ⟨bpp, hbpp⟩ := bpp_of_acceptsA haccepts hi
  simp [Machine.bppA, hf, hbpp]

theorem SameInputs.packedA (h : SameInputs i r rd rd') (hi : i ≠ .sobel) :
    SameIn rd rd' r.aBase.toNat (r.w * r.h * Machine.bppA r) := by
  obtain ⟨f, hf, -, hsame⟩ := h.frameA
  have hbpp := h.bppA hi
  rw [hf, Option.bind_some] at hbpp
  simpa [Format.size, hbpp] using hsame

/-- COMPOSE and the conversions read three bytes per pixel (R96). -/
theorem SameInputs.tripleA (h : SameInputs i r rd rd')
    (hi : i = .compose ∨ i = .rgb2hsv ∨ i = .hsv2rgb ∨ i = .autostretch ∨ i = .colorenhance) :
    SameIn rd rd' r.aBase.toNat (r.w * r.h * 3) := by
  obtain ⟨f, -, haccepts, hsame⟩ := h.frameA
  have hbpp : f.bpp = some 3 := by
    rcases hi with rfl | rfl | rfl | rfl | rfl <;> cases f <;> simp_all [acceptsA, Format.bpp]
  simpa [Format.size, hbpp] using hsame

/-- SOBEL reads the luma plane of A (R240). -/
theorem SameInputs.lumaA (h : SameInputs .sobel r rd rd') : SameIn rd rd' r.aBase.toNat (r.w * r.h) := by
  obtain ⟨f, -, haccepts, hsame⟩ := h.frameA
  obtain rfl : f = .i420 := by simpa [acceptsA] using haccepts
  exact hsame.mono (Nat.le_add_right ..)

/-- Operand B is a frame of A's format and dimensions (R96, R113). -/
theorem SameInputs.packedB (h : SameInputs i r rd rd') (hB : usesB i = true) :
    SameIn rd rd' r.bBase.toNat (r.w * r.h * Machine.bppA r) := by
  have hsobel : i ≠ .sobel := by rintro rfl; cases hB
  have hformat : r.bFmt = r.aFmt := by
    have := (Bool.or_eq_false_iff.mp h.format).2
    simpa [hB] using this
  have hdim : r.bWidth = r.aWidth ∧ r.bHeight = r.aHeight := by
    have := (Bool.or_eq_false_iff.mp h.dimensions).2
    simpa [hB] using this
  obtain ⟨hw, hh⟩ := hdim
  have hbpp := h.bppA hsobel
  have hextent : extentB r = some ⟨r.bBase.toNat, r.w * r.h * Machine.bppA r⟩ := by
    rw [extentB, hformat, ← formatA, hbpp, hw, hh]
    rfl
  exact h.extents ⟨r.bBase.toNat, r.w * r.h * Machine.bppA r⟩ (by simp [inputExtents, hB, hextent])

/-- The mask has one byte per pixel of A (R30, R113). -/
theorem SameInputs.mask (h : SameInputs i r rd rd') (hM : usesM i = true) : SameIn rd rd' r.mBase.toNat (r.w * r.h) := by
  have hdim : r.mWidth = r.aWidth ∧ r.mHeight = r.aHeight := by
    have := (Bool.or_eq_false_iff.mp h.dimensions).1
    simpa [hM] using this
  obtain ⟨hw, hh⟩ := hdim
  have := h.extents (extentM r) (by simp [inputExtents, hM])
  rwa [extentM, hw, hh] at this

end

/-! #### What each command computes, from the regions it reads -/

section
variable {r : OpRegs} {rd rd' : Nat → Byte}

theorem composeBytes_congr (hA : SameIn rd rd' r.aBase.toNat (r.w * r.h * 3)) (hM : SameIn rd rd' r.mBase.toNat (r.w * r.h)) :
    composeBytes r rd' = composeBytes r rd := by
  refine List.flatMap_congr fun p hp => ?_
  have hp := List.mem_range.mp hp
  have hpixel := fun c (hc : c < 3) => hA.pixel hp hc
  simp only [Nat.mul_comm p 3] at hpixel
  simp only [composePixel, hM p hp, hpixel 1 (by decide), hpixel 2 (by decide)]
  exact congrArg (fun v => [_, v, _, _]) (hpixel 0 (by decide))

theorem blendBytes_congr (hA : SameIn rd rd' r.aBase.toNat (r.w * r.h * bppA r))
    (hB : SameIn rd rd' r.bBase.toNat (r.w * r.h * bppA r)) (hM : SameIn rd rd' r.mBase.toNat (r.w * r.h)) :
    blendBytes r rd' = blendBytes r rd := by
  refine List.flatMap_congr fun p hp => List.map_congr_left fun c hc => ?_
  have hp := List.mem_range.mp hp
  have hc := List.mem_range.mp hc
  rw [hM p hp, hA.pixel hp hc, hB.pixel hp hc]

theorem subtractBytes_congr (hA : SameIn rd rd' r.aBase.toNat (r.w * r.h * bppA r))
    (hB : SameIn rd rd' r.bBase.toNat (r.w * r.h * bppA r)) : subtractBytes r rd' = subtractBytes r rd := by
  refine List.flatMap_congr fun p hp => List.map_congr_left fun c hc => ?_
  have hp := List.mem_range.mp hp
  have hc := List.mem_range.mp hc
  rw [hA.pixel hp hc, hB.pixel hp hc]

theorem readTriple_congr (hA : SameIn rd rd' r.aBase.toNat (r.w * r.h * 3)) {p : Nat} (hp : p < r.w * r.h) :
    readTriple r rd' p = readTriple r rd p := by
  have hpixel := fun c (hc : c < 3) => hA.pixel hp hc
  simp only [Nat.mul_comm p 3] at hpixel
  simp only [readTriple, hpixel 1 (by decide), hpixel 2 (by decide)]
  exact congrArg (fun v => Triple.mk v.toNat _ _) (hpixel 0 (by decide))

/-- The commands on three-byte pixels read A through `rgbFrame` only. -/
theorem rgbFrame_congr (hA : SameIn rd rd' r.aBase.toNat (r.w * r.h * 3)) : rgbFrame r rd' = rgbFrame r rd :=
  List.map_congr_left fun _ hp => readTriple_congr hA (List.mem_range.mp hp)

theorem hsvFrame_eq (r : OpRegs) (rd : Nat → Byte) : hsvFrame r rd = (rgbFrame r rd).map toHSV := by
  simp [hsvFrame, rgbFrame]

theorem rgb2hsvBytes_eq (r : OpRegs) (rd : Nat → Byte) :
    rgb2hsvBytes r rd = (rgbFrame r rd).flatMap fun t => (toHSV t).bytes := by
  simp [rgb2hsvBytes, rgbFrame, List.flatMap_map]

theorem hsv2rgbBytes_eq (r : OpRegs) (rd : Nat → Byte) :
    hsv2rgbBytes r rd = (rgbFrame r rd).flatMap fun t => (toRGB t).bytes := by
  simp [hsv2rgbBytes, rgbFrame, List.flatMap_map]

/-- The scan reads pixels of the frame only: its own and those of its windows (R212). -/
theorem despecklePixel_congr (cfg : DespeckleConfig) {w h : Nat} {input input' : Nat → Pixel}
    (hin : ∀ q < w * h, input' q = input q) (st : Scan) {p : Nat} (hp : p < w * h) :
    despecklePixel cfg w h input' st p = despecklePixel cfg w h input st p := by
  have hw : 0 < w := Nat.pos_of_ne_zero (by rintro rfl; simp at hp)
  have hsamples : (window w h (p % w) (p / w) st.er).map (samplePixel cfg input' p st.out) =
      (window w h (p % w) (p / w) st.er).map (samplePixel cfg input p st.out) :=
    List.map_congr_left fun q hq => by
      rw [samplePixel, hin q (mem_window (Nat.mod_lt _ hw) (Nat.div_lt_of_lt_mul hp) hq).1, samplePixel]
  unfold despecklePixel
  rw [hsamples, hin p hp]

theorem despeckleScan_congr (cfg : DespeckleConfig) {w h : Nat} {input input' : Nat → Pixel}
    (hin : ∀ q < w * h, input' q = input q) (draws : Nat) :
    despeckleScan cfg w h input' draws (w * h) = despeckleScan cfg w h input draws (w * h) :=
  List.foldl_ext _ _ _ fun st _ hp => despecklePixel_congr cfg hin st (List.mem_range.mp hp)

theorem despeckleBytes_congr (hA : SameIn rd rd' r.aBase.toNat (r.w * r.h * bppA r)) (draws : Nat) :
    despeckleBytes r rd' draws = despeckleBytes r rd draws := by
  have hin : ∀ q < r.w * r.h, inputPixel r (bppA r) rd' q = inputPixel r (bppA r) rd q := fun q hq =>
    List.map_congr_left fun c hc => hA.pixel hq (List.mem_range.mp hc)
  simp only [despeckleBytes, despeckleScan_congr _ hin]

theorem clampIndex_lt (v : Int) {n : Nat} (hn : 0 < n) : clampIndex v n < n := by
  unfold clampIndex
  omega

/-- The clamp keeps every sample in the luma plane of a frame that is not empty (R242). -/
theorem lumaSample_congr (hA : SameIn rd rd' r.aBase.toNat (r.w * r.h)) (hw : 0 < r.w) (hh : 0 < r.h) :
    lumaSample r rd' = lumaSample r rd := by
  funext i j
  rw [Nat.mul_comm] at hA
  rw [lumaSample, hA.pixel (clampIndex_lt i hh) (clampIndex_lt j hw), lumaSample]

theorem sobelBytes_congr (hA : SameIn rd rd' r.aBase.toNat (r.w * r.h)) (pl : Platform) :
    sobelBytes pl r rd' = sobelBytes pl r rd := by
  refine congrArg (· ++ List.replicate _ chromaNeutral) (List.map_congr_left fun p hp => ?_)
  have hp := Nat.zero_lt_of_lt (List.mem_range.mp hp)
  unfold sobelLuma
  rw [lumaSample_congr hA (Nat.pos_of_mul_pos_right hp) (Nat.pos_of_mul_pos_left hp)]

end

/-- What a command computes depends on the bytes of its input extents only. -/
theorem kernelOf_congr {i : Instr} {r : OpRegs} {rd rd' : Nat → Byte} (h : SameInputs i r rd rd') (pl : Platform)
    (draws : Nat) : kernelOf pl i r rd' draws = kernelOf pl i r rd draws := by
  cases i
  case compose => exact congrArg (·, draws) (composeBytes_congr (h.tripleA (by simp)) (h.mask rfl))
  case blend => exact congrArg (·, draws) (blendBytes_congr (h.packedA (by simp)) (h.packedB rfl) (h.mask rfl))
  case subtract => exact congrArg (·, draws) (subtractBytes_congr (h.packedA (by simp)) (h.packedB rfl))
  case despeckle => exact despeckleBytes_congr (h.packedA (by simp)) draws
  case sobel => exact congrArg (·, draws) (sobelBytes_congr h.lumaA pl)
  all_goals
    have hframe := rgbFrame_congr (h.tripleA (by simp))
    simp only [kernelOf, rgb2hsvBytes_eq, hsv2rgbBytes_eq, autostretchBytes, colorenhanceBytes, hsvFrame_eq, hframe]

/-- A valid pending command completes with what it computes (R117, R118). -/
theorem exec_of_validate_ok {i : Instr} {s : State} {c : Snapshot} (hp : s.block.pending = some c)
    (hv : validate i c.regs s.platform.memSize = .ok) :
    exec i s = .next (s.finish c.regs (kernelOf s.platform i c.regs s.mem.read s.draws)) :=
  (exec_eq i s).trans (runCommand_ok hp hv)

/-- Settles O14: both states complete with the same computed bytes, and these fill the D extent. -/
theorem resultDependsOnlyOnSnapshotAndInputs : Obligations.ResultDependsOnlyOnSnapshotAndInputs := by
  intro i s s' t t' w r d hp hp' hplatform hdraws hsame hv hd hexec hexec'
  obtain ⟨-, hformat, hdim, -, -⟩ := (validate_ok_iff ..).mp hv
  have hinputs : SameInputs i r s.mem.read s'.mem.read :=
    ⟨hformat, hdim, fun e he k hk => hsame e he _ (by omega) (by omega)⟩
  obtain ⟨n, hn, rfl⟩ := Option.map_eq_some_iff.mp hd
  rw [exec_of_validate_ok hp hv] at hexec
  rw [exec_of_validate_ok hp' (hplatform ▸ hv), hplatform, hdraws, kernelOf_congr hinputs] at hexec'
  cases hexec
  cases hexec'
  refine ⟨rfl, fun a hlo hhi => ?_⟩
  obtain ⟨k, rfl⟩ := Nat.exists_eq_add_of_le hlo
  have hk : k < (kernelOf s.platform i r s.mem.read s.draws).1.length := by
    rw [kernelOf_length hn]
    exact Nat.lt_of_add_lt_add_left hhi
  rw [State.finish_mem, State.finish_mem, Memory.read_writeBytes_inside _ _ _ _ hk, Memory.read_writeBytes_inside _ _ _ _ hk]

/-! ### Sound STATUS (R25, R37, R111, R117, R300)

One lemma per operation on a block: it keeps STATUS sound. -/

/-- A block at its reset values is sound, under reset or released (R43, R300). -/
theorem Block.sound_of_reset (asserted : Bool) (l : List Extent) :
    ({ Block.reset with inReset := asserted, unsettled := l } : Block).Sound where
  busy h := by cases h
  done h := by cases h
  err h := by cases h
  reset h := by
    obtain rfl : asserted = true := h
    rfl
  output _ h := by cases h

/-- Only a block whose reset is released holds a command. -/
theorem Block.Sound.not_inReset {b : Block} (h : b.Sound) {c : Snapshot} (hp : b.pending = some c) :
    b.inReset = false := by
  by_contra hr
  rw [h.reset (by simpa using hr)] at hp
  cases hp

/-- A running command has reported nothing. -/
theorem Block.Sound.of_pending {b : Block} (h : b.Sound) {c : Snapshot} (hp : b.pending = some c) :
    b.done = false ∧ b.err = false ∧ b.errCode = .ok :=
  h.busy (by simp [Block.busy, hp])

theorem Block.Sound.releaseReset {b : Block} (h : b.Sound) : ({ b with inReset := false } : Block).Sound :=
  ⟨h.busy, h.done, h.err, (nomatch ·), h.output⟩

theorem Block.Sound.cmdLost {b : Block} (h : b.Sound) (hrun : b.inReset = false) :
    ({ b with cmdLost := true } : Block).Sound :=
  ⟨h.busy, h.done, h.err, fun hr => absurd (hrun.symm.trans hr) (by decide), h.output⟩

/-- Acceptance clears what the last command reported, and the new output is unsettled (R111, R72). -/
theorem Block.Sound.accept {b : Block} (hrun : b.inReset = false) (w : Word) : (b.accept w).Sound where
  busy _ := ⟨rfl, rfl, rfl⟩
  done h := by cases h
  err h := by cases h
  reset hr := absurd (hrun.symm.trans hr) (by decide)
  output c hc e he := by
    cases hc
    simp [he]

theorem Block.Sound.completeOk {b : Block} (h : b.Sound) {c : Snapshot} (hp : b.pending = some c) :
    b.completeOk.Sound := by
  obtain ⟨-, herr, hcode⟩ := h.of_pending hp
  refine ⟨(nomatch ·), fun _ => ⟨herr, hcode⟩, fun he => ?_, fun hr => ?_, fun _ hc => nomatch hc⟩
  · exact absurd (herr.symm.trans he) (by decide)
  · exact absurd ((h.not_inReset hp).symm.trans hr) (by decide)

theorem Block.Sound.completeError {b : Block} (h : b.Sound) {c : Snapshot} (hp : b.pending = some c) {code : ErrCode}
    (hcode : code ≠ .ok) : (b.completeError code).Sound := by
  obtain ⟨hdone, -, -⟩ := h.of_pending hp
  refine ⟨(nomatch ·), fun hd => ?_, fun _ => hcode, fun hr => ?_, fun _ hc => nomatch hc⟩
  · exact absurd (hdone.symm.trans hd) (by decide)
  · exact absurd ((h.not_inReset hp).symm.trans hr) (by decide)

/-- A register write moves no STATUS bit up, and is not taken under reset (R25, R28). -/
theorem Block.Sound.writeReg {b : Block} (h : b.Sound) (hrun : b.inReset = false) (v : Word) (reg : Reg) :
    (b.writeReg v reg).Sound := by
  have hreset : (b.writeReg v reg).inReset = true → b.writeReg v reg =
      { Block.reset with inReset := true, unsettled := (b.writeReg v reg).unsettled } := fun hr =>
    absurd (hrun.symm.trans ((b.writeReg_inReset v reg).symm.trans hr)) (by decide)
  cases reg
  case status =>
    refine ⟨fun hb => ?_, fun hd => ?_, fun he => ?_, hreset, h.output⟩
    · obtain ⟨hdone, herr, hcode⟩ := h.busy hb
      exact ⟨by simp [Block.writeReg, hdone], by simp [Block.writeReg, herr], hcode⟩
    · obtain ⟨herr, hcode⟩ := h.done (Bool.and_eq_true_iff.mp hd).1
      exact ⟨by simp [Block.writeReg, herr], hcode⟩
    · exact h.err (Bool.and_eq_true_iff.mp he).1
  all_goals exact ⟨h.busy, h.done, h.err, hreset, h.output⟩

/-- Completion is observed while no command runs, so no running output settles (R72). -/
theorem Block.Sound.observe {b : Block} (h : b.Sound) (hidle : b.busy = false) : b.observe.Sound where
  busy hb := h.busy hb
  done hd := h.done hd
  err he := h.err he
  reset hr := by
    have := h.reset hr
    rw [this]; rfl
  output c hc := by simp [Block.busy, show b.pending = some c from hc] at hidle

theorem Block.Sound.afterRead {b : Block} (h : b.Sound) (reg : Reg) : (b.afterRead reg).Sound := by
  rcases b.afterRead_cases reg with hb | ⟨hidle, -, hb⟩ <;> rw [hb]
  · exact h
  · exact h.observe hidle

/-- A high irq line says that no command runs (R29). -/
theorem Block.Sound.not_busy_of_irq {b : Block} (h : b.Sound) (hirq : b.irq = true) : b.busy = false := by
  by_contra hb
  obtain ⟨hdone, herr, -⟩ := h.busy (by simpa using hb)
  simp [Block.irq, hdone, herr] at hirq

@[simp] theorem Block.afterRead_pending (b : Block) (reg : Reg) : (b.afterRead reg).pending = b.pending := by
  rcases b.afterRead_cases reg with hb | ⟨-, -, hb⟩ <;> rw [hb]
  rfl

/-! ### Disjoint extents (R292) -/

theorem Snapshot.clashes_comm (c d : Snapshot) : c.clashes d = d.clashes c := Bool.or_comm ..

theorem Block.Disjoint.symm {b b' : Block} (h : b.Disjoint b') : b'.Disjoint b := fun d hd c hc =>
  (d.clashes_comm c).trans (h c hc d hd)

theorem Block.Disjoint.of_pending {b b' b'' : Block} (h : b.Disjoint b')
    (hp : ∀ c, b''.pending = some c → b.pending = some c) : b''.Disjoint b' := fun c hc => h c (hp c hc)

/-! ### The invariant of the machine -/

/-- Settles O57: nothing is written and nothing runs. -/
theorem resetSatisfiesTheInvariant : Obligations.ResetSatisfiesTheInvariant where
  platform := by decide
  canonical := List.Pairwise.nil
  within := fun _ h => nomatch h
  sound b hb := by
    rw [List.mem_singleton.mp hb]
    exact Block.sound_of_reset false []
  disjoint := List.pairwise_singleton ..

/-- The block in front and what it does not share with the others. -/
theorem State.Inv.front {s : State} (h : s.Inv) : s.block.Sound ∧ ∀ b ∈ s.others, s.block.Disjoint b :=
  ⟨h.sound _ List.mem_cons_self, (List.pairwise_cons.mp h.disjoint).1⟩

theorem State.Inv.sound_block {s : State} (h : s.Inv) : s.block.Sound := h.front.1

/-- What an operation of the block in front owes the invariant: canonical memory, its own STATUS, and extents disjoint from
what the others run. -/
theorem State.Inv.update {s t : State} (h : s.Inv) (hplatform : t.platform = s.platform) (hothers : t.others = s.others)
    (hcanonical : t.mem.wf) (hwithin : t.mem.within s.platform.memSize) (hsound : t.block.Sound)
    (hdisjoint : ∀ b ∈ s.others, t.block.Disjoint b) : t.Inv where
  platform := hplatform ▸ h.platform
  canonical := hcanonical
  within := hplatform ▸ hwithin
  sound b hb := by
    rw [State.blocks_eq, hothers] at hb
    rcases List.mem_cons.mp hb with rfl | hb
    · exact hsound
    · exact h.sound b (List.mem_cons_of_mem _ hb)
  disjoint := by
    rw [State.blocks_eq, hothers]
    exact List.pairwise_cons.mpr ⟨hdisjoint, (List.pairwise_cons.mp h.disjoint).2⟩

/-- An operation that accepts no command and writes no memory owes its own STATUS only. -/
theorem State.Inv.of_block {s t : State} (h : s.Inv) (hplatform : t.platform = s.platform) (hothers : t.others = s.others)
    (hmem : t.mem = s.mem) (hsound : t.block.Sound) (hpending : ∀ c, t.block.pending = some c → s.block.pending = some c) :
    t.Inv :=
  h.update hplatform hothers (hmem ▸ h.canonical) (hmem ▸ h.within) hsound fun b hb => (h.front.2 b hb).of_pending hpending

/-- Which block is in front does not matter to the invariant (R292). -/
theorem State.Inv.focus {s : State} (h : s.Inv) (k : Nat) : (s.focus k).Inv where
  platform := by simpa using h.platform
  canonical := by simpa using h.canonical
  within := by simpa using h.within
  sound b hb := h.sound b ((s.focus_blocks_perm k).mem_iff.mp hb)
  disjoint := ((s.focus_blocks_perm k).pairwise_iff fun hxy => Block.Disjoint.symm hxy).mpr h.disjoint

/-- What the host is answered does not matter to the invariant. -/
theorem State.Inv.answer {s : State} (h : s.Inv) (r : Reply) : (s.answer r).Inv :=
  ⟨h.platform, h.canonical, h.within, h.sound, h.disjoint⟩

/-- What is still to come does not matter to the invariant. -/
theorem State.Inv.withInbox {s : State} (h : s.Inv) (l : List Event) : ({ s with inbox := l } : State).Inv :=
  ⟨h.platform, h.canonical, h.within, h.sound, h.disjoint⟩

/-- Where f gives a next state of a state of the invariant, that state is one too. -/
def KeepsInv (f : State → Host.Outcome State Fault Refusal) : Prop := ∀ ⦃s t⦄, s.Inv → f s = .next t → t.Inv

theorem KeepsInv.of_next {g : State → State} (hg : ∀ s, s.Inv → (g s).Inv) : KeepsInv fun s => .next (g s) := by
  rintro s _ h ⟨⟩
  exact hg s h

theorem KeepsInv.ite {c : State → Bool} {f g : State → Host.Outcome State Fault Refusal} (hf : KeepsInv f)
    (hg : KeepsInv g) : KeepsInv fun s => if c s then f s else g s := by
  intro s t hs h
  dsimp only at h
  split at h
  · exact hf hs h
  · exact hg hs h

theorem KeepsInv.onInstance {f : State → Host.Outcome State Fault Refusal} (hf : KeepsInv f) (k : Nat) :
    KeepsInv (onInstance k f) := by
  intro s t hs h
  obtain ⟨u, hu, rfl⟩ := mapNext_eq_next h
  exact (hf (hs.focus k) hu).focus k

/-! ### Every operation keeps the invariant -/

/-- An output that passed the bounds check ends within frame memory (R113 check 5). -/
theorem fits_of_validate_ok {i : Instr} {r : OpRegs} {size n : Nat} (hv : validate i r size = .ok)
    (hn : lenD i r = some n) : Fits size r.dBase.toNat n := by
  obtain ⟨-, -, -, hbounds, -⟩ := (validate_ok_iff ..).mp hv
  have hmem : (⟨r.dBase.toNat, n⟩ : Extent) ∈ inputExtents i r ++ (extentD i r).toList := by simp [extentD, hn]
  exact endsBeyond_eq_false.mp (by simpa using List.any_eq_false.mp hbounds _ hmem)

/-- Bytes that fit keep memory canonical and within MEM_SIZE (R60). -/
theorem Memory.writeBytes_within_of_fits {m : Memory} {size a : Nat} (h : m.within size) (l : List Byte)
    (hfits : Fits size a l.length) : (m.writeBytes a l).within size :=
  Memory.writeBytes_within l h a (hfits.imp_left List.length_eq_zero_iff.mp)

theorem State.Inv.failedWith {s : State} (h : s.Inv) {c : Snapshot} (hp : s.block.pending = some c) {code : ErrCode}
    (hcode : code ≠ .ok) : (s.failedWith code).Inv :=
  h.of_block rfl rfl rfl (h.sound_block.completeError hp hcode) fun _ hc => nomatch hc

theorem State.Inv.finish {s : State} (h : s.Inv) {c : Snapshot} (hp : s.block.pending = some c) (out : List Byte × Nat)
    (hfits : Fits s.platform.memSize c.regs.dBase.toNat out.1.length) : (s.finish c.regs out).Inv :=
  h.update rfl rfl (Memory.writeBytes_wf _ h.canonical _) (Memory.writeBytes_within_of_fits h.within _ hfits)
    (h.sound_block.completeOk hp) fun _ _ _ hc => nomatch hc

theorem exec_keepsInv (i : Instr) : KeepsInv (exec i) := by
  intro s t hs h
  rcases exec_cases i s with ⟨_, he⟩ | ⟨c, hp, hcode, he⟩ | ⟨c, n, hp, hok, hn, hlen, he⟩ <;> rw [he] at h <;> cases h
  · exact hs.failedWith hp hcode
  · exact hs.finish hp _ (hlen ▸ fits_of_validate_ok hok hn)

theorem blockTurn_keepsInv : KeepsInv blockTurn := by
  intro s t hs h
  rcases blockTurn_cases s with ⟨_, hb⟩ | ⟨c, e, hp, _, hb⟩ | ⟨c, i, _, _, hb⟩ <;> rw [hb] at h
  case inl => cases h; exact hs
  case inr.inl => cases h; exact hs.failedWith hp (by decide)
  case inr.inr => exact exec_keepsInv i hs h

/-- Acceptance faults exactly where it would break R292 (H6). -/
theorem State.Inv.writeCmd {s t : State} (h : s.Inv) (hrun : s.block.inReset = false) {w : Word}
    (hw : s.writeCmd w = .next t) : t.Inv := by
  rcases s.writeCmd_cases w with ⟨_, he⟩ | ⟨_, _, he⟩ | ⟨_, hfree, he⟩ <;> rw [he] at hw <;> cases hw
  · exact h.of_block rfl rfl rfl (h.sound_block.cmdLost hrun) fun _ hc => hc
  · refine h.update rfl rfl h.canonical h.within (Block.Sound.accept hrun w) fun b hb c hc d hd => ?_
    obtain rfl : ⟨w, s.block.regs⟩ = c := Option.some.inj hc
    exact (Snapshot.clashes_comm ..).trans (hfree b hb d hd)

theorem State.regWrite_keepsInv (bits : Nat) (off : BitVec 8) (v : Word) : KeepsInv fun s => s.regWrite bits off v := by
  intro s t hs (h : s.regWrite bits off v = .next t)
  rcases s.regWrite_cases bits off v with ⟨_, hw⟩ | ⟨_, _, hw⟩ | ⟨htakes, _, hw⟩ | ⟨htakes, reg, _, _, hw⟩ <;> rw [hw] at h
  case inl => cases h; exact hs.answer _
  case inr.inl => cases h; exact hs
  all_goals obtain ⟨hrun, -, -⟩ := State.portTakes_iff.mp htakes
  case inr.inr.inl => exact hs.writeCmd hrun h
  case inr.inr.inr =>
    cases h
    refine hs.of_block rfl rfl rfl (hs.sound_block.writeReg hrun v reg) fun c hc => ?_
    rwa [← s.block.writeReg_pending v reg]

theorem State.Inv.regRead {s : State} (h : s.Inv) (bits : Nat) (off : BitVec 8) : (s.regRead bits off).Inv := by
  rcases s.regRead_cases bits off with ⟨_, he⟩ | ⟨_, _, he⟩ | ⟨_, reg, _, he⟩ <;> rw [he]
  · exact h.answer _
  · exact h.answer _
  · refine h.of_block rfl rfl rfl (h.sound_block.afterRead reg) fun c hc => ?_
    rwa [← s.block.afterRead_pending reg]

theorem State.Inv.waitTurn {s : State} (h : s.Inv) (k : Nat) : (s.waitTurn k).Inv := by
  rcases s.waitTurn_cases k with he | ⟨_, he⟩ <;> rw [he]
  · exact h.regRead 32 _
  · exact (h.regRead 32 _).withInbox _

theorem State.Inv.irqRead {s : State} (h : s.Inv) : s.irqRead.Inv := by
  unfold State.irqRead
  split
  case isTrue hirq =>
    exact h.of_block rfl rfl rfl (h.sound_block.observe (h.sound_block.not_busy_of_irq hirq)) fun _ hc => hc
  case isFalse => exact h.answer _

theorem State.Inv.assertReset {s : State} (h : s.Inv) : s.assertReset.Inv :=
  h.update s.assertReset_platform s.assertReset_others (State.abandon_wf h.canonical) (State.abandon_within h.within)
    (Block.sound_of_reset true _) fun _ _ _ hc => nomatch hc

theorem State.Inv.releaseReset {s : State} (h : s.Inv) : s.releaseReset.Inv :=
  h.of_block rfl rfl rfl h.sound_block.releaseReset fun _ hc => hc

theorem State.memWrite_keepsInv (a : Word) (bytes : List Byte) : KeepsInv fun s => s.memWrite a bytes := by
  intro s t hs (h : s.memWrite a bytes = .next t)
  rcases s.memWrite_cases a bytes with ⟨_, hw⟩ | ⟨_, _, hw⟩ | ⟨hfits, _, hw⟩ <;> rw [hw] at h <;> cases h
  exact hs.update rfl rfl (Memory.writeBytes_wf _ hs.canonical _)
    (Memory.writeBytes_within_of_fits hs.within _ (endsBeyond_eq_false.mp hfits)) hs.sound_block hs.front.2

theorem State.memRead_keepsInv (a : Word) (n : Nat) : KeepsInv fun s => s.memRead a n := by
  intro s t hs (h : s.memRead a n = .next t)
  rcases s.memRead_cases a n with ⟨_, hr⟩ | ⟨_, hr⟩ <;> rw [hr] at h <;> cases h
  exact hs.of_block rfl rfl rfl hs.sound_block fun _ hc => hc

/-- Every event, also one addressed to a block that the platform does not hold. -/
theorem perform_keepsInv (e : Event) : KeepsInv (perform e) := by
  have hrefused : KeepsInv fun s => .next (s.answer .refused) := .of_next fun _ h => h.answer _
  have hnothing : KeepsInv fun s => .next s := .of_next fun _ h => h
  cases e with
  | regWrite k bits off v => exact .ite (.onInstance (State.regWrite_keepsInv bits off v) k) hrefused
  | regRead k bits off => exact .ite (.onInstance (.of_next fun _ h => h.regRead bits off) k) hrefused
  | wait k => exact .ite (.onInstance (.of_next fun _ h => h.waitTurn k) k) hrefused
  | irqRead k => exact .ite (.onInstance (.of_next fun _ h => h.irqRead) k) hrefused
  | memWrite a bytes => exact State.memWrite_keepsInv a bytes
  | memRead a n => exact State.memRead_keepsInv a n
  | block k => exact .ite (.onInstance blockTurn_keepsInv k) hnothing
  | reset k asserted =>
    refine .ite (.onInstance (.of_next fun _ h => ?_) k) hnothing
    cases asserted
    · exact h.releaseReset
    · exact h.assertReset

/-- Settles O56, by the cases of a step: an event, the turn of the first block that holds a command, or nothing. -/
theorem stepKeepsTheInvariant : Obligations.StepKeepsTheInvariant := by
  intro s t hs h
  cases hin : s.inbox with
  | cons e rest =>
    rw [step_of_inbox hin] at h
    exact perform_keepsInv e (hs.withInbox rest) h
  | nil =>
    unfold step turn at h
    rw [hin] at h
    cases hp : s.pendingInstance with
    | some k => rw [hp] at h; exact blockTurn_keepsInv.onInstance k hs h
    | none => rw [hp] at h; cases h; exact hs

end Sys2Proof.Machine
end

section
/-! PROOFS. 20_memory.md: what a command writes (R61), what a host write and a host read of frame memory do (R60, R68, R71, R77),
and when the host sees what a command wrote (R72, R29). -/

namespace Sys2Proof.Machine

/-! ### What a command writes (R61, R117, R275) -/

theorem SameOutside.refl (m : Memory) (base len : Nat) : SameOutside m m base len := fun _ _ => rfl

theorem Memory.sameOutside_writeBytes (m : Memory) (a : Nat) (l : List Byte) :
    SameOutside m (m.writeBytes a l) a l.length := Memory.read_writeBytes_outside l m a

/-- Settles O13, by what exec can do: an error entry writes nothing, and a completed command fills its D extent exactly. -/
theorem commandWritesOnlyItsOutput : Obligations.CommandWritesOnlyItsOutput := by
  intro i s t w r d hp hd hexec
  rcases exec_cases i s with ⟨_, he⟩ | ⟨c, _, _, he⟩ | ⟨c, n, hc, _, hn, hlen, he⟩ <;> rw [he] at hexec <;> cases hexec
  case inr.inl => exact ⟨SameOutside.refl _ _ _, rfl⟩
  case inr.inr =>
    obtain rfl : ⟨w, r⟩ = c := Option.some.inj (hp.symm.trans hc)
    obtain rfl : ⟨r.dBase.toNat, n⟩ = d := Option.some.inj (by rw [← hd, extentD, hn]; rfl)
    subst hlen
    exact ⟨Memory.sameOutside_writeBytes _ _ _, rfl⟩

/-! ### Which bytes are live, and which are unsettled (R72, R77) -/

/-- The extents of a command are those R96 lists for the instruction its word selects. -/
theorem Snapshot.mem_extents_iff {c : Snapshot} {e : Extent} :
    e ∈ c.extents ↔ ∃ i, decode c.word = .ok i ∧ (e ∈ inputExtents i c.regs ∨ extentD i c.regs = some e) := by
  cases hd : decode c.word <;> simp [Snapshot.extents, Snapshot.inputs, Snapshot.output, hd]

theorem State.liveAt_iff {s : State} {a : Nat} :
    s.liveAt a = true ↔ ∃ b ∈ s.blocks, ∃ c, b.pending = some c ∧ ∃ e ∈ c.extents, e.base ≤ a ∧ a < e.base + e.len := by
  simp only [State.liveAt, List.any_eq_true, Option.any_eq_true, Extent.covers_iff]

/-- The outputs that these blocks have not settled share no byte with the n bytes from a on. -/
def SettledIn (bs : List Block) (a n : Nat) : Prop :=
  ∀ b ∈ bs, ∀ e ∈ b.unsettled, ∀ k, k < n → a + k < e.base ∨ e.base + e.len ≤ a + k

/-- A block whose completion has been observed holds nothing unsettled. -/
theorem SettledIn.cons {bs : List Block} {a n : Nat} (h : SettledIn bs a n) {b : Block} (hb : b.unsettled = []) :
    SettledIn (b :: bs) a n :=
  List.forall_mem_cons.mpr ⟨by simp [hb], h⟩

theorem State.unsettledAt_of_settledIn {s : State} {a n k : Nat} (h : SettledIn s.blocks a n) (hk : k < n) :
    s.unsettledAt (a + k) = false := by
  refine List.any_eq_false.mpr fun b hb hcovers => ?_
  obtain ⟨e, he, hcovers⟩ := List.any_eq_true.mp hcovers
  obtain ⟨hlo, hhi⟩ := Extent.covers_iff.mp hcovers
  have := h b hb e he k hk
  omega

/-! ### The host in frame memory (R60, R68, R71, R77) -/

theorem step_memWrite {s : State} {a : Word} {bytes : List Byte} {rest : List Event}
    (h : s.inbox = .memWrite a bytes :: rest) : step s = ({ s with inbox := rest } : State).memWrite a bytes :=
  step_of_inbox h

theorem step_memRead {s : State} {a : Word} {n : Nat} {rest : List Event} (h : s.inbox = .memRead a n :: rest) :
    step s = ({ s with inbox := rest } : State).memRead a n :=
  step_of_inbox h

theorem Fits.not_endsBeyond {size base len : Nat} (h : Fits size base len) : endsBeyond size ⟨base, len⟩ ≠ true :=
  Bool.eq_false_iff.mp (endsBeyond_eq_false.mpr h)

/-- A write that touches a live byte stops the machine. -/
theorem State.memWrite_live {s : State} {a : Word} {bytes : List Byte}
    (hfits : Fits s.platform.memSize a.toNat bytes.length) {k : Nat} (hk : k < bytes.length)
    (hlive : s.liveAt (a.toNat + k) = true) : s.memWrite a bytes = .fault .hostWroteLiveExtent := by
  rcases s.memWrite_cases a bytes with ⟨hbeyond, _⟩ | ⟨_, _, hw⟩ | ⟨_, hfree, _⟩
  · exact absurd hbeyond hfits.not_endsBeyond
  · exact hw
  · exact absurd ((hfree k hk).symm.trans hlive) (by decide)

/-- A write that touches no live byte stores its bytes. -/
theorem State.memWrite_free {s : State} {a : Word} {bytes : List Byte}
    (hfits : Fits s.platform.memSize a.toNat bytes.length)
    (hfree : ∀ k, k < bytes.length → s.liveAt (a.toNat + k) ≠ true) :
    s.memWrite a bytes = .next { s with mem := s.mem.writeBytes a.toNat bytes } := by
  rcases s.memWrite_cases a bytes with ⟨hbeyond, _⟩ | ⟨_, ⟨k, hk, hlive⟩, _⟩ | ⟨_, _, hw⟩
  · exact absurd hbeyond hfits.not_endsBeyond
  · exact absurd hlive (hfree k hk)
  · exact hw

/-- A read of settled bytes answers frame memory, and draws no free value. -/
theorem State.memRead_settled {s : State} {a : Word} {n : Nat} (hfits : Fits s.platform.memSize a.toNat n)
    (hsettled : SettledIn s.blocks a.toNat n) :
    s.memRead a n = .next (s.answer (.bytes ((List.range n).map fun k => s.mem.read (a.toNat + k)))) := by
  rcases s.memRead_cases a n with ⟨hbeyond, _⟩ | ⟨_, hr⟩
  · exact absurd hbeyond hfits.not_endsBeyond
  · rw [hr, s.hostBytes_settled n _ _ fun k hk => State.unsettledAt_of_settledIn hsettled hk]

/-- Settles O50: the byte is live, by the extent that covers it. -/
theorem hostWriteIntoARunningExtentFaults : Obligations.HostWriteIntoARunningExtentFaults := by
  intro s a bytes rest b c i e k hin hb hp hdecode he hk hlo hhi hsize
  have hlive : s.liveAt (a.toNat + k) = true :=
    State.liveAt_iff.mpr ⟨b, hb, c, hp, e, Snapshot.mem_extents_iff.mpr ⟨i, hdecode, he⟩, hlo, hhi⟩
  exact (step_memWrite hin).trans (State.memWrite_live (s := { s with inbox := rest }) (.inr hsize) hk hlive)

/-- Settles O51: no byte written is live, and the laws of frame memory say what a run of bytes leaves. -/
theorem hostWriteStoresItsBytes : Obligations.HostWriteStoresItsBytes := by
  intro s a bytes rest hin hfits hapart
  have hfree : ∀ k, k < bytes.length → s.liveAt (a.toNat + k) ≠ true := by
    intro k hk hlive
    obtain ⟨b, hb, c, hp, e, he, hlo, hhi⟩ := State.liveAt_iff.mp hlive
    obtain ⟨i, hdecode, he⟩ := Snapshot.mem_extents_iff.mp he
    have := hapart b hb c i e k hp hdecode he hk
    omega
  exact ⟨_, (step_memWrite hin).trans (State.memWrite_free (s := { s with inbox := rest }) hfits hfree),
    Memory.sameOutside_writeBytes _ _ _, Memory.read_writeBytes_inside bytes s.mem a.toNat⟩

/-- Settles O52. -/
theorem hostReadsSettledBytes : Obligations.HostReadsSettledBytes := by
  intro s a n rest hin hfits hsettled
  exact (step_memRead hin).trans (State.memRead_settled (s := { s with inbox := rest }) hfits hsettled)

/-! ### Observing completion (R29, R72, R98) -/

theorem step_wait {s : State} {rest : List Event} (h : s.inbox = .wait 0 :: rest) :
    step s = .next (({ s with inbox := rest } : State).waitTurn 0) := by
  rw [step_of_inbox h]
  simp [perform, State.hasInstance, onInstance_zero]

theorem step_irqRead {s : State} {rest : List Event} (h : s.inbox = .irqRead 0 :: rest) :
    step s = .next ({ s with inbox := rest } : State).irqRead := by
  rw [step_of_inbox h]
  simp [perform, State.hasInstance, onInstance_zero]

/-- A STATUS read answers the STATUS word, and observes completion where no command is pending. -/
theorem State.regRead_status {s : State} (hrun : s.block.inReset = false) :
    s.regRead 32 Reg.status.offset =
      { s with block := s.block.afterRead .status }.answer (.word s.block.statusWord) := by
  simp [State.regRead, State.portTakes_offset hrun, Block.readReg]

theorem Block.afterRead_status_idle {b : Block} (h : b.busy = false) : b.afterRead .status = b.observe := by
  simp [Block.afterRead, h]

theorem Block.afterRead_status_busy {b : Block} (h : b.busy = true) : b.afterRead .status = b := by
  simp [Block.afterRead, h]

/-- WAIT of an idle block is a STATUS read. -/
theorem State.waitTurn_idle {s : State} (h : s.block.busy = false) (k : Nat) :
    s.waitTurn k = s.regRead 32 Reg.status.offset := by
  simp [State.waitTurn, h]

/-- WAIT of a busy block is a STATUS read, with a turn of the block and a WAIT to come. -/
theorem State.waitTurn_busy {s : State} (hrun : s.block.inReset = false) (h : s.block.busy = true) (k : Nat) :
    s.waitTurn k = { s.answer (.word s.block.statusWord) with inbox := .block k :: .wait k :: s.inbox } := by
  rw [State.waitTurn, h, State.portTakes_offset hrun, State.regRead_status hrun, Block.afterRead_status_busy h]
  rfl

theorem State.irqRead_high {s : State} (h : s.block.irq = true) :
    s.irqRead = { s with block := s.block.observe }.answer (.irq true) := by
  simp [State.irqRead, h]

theorem State.irqRead_low {s : State} (h : s.block.irq = false) : s.irqRead = s.answer (.irq false) := by
  simp [State.irqRead, h]

/-- The state after the host has observed completion at block 0, answered by r, with the rest of the inbox to come. -/
def State.observedWith (s : State) (r : Reply) (rest : List Event) : State :=
  { s with inbox := rest, block := s.block.observe, replies := r :: s.replies }

/-- A STATUS read with no command pending observes completion. -/
theorem step_statusRead_idle {s : State} {rest : List Event} (hrun : s.block.inReset = false)
    (hidle : s.block.busy = false) (hin : s.inbox = .regRead 0 32 Reg.status.offset :: rest) :
    step s = .next (s.observedWith (.word s.block.statusWord) rest) := by
  rw [step_regRead_reg hrun hin, Block.afterRead_status_idle hidle]
  rfl

/-- So does a WAIT with no command pending. -/
theorem step_wait_idle {s : State} {rest : List Event} (hrun : s.block.inReset = false)
    (hidle : s.block.busy = false) (hin : s.inbox = .wait 0 :: rest) :
    step s = .next (s.observedWith (.word s.block.statusWord) rest) := by
  rw [step_wait hin, State.waitTurn_idle (s := { s with inbox := rest }) hidle,
    State.regRead_status (s := { s with inbox := rest }) hrun, Block.afterRead_status_idle hidle]
  rfl

/-- So does a look at a high irq line. -/
theorem step_irqRead_high {s : State} {rest : List Event} (hirq : s.block.irq = true)
    (hin : s.inbox = .irqRead 0 :: rest) : step s = .next (s.observedWith (.irq true) rest) := by
  rw [step_irqRead hin, State.irqRead_high (s := { s with inbox := rest }) hirq]
  rfl

/-- A look at a low irq line answers the level and observes nothing. -/
theorem step_irqRead_low {s : State} {rest : List Event} (hirq : s.block.irq = false)
    (hin : s.inbox = .irqRead 0 :: rest) :
    step s = .next { s with inbox := rest, replies := .irq false :: s.replies } := by
  rw [step_irqRead hin, State.irqRead_low (s := { s with inbox := rest }) hirq]
  rfl

/-- After completion is observed at block 0, a read beside what the others have not settled answers frame memory. -/
theorem step_memRead_of_observed {s : State} {a : Word} {n : Nat} {rest : List Event} (r : Reply)
    (hfits : Fits s.platform.memSize a.toNat n) (hothers : SettledIn s.others a.toNat n) :
    ∃ u, step (s.observedWith r (.memRead a n :: rest)) = .next u ∧ u.mem = s.mem ∧
      u.replies = .bytes ((List.range n).map fun k => s.mem.read (a.toNat + k)) :: r :: s.replies :=
  ⟨_, hostReadsSettledBytes (s.observedWith r (.memRead a n :: rest)) a n rest rfl hfits (hothers.cons rfl), rfl, rfl⟩

/-- Settles O53: each way to observe completion settles what block 0 wrote, and the read that follows answers it. -/
theorem observingCompletionShowsTheOutput : Obligations.ObservingCompletionShowsTheOutput := by
  intro s rest
  refine ⟨fun a n hfits hothers => ⟨fun hrun hpend hin => ?status, fun hirq hin => ?irq⟩, fun hin => ?level,
    fun hrun hbusy hin => ?wait⟩
  case status =>
    have hidle : s.block.busy = false := by simp [Block.busy, hpend]
    have hstep : step s = .next (s.observedWith (.word s.block.statusWord) (.memRead a n :: rest)) :=
      hin.elim (step_statusRead_idle hrun hidle) (step_wait_idle hrun hidle)
    exact ⟨_, (step_memRead_of_observed _ hfits hothers).imp fun _ hread => ⟨hstep, hread⟩⟩
  case irq =>
    exact ⟨_, (step_memRead_of_observed _ hfits hothers).imp fun _ hread => ⟨step_irqRead_high hirq hin, hread⟩⟩
  case level =>
    cases hirq : s.block.irq
    · exact ⟨_, step_irqRead_low hirq hin, rfl, fun _ => rfl⟩
    · exact ⟨_, step_irqRead_high hirq hin, rfl, nofun⟩
  case wait =>
    rw [step_wait hin, State.waitTurn_busy (s := { s with inbox := rest }) hrun hbusy]
    rfl

end Sys2Proof.Machine
end

section
/-! PROOFS. 30_encoding.md: the command word (R90 to R93, R97) and the format codes (R95). -/

namespace Sys2Proof.Machine

/-! ### The opcode map (R91) -/

theorem instrOfOpcode_opcode (i : Instr) : instrOfOpcode (opcode i).toNat = some i := by cases i <;> rfl

/-- The opcode map names a command at that command's opcode and nowhere else. -/
theorem instrOfOpcode_eq_some {n : Nat} {i : Instr} : instrOfOpcode n = some i ↔ n = (opcode i).toNat := by
  constructor
  · intro h
    unfold instrOfOpcode at h
    split at h <;> cases h <;> rfl
  · rintro rfl
    exact instrOfOpcode_opcode i

/-! ### The two fields of a command word (R90, R97) -/

/-- RSVD above OPCODE is the whole word. -/
theorem rsvdField_append_opcodeField (w : Word) : rsvdField w ++ opcodeField w = w := by
  unfold rsvdField opcodeField
  rw [BitVec.extractLsb'_append_extractLsb'_eq_extractLsb' (by rfl)]
  exact BitVec.extractLsb'_eq_self

@[simp] theorem rsvdField_encode (i : Instr) : rsvdField (encode i) = 0 := by cases i <;> rfl

@[simp] theorem opcodeField_encode (i : Instr) : opcodeField (encode i) = opcode i := by cases i <;> rfl

theorem encode_bounds (i : Instr) : 1 ≤ (encode i).toNat ∧ (encode i).toNat ≤ 9 := by cases i <;> decide

/-- A word is a command's word exactly when RSVD is zero and OPCODE is that command's. -/
theorem eq_encode_iff {w : Word} {i : Instr} : w = encode i ↔ rsvdField w = 0 ∧ opcodeField w = opcode i := by
  constructor
  · rintro rfl
    exact ⟨rsvdField_encode i, opcodeField_encode i⟩
  · rintro ⟨hrsvd, hop⟩
    rw [← rsvdField_append_opcodeField w, hrsvd, hop, encode]

/-! ### The decoder (R91 to R93) -/

theorem decode_of_rsvdField_ne {w : Word} (h : rsvdField w ≠ 0) : decode w = .error .reservedBits := if_pos h

/-- With RSVD zero, the opcode map decides. -/
theorem decode_of_rsvdField_eq {w : Word} (h : rsvdField w = 0) :
    decode w = (instrOfOpcode (opcodeField w).toNat).elim (.error .undefinedOpcode) .ok := by
  rw [decode, if_neg (not_not_intro h)]
  cases instrOfOpcode (opcodeField w).toNat <;> rfl

/-- A word decodes to a command exactly when it is that command's word. -/
theorem decode_eq_ok_iff {w : Word} {i : Instr} : decode w = .ok i ↔ w = encode i := by
  constructor
  · intro h
    by_cases hrsvd : rsvdField w = 0
    · rw [decode_of_rsvdField_eq hrsvd] at h
      cases hi : instrOfOpcode (opcodeField w).toNat with
      | none => simp [hi] at h
      | some j =>
        obtain rfl : j = i := by simpa [hi] using h
        exact eq_encode_iff.mpr ⟨hrsvd, BitVec.eq_of_toNat_eq (instrOfOpcode_eq_some.mp hi)⟩
    · simp [decode_of_rsvdField_ne hrsvd] at h
  · rintro rfl
    exact decode_encode i

/-- Settles O1: the nine words are evaluated; that no other word decodes is `decode_eq_ok_iff`. -/
theorem decodeReadsExactlyTheTable : Obligations.DecodeReadsExactlyTheTable :=
  ⟨⟨rfl, rfl, rfl, rfl, rfl, rfl, rfl, rfl, rfl⟩, fun _ _ => decode_eq_ok_iff⟩

/-- A word that is 0 or above 9 is no command's word, so it does not decode. -/
theorem exists_decode_eq_error {w : Word} (h : w = 0 ∨ 9 < w.toNat) : ∃ e, decode w = .error e := by
  cases hd : decode w with
  | error e => exact ⟨e, rfl⟩
  | ok i =>
    obtain ⟨hlo, hhi⟩ := encode_bounds i
    rw [← decode_eq_ok_iff.mp hd] at hlo hhi
    rcases h with rfl | h
    · exact absurd hlo (by decide)
    · omega

/-- Settles O3: the defined words are encodings, and each other word fails at the field that is wrong. -/
theorem sampleWordsDecode : Obligations.SampleWordsDecode :=
  ⟨decode_encode .compose, decode_encode .sobel, decode_of_rsvdField_eq rfl, decode_of_rsvdField_ne (by decide),
    decode_of_rsvdField_eq rfl, decode_of_rsvdField_ne (by decide)⟩

/-! ### The turn of an illegal word (R93, R275) -/

/-- The block's turn as an event. -/
theorem step_block {s : State} {rest : List Event} (h : s.inbox = .block 0 :: rest) :
    step s = blockTurn { s with inbox := rest } := by
  rw [step_of_inbox h]
  simp [perform, State.hasInstance, onInstance_zero]

/-- The turn of a pending word that does not decode is the error entry with ILLEGAL_COMMAND. -/
theorem blockTurn_of_decode_error {s : State} {c : Snapshot} {e : DecodeError} (hp : s.block.pending = some c)
    (hd : decode c.word = .error e) : blockTurn s = .next (s.failedWith .illegalCommand) := by
  rcases blockTurn_cases s with ⟨hidle, -⟩ | ⟨_, _, -, -, hturn⟩ | ⟨c', i, hp', hi, -⟩
  · simp [hp] at hidle
  · exact hturn
  · obtain rfl : c = c' := by simpa [hp] using hp'
    simp [hd] at hi

/-- Settles O2: either form of the turn is `blockTurn`, and the pending word does not decode. -/
theorem everyOtherWordEndsIllegal : Obligations.EveryOtherWordEndsIllegal := by
  intro s w r hp hw
  obtain ⟨e, hd⟩ := exists_decode_eq_error hw
  refine ⟨fun hin => ?drained, fun rest hin => ?event⟩
  case drained =>
    rw [step_of_pending hin hp]
    exact blockTurn_of_decode_error hp hd
  case event =>
    rw [step_block hin]
    exact blockTurn_of_decode_error (s := { s with inbox := rest }) hp hd

/-! ### The format codes (R95) -/

/-- A register value names no format exactly when it is no format's code. -/
theorem Format.ofCode_eq_none {w : Word} : Format.ofCode w = none ↔ ¬ ∃ f : Format, f.code.toNat = w.toNat := by
  rw [Option.eq_none_iff_forall_ne_some]
  simp only [ne_eq, Format.ofCode_eq_some, not_exists, BitVec.toNat_inj, eq_comm (a := w)]

/-- The codes of the formats are 1 to 7 and 0x11 to 0x14. -/
theorem Format.exists_code_iff {n : Nat} :
    (∃ f : Format, f.code.toNat = n) ↔ (1 ≤ n ∧ n ≤ 7) ∨ (0x11 ≤ n ∧ n ≤ 0x14) := by
  constructor
  · rintro ⟨f, rfl⟩
    cases f <;> decide
  · intro h
    have hcodes : ∀ m < 0x15, (1 ≤ m ∧ m ≤ 7) ∨ (0x11 ≤ m ∧ m ≤ 0x14) →
        ∃ f ∈ Format.all, f.code.toNat = m := by decide
    obtain ⟨f, -, hf⟩ := hcodes n (by omega) h
    exact ⟨f, hf⟩

/-- The code of a format names the format's bytes per pixel. -/
theorem Format.bpp_ofCode_code (f : Format) : (Format.ofCode f.code).map Format.bpp = some f.bpp := by
  rw [Format.ofCode_code]
  rfl

/-- Settles O10: each row is a format's own code, and the rest of the values is what the codes leave out. -/
theorem formatCodesAreTheTable : Obligations.FormatCodesAreTheTable := by
  refine ⟨Format.bpp_ofCode_code .gray8, Format.bpp_ofCode_code .rgb24, Format.bpp_ofCode_code .yuv444,
    Format.bpp_ofCode_code .hsv24, Format.bpp_ofCode_code .argb32, Format.bpp_ofCode_code .ayuv32,
    Format.bpp_ofCode_code .i420, Format.bpp_ofCode_code .raw1, Format.bpp_ofCode_code .raw2,
    Format.bpp_ofCode_code .raw3, Format.bpp_ofCode_code .raw4, fun w => ?undefined⟩
  case undefined =>
    rw [Format.ofCode_eq_none, Format.exists_code_iff]
    omega

end Sys2Proof.Machine
end

section
/-! PROOFS. 40_command_flow.md: validation in the order of its checks (R113, R273), the extents of each command (R96, R114), empty
frames (R115), acceptance (R111), and the block's turn (R110, R117, R118). -/

namespace Sys2Proof.Machine

/-! ### Which operands a command reads (R96) -/

theorem usesB_iff {i : Instr} : usesB i = true ↔ i = .blend ∨ i = .subtract := by cases i <;> decide

theorem usesM_iff {i : Instr} : usesM i = true ↔ i = .compose ∨ i = .blend := by cases i <;> decide

/-! ### The checks of validation, written out (R113)

Each Boolean check of the model holds exactly when the registers fail the check as R113 words it. -/

/-- The bits from k up are nonzero exactly when the word reaches 2^k. -/
theorem extractLsb'_ne_zero_iff (w : Word) {k n : Nat} (h : k + n = 32) : w.extractLsb' k n ≠ 0 ↔ 2 ^ k ≤ w.toNat := by
  have hlt : w.toNat / 2 ^ k < 2 ^ n := by
    rw [Nat.div_lt_iff_lt_mul (Nat.two_pow_pos k), ← pow_add, Nat.add_comm, h]
    exact w.isLt
  have htoNat : (w.extractLsb' k n).toNat = w.toNat / 2 ^ k := by
    rw [BitVec.extractLsb'_toNat, Nat.shiftRight_eq_div_pow, Nat.mod_eq_of_lt hlt]
  rw [ne_eq, ← BitVec.toNat_inj, htoNat, BitVec.ofNat_eq_ofNat, BitVec.toNat_zero, Nat.div_eq_zero_iff_lt (Nat.two_pow_pos k),
    not_lt]

/-- Check 2: the settings of DESPECKLE and SOBEL (R33 to R36). -/
theorem badConfig_iff {i : Instr} {r : OpRegs} :
    badConfig i r = true ↔
      (i = .despeckle ∧
        (255 < r.medRadius.toNat ∨ 255 < r.medBlack.toNat ∨ 255 < r.medWhite.toNat ∨ 3 < r.medFlags.toNat)) ∨
      (i = .sobel ∧ 7 < r.sobelFlags.toNat) := by
  have hmed : r.medFlags.extractLsb' 2 30 ≠ 0 ↔ 3 < r.medFlags.toNat := extractLsb'_ne_zero_iff _ rfl
  have hsobel : r.sobelFlags.extractLsb' 3 29 ≠ 0 ↔ 7 < r.sobelFlags.toNat := extractLsb'_ne_zero_iff _ rfl
  cases i
  case despeckle => simp [badConfig, ← hmed, or_assoc]
  case sobel => simp [badConfig, ← hsobel]
  all_goals simp [badConfig]

/-- Check 3: the codes R96 lists for A, and the format of B. -/
theorem badFormat_iff {i : Instr} {r : OpRegs} :
    badFormat i r = true ↔ r.aFmt ∉ acceptedCodes i ∨ ((i = .blend ∨ i = .subtract) ∧ r.bFmt ≠ r.aFmt) := by
  rw [badFormat, Bool.or_eq_true, Bool.and_eq_true, usesB_iff, bne_iff_ne, Bool.not_eq_true', Bool.eq_false_iff, ne_eq,
    acceptsA_iff_mem]

/-- Check 4: the dimensions of M and B. -/
theorem badDimensions_iff {i : Instr} {r : OpRegs} :
    badDimensions i r = true ↔
      ((i = .compose ∨ i = .blend) ∧ (r.mWidth ≠ r.aWidth ∨ r.mHeight ≠ r.aHeight)) ∨
      ((i = .blend ∨ i = .subtract) ∧ (r.bWidth ≠ r.aWidth ∨ r.bHeight ≠ r.aHeight)) := by
  simp only [badDimensions, Bool.or_eq_true, Bool.and_eq_true, usesB_iff, usesM_iff, bne_iff_ne]

theorem endsBeyond_iff {n : Nat} {e : Extent} : endsBeyond n e = true ↔ ¬ Fits n e.base e.len := by
  rw [← endsBeyond_eq_false, Bool.not_eq_false]

theorem overlaps_iff {e f : Extent} : overlaps e f = true ↔ ¬ Apart e.base e.len f.base f.len := by
  rw [← overlaps_eq_false, Bool.not_eq_false]

/-- Check 5: the bounds of every input and of the output. -/
theorem badBounds_iff {i : Instr} {r : OpRegs} {n : Nat} :
    badBounds i r n = true ↔
      (∃ e ∈ inputExtents i r, ¬ Fits n e.base e.len) ∨ ∃ d, extentD i r = some d ∧ ¬ Fits n d.base d.len := by
  simp only [badBounds, List.any_append, Bool.or_eq_true, List.any_eq_true, Option.mem_toList, endsBeyond_iff]

/-- Check 6: the output against every input. -/
theorem badOverlap_iff {i : Instr} {r : OpRegs} :
    badOverlap i r = true ↔
      ∃ d, extentD i r = some d ∧ ∃ e ∈ inputExtents i r, ¬ Apart e.base e.len d.base d.len := by
  simp only [badOverlap, Option.any_eq_true, List.any_eq_true, overlaps_iff]

/-- The code of each check is the answer exactly when that check fails and none before it does (R113, R273). -/
theorem validate_eq_iff (i : Instr) (r : OpRegs) (n : Nat) :
    (validate i r n = .invalidConfig ↔ badConfig i r = true) ∧
    (validate i r n = .unsupportedFormat ↔ ¬ badConfig i r = true ∧ badFormat i r = true) ∧
    (validate i r n = .dimensionMismatch ↔
      ¬ badConfig i r = true ∧ ¬ badFormat i r = true ∧ badDimensions i r = true) ∧
    (validate i r n = .resource ↔
      ¬ badConfig i r = true ∧ ¬ badFormat i r = true ∧ ¬ badDimensions i r = true ∧ badBounds i r n = true) ∧
    (validate i r n = .overlap ↔
      ¬ badConfig i r = true ∧ ¬ badFormat i r = true ∧ ¬ badDimensions i r = true ∧ ¬ badBounds i r n = true ∧
        badOverlap i r = true) ∧
    (validate i r n = .ok ↔
      ¬ badConfig i r = true ∧ ¬ badFormat i r = true ∧ ¬ badDimensions i r = true ∧ ¬ badBounds i r n = true ∧
        ¬ badOverlap i r = true) := by
  unfold validate
  split_ifs <;> simp [*]

/-- Settles O8: `validate_eq_iff`, with each check written out. -/
theorem validationReportsTheFirstFailingCheck : Obligations.ValidationReportsTheFirstFailingCheck := by
  intro i r n
  have hfirst := validate_eq_iff i r n
  rw [badConfig_iff, badFormat_iff, badDimensions_iff, badBounds_iff, badOverlap_iff] at hfirst
  exact hfirst

/-! ### The extents of each command (R96, R114) -/

theorem extentA_of_code {r : OpRegs} {f : Format} (h : r.aFmt = f.code) :
    extentA r = some ⟨r.aBase.toNat, f.size r.w r.h⟩ := by
  simp [extentA, formatA, h]

theorem extentB_of_code {r : OpRegs} {g : Format} {bpp : Nat} (h : r.bFmt = g.code) (hbpp : g.bpp = some bpp) :
    extentB r = some ⟨r.bBase.toNat, r.bWidth.toNat * r.bHeight.toNat * bpp⟩ := by
  simp [extentB, h, hbpp]

theorem Format.size_of_bpp {f : Format} {bpp : Nat} (hbpp : f.bpp = some bpp) (w h : Nat) : f.size w h = w * h * bpp := by
  simp [Format.size, hbpp]

/-- A command that reads A alone (R96). -/
theorem inputExtents_A {i : Instr} {r : OpRegs} {e : Extent} (hB : usesB i = false) (hM : usesM i = false)
    (hA : extentA r = some e) : inputExtents i r = [e] := by
  simp [inputExtents, hB, hM, hA]

theorem lenD_of_code {i : Instr} {r : OpRegs} {f : Format} {bpp : Nat} (hi : i = .blend ∨ i = .subtract ∨ i = .despeckle)
    (h : r.aFmt = f.code) (hbpp : f.bpp = some bpp) : lenD i r = some (r.w * r.h * bpp) := by
  rcases hi with rfl | rfl | rfl <;> simp [lenD, formatA, h, hbpp]

/-- Settles O9: the A extent from the format of A, then the operands that each command reads. -/
theorem extentsOfEachCommand : Obligations.ExtentsOfEachCommand := by
  intro r n a b d mask nB nI420
  refine ⟨fun lenA hA => ?inputs, fun f bpp hcode hbpp => ?packed, rfl, rfl, rfl, rfl, rfl, rfl⟩
  case inputs =>
    have hextent : extentA r = some ⟨a, lenA⟩ := by
      rcases hA with ⟨f, bpp, hcode, hbpp, rfl⟩ | ⟨hcode, rfl⟩
      · rw [extentA_of_code hcode, Format.size_of_bpp hbpp]; rfl
      · exact extentA_of_code (f := .i420) hcode
    have halone : ∀ i, usesB i = false → usesM i = false → inputExtents i r = [⟨a, lenA⟩] := fun i hB hM =>
      inputExtents_A hB hM hextent
    refine ⟨?_, halone _ rfl rfl, halone _ rfl rfl, halone _ rfl rfl, halone _ rfl rfl, halone _ rfl rfl,
      halone _ rfl rfl, fun g bppB hcodeB hbppB => ?_⟩
    · rw [inputExtents, hextent]; rfl
    · have hB := extentB_of_code hcodeB hbppB
      constructor <;> rw [inputExtents, hextent, hB] <;> rfl
  case packed =>
    have hD : ∀ i, i = .blend ∨ i = .subtract ∨ i = .despeckle → extentD i r = some ⟨d, n * bpp⟩ := fun i hi => by
      rw [extentD, lenD_of_code hi hcode hbpp]; rfl
    exact ⟨hD _ (by simp), hD _ (by simp), hD _ (by simp)⟩

/-! ### Empty frames (R115) -/

/-- A frame without pixels has no bytes, planar or packed: half of 0 is 0. -/
theorem Format.size_of_empty (f : Format) {w h : Nat} (he : w = 0 ∨ h = 0) : f.size w h = 0 := by
  have hhalf : half 0 = 0 := rfl
  unfold Format.size
  split <;> rcases he with rfl | rfl <;> simp [hhalf]

/-- The mask of a command past the dimension check has A's dimensions (R113). -/
theorem mask_dimensions_eq {i : Instr} {r : OpRegs} (hdim : badDimensions i r = false) (hM : usesM i = true) :
    r.mWidth = r.aWidth ∧ r.mHeight = r.aHeight := by
  have hmask := (Bool.or_eq_false_iff.mp hdim).1
  simpa [hM] using hmask

/-- So has operand B. -/
theorem operandB_dimensions_eq {i : Instr} {r : OpRegs} (hdim : badDimensions i r = false) (hB : usesB i = true) :
    r.bWidth = r.aWidth ∧ r.bHeight = r.aHeight := by
  have hoperand := (Bool.or_eq_false_iff.mp hdim).2
  simpa [hB] using hoperand

/-- An input extent is the A extent, or that of an operand which the command reads. -/
theorem mem_inputExtents_iff {i : Instr} {r : OpRegs} {e : Extent} :
    e ∈ inputExtents i r ↔
      extentA r = some e ∨ (usesB i = true ∧ extentB r = some e) ∨ (usesM i = true ∧ e = extentM r) := by
  cases hB : usesB i <;> cases hM : usesM i <;> simp [inputExtents, hB, hM]

section
variable {i : Instr} {r : OpRegs} (hempty : r.w = 0 ∨ r.h = 0)
include hempty

/-- With matching dimensions every input of an empty frame is empty. -/
theorem inputExtents_len_of_empty (hdim : badDimensions i r = false) {e : Extent} (he : e ∈ inputExtents i r) :
    e.len = 0 := by
  have hpixels : r.w * r.h = 0 := Nat.mul_eq_zero.mpr hempty
  rcases mem_inputExtents_iff.mp he with hA | ⟨hB, hb⟩ | ⟨hM, rfl⟩
  · obtain ⟨f, -, rfl⟩ := Option.map_eq_some_iff.mp hA
    exact f.size_of_empty hempty
  · obtain ⟨bpp, -, rfl⟩ := Option.map_eq_some_iff.mp hb
    obtain ⟨hw, hh⟩ := operandB_dimensions_eq hdim hB
    show r.bWidth.toNat * r.bHeight.toNat * bpp = 0
    rw [hw, hh]
    exact Nat.mul_eq_zero.mpr (.inl hpixels)
  · obtain ⟨hw, hh⟩ := mask_dimensions_eq hdim hM
    show r.mWidth.toNat * r.mHeight.toNat = 0
    rwa [hw, hh]

/-- The output of an empty frame is empty: each length of R96 is a multiple of the number of pixels, or that of an I420 frame. -/
theorem lenD_of_empty {n : Nat} (hn : lenD i r = some n) : n = 0 := by
  have hpixels : r.w * r.h = 0 := Nat.mul_eq_zero.mpr hempty
  cases i
  case sobel =>
    obtain rfl : Format.i420.size r.w r.h = n := Option.some.inj hn
    exact Format.i420.size_of_empty hempty
  case blend | subtract | despeckle => rw [lenD_bppA (by simp) hn, hpixels, Nat.zero_mul]
  all_goals simpa [lenD, hpixels, eq_comm] using hn

/-- Extents of length 0 pass both checks, wherever they stand (R113 checks 5 and 6). -/
theorem validate_of_empty (hconfig : badConfig i r = false) (hformat : badFormat i r = false)
    (hdim : badDimensions i r = false) (size : Nat) : validate i r size = .ok := by
  have hbounds : badBounds i r size = false := by
    rw [Bool.eq_false_iff, ne_eq, badBounds_iff]
    rintro (⟨e, he, hbeyond⟩ | ⟨d, hd, hbeyond⟩)
    · exact hbeyond (.inl (inputExtents_len_of_empty hempty hdim he))
    · obtain ⟨n, hn, rfl⟩ := Option.map_eq_some_iff.mp hd
      exact hbeyond (.inl (lenD_of_empty hempty hn))
  have hoverlap : badOverlap i r = false := by
    rw [Bool.eq_false_iff, ne_eq, badOverlap_iff]
    rintro ⟨d, -, e, he, hshared⟩
    exact hshared (.inl (inputExtents_len_of_empty hempty hdim he))
  exact (validate_ok_iff ..).mpr ⟨hconfig, hformat, hdim, hbounds, hoverlap⟩

/-- On an empty frame a command computes no byte and draws nothing. -/
theorem kernelOf_of_empty (hformat : badFormat i r = false) (pl : Platform) (rd : Nat → Byte) (draws : Nat) :
    kernelOf pl i r rd draws = ([], draws) := by
  obtain ⟨n, hn⟩ := lenD_isSome hformat
  have hbytes : (kernelOf pl i r rd draws).1 = [] :=
    List.length_eq_zero_iff.mp ((kernelOf_length hn pl rd draws).trans (lenD_of_empty hempty hn))
  have hdraws : (kernelOf pl i r rd draws).2 = draws := by
    cases i
    case despeckle =>
      show (despeckleScan _ _ _ _ draws (r.w * r.h)).draws = draws
      rw [Nat.mul_eq_zero.mpr hempty, despeckleScan_zero]
    all_goals rfl
  exact Prod.ext hbytes hdraws

end

/-- A pending command that fails validation ends with the code (R116, R275). -/
theorem exec_of_validate_ne_ok {i : Instr} {s : State} {c : Snapshot} (hp : s.block.pending = some c)
    (hv : validate i c.regs s.platform.memSize ≠ .ok) :
    exec i s = .next (s.failedWith (validate i c.regs s.platform.memSize)) :=
  (exec_eq i s).trans (runCommand_error hp hv)

/-- Settles O11: every extent is empty, so the bounds and the overlap check pass and no byte is computed; the dimension check
stands before these two. -/
theorem emptyFramesCompleteUntouched : Obligations.EmptyFramesCompleteUntouched := by
  intro i s w r hp hzero hconfig hformat
  have hempty : r.w = 0 ∨ r.h = 0 := hzero.imp (congrArg BitVec.toNat) (congrArg BitVec.toNat)
  refine ⟨fun hdim => ?matching, fun hdim => ?differing⟩
  case matching =>
    rw [exec_of_validate_ok hp (validate_of_empty hempty hconfig hformat hdim _), kernelOf_of_empty hempty hformat]
    rfl
  case differing =>
    obtain ⟨-, -, hcode, -⟩ := validate_eq_iff i r s.platform.memSize
    have hv : validate i r s.platform.memSize = .dimensionMismatch := hcode.mpr ⟨by simp [hconfig], by simp [hformat], hdim⟩
    have hexec := exec_of_validate_ne_ok (i := i) hp (by rw [hv]; decide)
    rwa [hv] at hexec

/-! ### Acceptance (R111) -/

/-- A CMD write to a block without a pending command, by a host that keeps the extents disjoint, is accepted (R292). -/
theorem State.writeCmd_accepted {s : State} {w : Word} (hp : s.block.pending = none)
    (hapart : ∀ b ∈ s.others, ∀ c, b.pending = some c → c.clashes ⟨w, s.block.regs⟩ = false) :
    s.writeCmd w = .next { s with block := s.block.accept w } := by
  rcases s.writeCmd_cases w with ⟨hbusy, -⟩ | ⟨-, ⟨b, hb, c, hc, hclash⟩, -⟩ | ⟨-, -, haccept⟩
  · simp [Block.busy, hp] at hbusy
  · exact absurd ((hapart b hb c hc).symm.trans hclash) (by decide)
  · exact haccept

/-- Acceptance clears both causes of irq (R29, R111). -/
theorem Block.accept_irq (b : Block) (w : Word) : (b.accept w).irq = false := by simp [Block.irq]

/-- Settles O5. -/
theorem acceptanceTakesTheSnapshot : Obligations.AcceptanceTakesTheSnapshot := by
  intro s w rest hin hrun hp hapart
  exact ⟨_, (step_regWrite_cmd hrun hin).trans (State.writeCmd_accepted (s := { s with inbox := rest }) hp hapart), rfl,
    Block.accept_irq _ w⟩

/-! ### The block's turn (R110, R117, R118) -/

/-- The turn of a pending word that decodes is exec of its command. -/
theorem blockTurn_of_decode_ok {s : State} {c : Snapshot} {i : Instr} (hp : s.block.pending = some c)
    (hd : decode c.word = .ok i) : blockTurn s = exec i s := by
  simp [blockTurn, hp, hd]

/-- Settles O4: either form of the turn is `blockTurn`. -/
theorem stepRunsTheDecodedCommand : Obligations.StepRunsTheDecodedCommand := by
  intro s w r i _ hp hd
  refine ⟨fun hin => ?drained, fun rest hin => ?event⟩
  case drained => exact (step_of_pending hin hp).trans (blockTurn_of_decode_ok hp hd)
  case event => exact (step_block hin).trans (blockTurn_of_decode_ok (s := { s with inbox := rest }) hp hd)

/-- The block has ended a command: no snapshot is held, and DONE or ERR says how it ended (R117, R275). -/
def Block.Ended (b : Block) : Prop := b.pending = none ∧ (b.done = true ∨ b.err = true)

theorem Block.completeOk_ended (b : Block) : b.completeOk.Ended := ⟨rfl, .inl rfl⟩

theorem Block.completeError_ended (b : Block) (code : ErrCode) : (b.completeError code).Ended := ⟨rfl, .inr rfl⟩

/-- exec ends a pending command, whether validation passes or not. -/
theorem exec_ends {i : Instr} {s : State} {c : Snapshot} (hp : s.block.pending = some c) :
    ∃ t, exec i s = .next t ∧ t.block.Ended := by
  by_cases hv : validate i c.regs s.platform.memSize = .ok
  · exact ⟨_, exec_of_validate_ok hp hv, s.block.completeOk_ended⟩
  · exact ⟨_, exec_of_validate_ne_ok hp hv, s.block.completeError_ended _⟩

/-- A turn of the block ends a pending command, whether its word decodes or not. -/
theorem blockTurn_ends {s : State} {c : Snapshot} (hp : s.block.pending = some c) :
    ∃ t, blockTurn s = .next t ∧ t.block.Ended := by
  cases hd : decode c.word with
  | error e => exact ⟨_, blockTurn_of_decode_error hp hd, s.block.completeError_ended _⟩
  | ok i =>
    rw [blockTurn_of_decode_ok hp hd]
    exact exec_ends hp

/-- Settles O12. -/
theorem everyPendingCommandCompletes : Obligations.EveryPendingCommandCompletes := by
  intro s c hin hp
  obtain ⟨t, hturn, hpending, hended⟩ := blockTurn_ends hp
  exact ⟨t, (step_of_pending hin hp).trans hturn, by simp [Block.busy, hpending], hended⟩

end Sys2Proof.Machine
end

section
/-! PROOFS. 41_compositor.md: COMPOSE (R140, R141), from two facts about any command: what passes validation (R113), and where the
bytes stand that a command computes pixel by pixel. -/

namespace Sys2Proof.Machine

/-! ### A command that completes (R113, R117) -/

/-- Validation passes where the output of n bytes lies in frame memory, and so does every input, apart from it (R113). -/
theorem validate_ok_of_ready {i : Instr} {r : OpRegs} {size n : Nat} (hconfig : badConfig i r = false)
    (hformat : badFormat i r = false) (hdim : badDimensions i r = false) (hD : lenD i r = some n)
    (hfits : Fits size r.dBase.toNat n)
    (hinputs : ∀ e ∈ inputExtents i r, Fits size e.base e.len ∧ Apart e.base e.len r.dBase.toNat n) :
    validate i r size = .ok := by
  have hextent : extentD i r = some ⟨r.dBase.toNat, n⟩ := by rw [extentD, hD]; rfl
  have hbounds : badBounds i r size = false := by
    rw [Bool.eq_false_iff, ne_eq, badBounds_iff, hextent]
    rintro (⟨e, he, hbeyond⟩ | ⟨_, ⟨⟩, hbeyond⟩)
    · exact hbeyond (hinputs e he).1
    · exact hbeyond hfits
  have hoverlap : badOverlap i r = false := by
    rw [Bool.eq_false_iff, ne_eq, badOverlap_iff, hextent]
    rintro ⟨_, ⟨⟩, e, he, hshared⟩
    exact hshared (hinputs e he).2
  exact (validate_ok_iff ..).mpr ⟨hconfig, hformat, hdim, hbounds, hoverlap⟩

/-- A valid command that draws nothing and computes n pixels of k bytes each completes with byte c of pixel p at D_BASE + p·k + c,
and writes nothing else (R61, R62, R117). -/
theorem exec_writes_pixels {i : Instr} {s : State} {c : Snapshot} {pixel : Nat → List Byte} {n k : Nat}
    (hp : s.block.pending = some c) (hv : validate i c.regs s.platform.memSize = .ok)
    (hkernel : kernelOf s.platform i c.regs s.mem.read s.draws = ((List.range n).flatMap pixel, s.draws))
    (hpixel : ∀ p, (pixel p).length = k) :
    ∃ mem, exec i s = .next (s.doneWith mem 0) ∧ SameOutside s.mem mem c.regs.dBase.toNat (n * k) ∧
      ∀ p ch v, p < n → (pixel p)[ch]? = some v → mem.read (c.regs.dBase.toNat + (p * k + ch)) = v := by
  have hlen : ((List.range n).flatMap pixel).length = n * k := length_flatMap_range pixel k hpixel n
  refine ⟨s.mem.writeBytes c.regs.dBase.toNat ((List.range n).flatMap pixel), ?completes, ?frame, fun p ch v hpn hbyte => ?byte⟩
  case completes =>
    rw [exec_of_validate_ok hp hv, hkernel]
    rfl
  case frame =>
    rw [← hlen]
    exact Memory.sameOutside_writeBytes _ _ _
  case byte =>
    have hch : ch < k := hpixel p ▸ (List.getElem?_eq_some_iff.mp hbyte).1
    have hoffset : p * k + ch < ((List.range n).flatMap pixel).length := hlen ▸ pixel_offset_lt hpn hch
    rw [Memory.read_writeBytes_inside _ _ _ _ hoffset, List.getElem_eq_iff,
      getElem?_flatMap_range pixel k hpixel n p ch hpn hch, hbyte]

/-! ### COMPOSE (R140, R141) -/

/-- The A of COMPOSE has three bytes per pixel (R95, R96). -/
theorem exists_code_bpp_three {r : OpRegs} (h : r.aFmt = 2 ∨ r.aFmt = 3) :
    ∃ f : Format, r.aFmt = f.code ∧ f.bpp = some 3 := by
  rcases h with h | h
  · exact ⟨.rgb24, h, rfl⟩
  · exact ⟨.yuv444, h, rfl⟩

/-- The inputs of COMPOSE: the A frame, and a mask of A's dimensions with one byte per pixel (R30, R96). -/
theorem inputExtents_compose {r : OpRegs} (hfmt : r.aFmt = 2 ∨ r.aFmt = 3) (hw : r.mWidth = r.aWidth)
    (hh : r.mHeight = r.aHeight) :
    inputExtents .compose r = [⟨r.aBase.toNat, r.w * r.h * 3⟩, ⟨r.mBase.toNat, r.w * r.h⟩] := by
  obtain ⟨f, hcode, hbpp⟩ := exists_code_bpp_three hfmt
  rw [inputExtents, extentA_of_code hcode, Format.size_of_bpp hbpp, extentM, hw, hh]
  rfl

/-- COMPOSE passes validation under the conditions of R113. -/
theorem validate_compose_ok {r : OpRegs} {size : Nat} (hfmt : r.aFmt = 2 ∨ r.aFmt = 3) (hw : r.mWidth = r.aWidth)
    (hh : r.mHeight = r.aHeight) (hready : OneInputReady size r (r.w * r.h * 3) (r.w * r.h * 4))
    (hfitsM : Fits size r.mBase.toNat (r.w * r.h)) (hapartM : Apart r.mBase.toNat (r.w * r.h) r.dBase.toNat (r.w * r.h * 4)) :
    validate .compose r size = .ok := by
  obtain ⟨hfitsA, hfitsD, hapartA⟩ := hready
  have hformat : badFormat .compose r = false := by
    rw [Bool.eq_false_iff, ne_eq, badFormat_iff]
    rintro (hcode | ⟨hB, -⟩)
    · exact hcode (by simpa [acceptedCodes] using hfmt)
    · cases usesB_iff.mpr hB
  have hdim : badDimensions .compose r = false := by
    rw [Bool.eq_false_iff, ne_eq, badDimensions_iff]
    simp [hw, hh]
  refine validate_ok_of_ready rfl hformat hdim rfl hfitsD fun e he => ?_
  rw [inputExtents_compose hfmt hw hh, List.mem_pair] at he
  rcases he with rfl | rfl
  · exact ⟨hfitsA, hapartA⟩
  · exact ⟨hfitsM, hapartM⟩

/-- Settles O15: COMPOSE passes validation and writes `composePixel` of every pixel, the mask byte before the three of A. -/
theorem composePutsTheMaskFirst : Obligations.ComposePutsTheMaskFirst := by
  intro s w r hp hfmt hw hh n a m d hready hfitsM hapartM
  have hv := validate_compose_ok hfmt hw hh hready hfitsM hapartM
  obtain ⟨mem, hexec, hframe, hbytes⟩ :=
    exec_writes_pixels (pixel := composePixel r s.mem.read) (n := n) hp hv rfl (composePixel_length r _)
  refine ⟨mem, hexec, hframe, fun i hi => ?_⟩
  have hbyte : ∀ ch v, (composePixel r s.mem.read i)[ch]? = some v → mem.read (d + 4 * i + ch) = v := fun ch v hget => by
    rw [Nat.add_assoc, Nat.mul_comm 4 i]
    exact hbytes i ch v hi hget
  exact ⟨hbyte 0 _ rfl, hbyte 1 _ rfl, hbyte 2 _ rfl, hbyte 3 _ rfl⟩

end Sys2Proof.Machine
end

section
/-! PROOFS. 42_arithmetic.md: the byte functions of BLEND (R151, R152) and SUBTRACT (R153), and the two commands, which share what
a command over two frames of one packed format needs to complete (R113). -/

namespace Sys2Proof.Machine

/-! ### The byte function of BLEND (R151, R152) -/

/-- A mean with weights m and 255 - m stays below any bound on both values. -/
theorem weighted_sum_le {m a b bound : Nat} (hm : m ≤ 255) (ha : a ≤ bound) (hb : b ≤ bound) :
    m * a + (255 - m) * b ≤ 255 * bound :=
  calc m * a + (255 - m) * b ≤ m * bound + (255 - m) * bound :=
        Nat.add_le_add (Nat.mul_le_mul_left _ ha) (Nat.mul_le_mul_left _ hb)
    _ = 255 * bound := by rw [← Nat.add_mul, Nat.add_sub_cancel' hm]

theorem blend_quotient_le_max (m a b : Byte) :
    (m.toNat * a.toNat + (255 - m.toNat) * b.toNat) / 255 ≤ max a.toNat b.toNat :=
  Nat.div_le_of_le_mul (weighted_sum_le (Nat.le_of_lt_succ m.isLt) (le_max_left ..) (le_max_right ..))

/-- The quotient of R151 fits in a byte, so nothing is cut off. -/
theorem blendByte_toNat (m a b : Byte) :
    (blendByte m a b).toNat = (m.toNat * a.toNat + (255 - m.toNat) * b.toNat) / 255 := by
  have hlt : (m.toNat * a.toNat + (255 - m.toNat) * b.toNat) / 255 < 2 ^ 8 :=
    lt_of_le_of_lt (blend_quotient_le_max m a b) (max_lt a.isLt b.isLt)
  rw [blendByte, BitVec.toNat_ofNat, Nat.mod_eq_of_lt hlt]

/-- A weighted sum of 255 times a byte blends to that byte. -/
theorem blendByte_eq_of_sum {m a b c : Byte}
    (h : m.toNat * a.toNat + (255 - m.toNat) * b.toNat = 255 * c.toNat) : blendByte m a b = c := by
  apply BitVec.eq_of_toNat_eq
  rw [blendByte_toNat, h, Nat.mul_div_cancel_left _ (by decide)]

/-- Settles O17: at an end weight, and for equal bytes, the weighted sum is 255 times one byte. -/
theorem blendEndWeightsReproduceTheInputs : Obligations.BlendEndWeightsReproduceTheInputs := by
  intro m a b
  refine ⟨blendByte_eq_of_sum ?first, blendByte_eq_of_sum ?second, blendByte_eq_of_sum ?equal, ?bound⟩
  case first => simp
  case second => simp
  case equal => rw [← Nat.add_mul, Nat.add_sub_cancel' (Nat.le_of_lt_succ m.isLt)]
  case bound => exact blendByte_toNat m a b ▸ blend_quotient_le_max m a b

/-! ### The byte function of SUBTRACT (R153) -/

/-- The clamped difference fits in a byte, so nothing is cut off. -/
theorem subtractByte_toNat (a b : Byte) :
    ((subtractByte a b).toNat : Int) = min (max ((a.toNat : Int) - b.toNat) 0) 255 := by
  rw [subtractByte, BitVec.toNat_ofInt]
  omega

/-! ### A command over two frames of one packed format (R96, R113) -/

section
variable {i : Instr} {r : OpRegs} {f : Format} {bpp size : Nat}

theorem bppA_of_code (hcode : r.aFmt = f.code) (hbpp : f.bpp = some bpp) : bppA r = bpp := by
  simp [bppA, formatA, hcode, hbpp]

/-- BLEND and SUBTRACT take A in every packed format, with B in A's (R96). -/
theorem badFormat_of_packed (hB : usesB i = true) (hcode : r.aFmt = f.code) (hbpp : f.bpp = some bpp)
    (hfmtB : r.bFmt = r.aFmt) : badFormat i r = false := by
  have haccepts : acceptsA i f = true := by
    rcases usesB_iff.mp hB with rfl | rfl <;> simp [acceptsA, Format.packed, hbpp]
  simp [badFormat, formatA, hcode, hfmtB, haccepts]

/-- Their inputs past the checks of format and dimensions: A and B of one length, and the mask where the command reads it. -/
theorem mem_inputExtents_of_packed {e : Extent} (hB : usesB i = true) (hcode : r.aFmt = f.code) (hbpp : f.bpp = some bpp)
    (hfmtB : r.bFmt = r.aFmt) (hdim : badDimensions i r = false) (he : e ∈ inputExtents i r) :
    e = ⟨r.aBase.toNat, r.w * r.h * bpp⟩ ∨ e = ⟨r.bBase.toNat, r.w * r.h * bpp⟩ ∨
      (usesM i = true ∧ e = ⟨r.mBase.toNat, r.w * r.h⟩) := by
  rcases mem_inputExtents_iff.mp he with hA | ⟨-, hb⟩ | ⟨hM, rfl⟩
  · rw [extentA_of_code hcode, Format.size_of_bpp hbpp, Option.some_inj] at hA
    exact .inl hA.symm
  · obtain ⟨hw, hh⟩ := operandB_dimensions_eq hdim hB
    rw [extentB_of_code (hfmtB.trans hcode) hbpp, hw, hh, Option.some_inj] at hb
    exact .inr (.inl hb.symm)
  · obtain ⟨hw, hh⟩ := mask_dimensions_eq hdim hM
    rw [extentM, hw, hh]
    exact .inr (.inr ⟨hM, rfl⟩)

/-- They pass validation under the conditions of R113; those on the mask are asked of a command that reads it. -/
theorem validate_packed_ok (hB : usesB i = true) (hcode : r.aFmt = f.code) (hbpp : f.bpp = some bpp)
    (hfmtB : r.bFmt = r.aFmt) (hdim : badDimensions i r = false)
    (hready : OneInputReady size r (r.w * r.h * bpp) (r.w * r.h * bpp))
    (hfitsB : Fits size r.bBase.toNat (r.w * r.h * bpp))
    (hapartB : Apart r.bBase.toNat (r.w * r.h * bpp) r.dBase.toNat (r.w * r.h * bpp))
    (hmask : usesM i = true → Fits size r.mBase.toNat (r.w * r.h) ∧
      Apart r.mBase.toNat (r.w * r.h) r.dBase.toNat (r.w * r.h * bpp)) :
    validate i r size = .ok := by
  obtain ⟨hfitsA, hfitsD, hapartA⟩ := hready
  have hi := usesB_iff.mp hB
  have hconfig : badConfig i r = false := by rcases hi with rfl | rfl <;> rfl
  have hD : lenD i r = some (r.w * r.h * bpp) := lenD_of_code (hi.imp_right .inl) hcode hbpp
  refine validate_ok_of_ready hconfig (badFormat_of_packed hB hcode hbpp hfmtB) hdim hD hfitsD fun e he => ?_
  rcases mem_inputExtents_of_packed hB hcode hbpp hfmtB hdim he with rfl | rfl | ⟨hM, rfl⟩
  · exact ⟨hfitsA, hapartA⟩
  · exact ⟨hfitsB, hapartB⟩
  · exact hmask hM

end

/-- A valid command whose byte c of pixel p is a function of p and c leaves that byte at D_BASE + p·k + c, and writes nothing else
(R62, R117, R154). -/
theorem exec_writes_bytes {i : Instr} {s : State} {c : Snapshot} {byte : Nat → Nat → Byte} {n k : Nat}
    (hp : s.block.pending = some c) (hv : validate i c.regs s.platform.memSize = .ok)
    (hkernel : kernelOf s.platform i c.regs s.mem.read s.draws =
      ((List.range n).flatMap fun p => (List.range k).map (byte p), s.draws)) :
    ∃ mem, exec i s = .next (s.doneWith mem 0) ∧ SameOutside s.mem mem c.regs.dBase.toNat (n * k) ∧
      ∀ p ch, p < n → ch < k → mem.read (c.regs.dBase.toNat + p * k + ch) = byte p ch := by
  obtain ⟨mem, hexec, hframe, hbytes⟩ := exec_writes_pixels (k := k) hp hv hkernel fun p => by simp
  refine ⟨mem, hexec, hframe, fun p ch hpn hch => ?_⟩
  rw [Nat.add_assoc]
  exact hbytes p ch _ hpn (by simp [hch])

/-! ### BLEND and SUBTRACT (R151, R153, R154) -/

/-- Settles O16: BLEND passes validation and writes `blendByte` of every byte, with the mask byte of its pixel. -/
theorem blendInterpolatesByTheMask : Obligations.BlendInterpolatesByTheMask := by
  intro s w r f bpp hp hcode hbpp hfmtB hwM hhM hwB hhB n a b m d hready hfitsB hapartB hfitsM hapartM
  have hdim : badDimensions .blend r = false := by simp [badDimensions, hwM, hhM, hwB, hhB]
  have hv := validate_packed_ok rfl hcode hbpp hfmtB hdim hready hfitsB hapartB fun _ => ⟨hfitsM, hapartM⟩
  have hkernel : kernelOf s.platform .blend r s.mem.read s.draws =
      ((List.range n).flatMap (blendPixel r bpp s.mem.read), s.draws) := by
    rw [← bppA_of_code hcode hbpp]
    rfl
  obtain ⟨mem, hexec, hframe, hbytes⟩ := exec_writes_bytes hp hv hkernel
  refine ⟨mem, hexec, hframe, fun p ch hpn hch => ?_⟩
  rw [Memory.byteAt, hbytes p ch hpn hch, blendByte_toNat]
  rfl

/-- Settles O18: SUBTRACT passes validation and writes `subtractByte` of every byte. -/
theorem subtractClampsTheDifference : Obligations.SubtractClampsTheDifference := by
  intro s w r f bpp hp hcode hbpp hfmtB hwB hhB n a b d hready hfitsB hapartB
  have hdim : badDimensions .subtract r = false := by simp [badDimensions, usesM, hwB, hhB]
  have hv := validate_packed_ok rfl hcode hbpp hfmtB hdim hready hfitsB hapartB nofun
  have hkernel : kernelOf s.platform .subtract r s.mem.read s.draws =
      ((List.range n).flatMap (subtractPixel r bpp s.mem.read), s.draws) := by
    rw [← bppA_of_code hcode hbpp]
    rfl
  obtain ⟨mem, hexec, hframe, hbytes⟩ := exec_writes_bytes hp hv hkernel
  refine ⟨mem, hexec, hframe, fun p ch hpn hch => ?_⟩
  rw [Memory.byteAt, hbytes p ch hpn hch, subtractByte_toNat]
  rfl

end Sys2Proof.Machine
end

section
/-! PROOFS. 43_colorspace.md: toHSV (R172 to R176), toRGB (R177 to R179), their round trip (R182), the stretch (R183 to R185), and
the four commands (R180, R181, R186, R188). That a triple holds bytes is said as `maxChannel t ≤ 255`. -/

namespace Sys2Proof.Machine

/-! ### The extrema of a triple (R172) -/

section
variable {t : Triple}

theorem channels_le_maxChannel (t : Triple) : t.c0 ≤ maxChannel t ∧ t.c1 ≤ maxChannel t ∧ t.c2 ≤ maxChannel t := by
  unfold maxChannel
  omega

theorem minChannel_le_channels (t : Triple) : minChannel t ≤ t.c0 ∧ minChannel t ≤ t.c1 ∧ minChannel t ≤ t.c2 := by
  unfold minChannel
  omega

theorem maxChannel_attained (t : Triple) : t.c0 = maxChannel t ∨ t.c1 = maxChannel t ∨ t.c2 = maxChannel t := by
  unfold maxChannel
  omega

theorem minChannel_attained (t : Triple) : t.c0 = minChannel t ∨ t.c1 = minChannel t ∨ t.c2 = minChannel t := by
  unfold minChannel
  omega

theorem minChannel_le_maxChannel (t : Triple) : minChannel t ≤ maxChannel t :=
  (minChannel_le_channels t).1.trans (channels_le_maxChannel t).1

theorem maxChannel_le_iff {n : Nat} : maxChannel t ≤ n ↔ t.c0 ≤ n ∧ t.c1 ≤ n ∧ t.c2 ≤ n := by
  unfold maxChannel
  omega

/-! ### toHSV: value and saturation (R172, R173) -/

@[simp] theorem toHSV_value (t : Triple) : (toHSV t).c2 = maxChannel t := by
  simp only [toHSV]
  split <;> rfl

@[simp] theorem toHSV_saturation (t : Triple) : (toHSV t).c1 = saturation t := by
  simp only [toHSV]
  split
  · next hs => exact hs.symm
  · rfl

theorem toHSV_hue_of_unsaturated (hs : saturation t = 0) : (toHSV t).c0 = 0 := by simp [toHSV, hs]

theorem toHSV_hue_of_saturated (hs : saturation t ≠ 0) : (toHSV t).c0 = hueScale (hueSector t) := by simp [toHSV, hs]

theorem saturation_of_black (h : maxChannel t = 0) : saturation t = 0 := if_pos h

theorem saturation_of_not_black (h : maxChannel t ≠ 0) :
    saturation t = ((maxChannel t - minChannel t) * 255) / maxChannel t := if_neg h

theorem saturation_le (t : Triple) : saturation t ≤ 255 := by
  by_cases h : maxChannel t = 0
  · simp [saturation_of_black h]
  · rw [saturation_of_not_black h]
    exact Nat.div_le_of_le_mul (Nat.mul_le_mul_right _ (Nat.sub_le ..))

theorem saturation_of_grey (h : minChannel t = maxChannel t) : saturation t = 0 := by simp [saturation, h]

/-- Only grey is unsaturated: else the numerator is at least 255, which a byte does not exceed (R173). -/
theorem saturation_eq_zero_iff (ht : maxChannel t ≤ 255) : saturation t = 0 ↔ minChannel t = maxChannel t := by
  refine ⟨fun hs => ?grey, saturation_of_grey⟩
  by_contra hne
  have hlt := lt_of_le_of_ne (minChannel_le_maxChannel t) hne
  rw [saturation_of_not_black (by omega), Nat.div_eq_zero_iff] at hs
  omega

/-- Settles O23. -/
theorem toHsvValueAndSaturation : Obligations.ToHsvValueAndSaturation := by
  intro r g b hr hg hb
  have hbytes : maxChannel ⟨r, g, b⟩ ≤ 255 := maxChannel_le_iff.mpr ⟨hr, hg, hb⟩
  simp only [toHSV_value, toHSV_saturation]
  exact ⟨rfl, saturation_of_black (t := ⟨r, g, b⟩), saturation_of_not_black (t := ⟨r, g, b⟩), saturation_eq_zero_iff hbytes,
    toHSV_hue_of_unsaturated⟩

/-! ### toHSV: the hue sector (R174, R176) -/

/-- delta of R174, without its guard. -/
def spread (t : Triple) : Int := (maxChannel t : Int) - minChannel t

theorem spread_pos (hne : minChannel t ≠ maxChannel t) : 0 < spread t := by
  have := minChannel_le_maxChannel t
  unfold spread
  omega

/-- The guard on delta cannot fire for a coloured pixel (R174). -/
theorem hueSector_of_coloured (hne : minChannel t ≠ maxChannel t) :
    hueSector t =
      if t.c0 = maxChannel t then (((t.c1 : Int) - t.c2) * 255).tdiv (spread t)
      else if t.c1 = maxChannel t then 510 + (((t.c2 : Int) - t.c0) * 255).tdiv (spread t)
      else 1020 + (((t.c0 : Int) - t.c1) * 255).tdiv (spread t) := by
  have hguard : (maxChannel t : Int) - minChannel t ≠ 0 := (spread_pos hne).ne'
  simp only [hueSector, if_neg hguard, Nat.cast_inj, spread]

theorem tdiv_self_scaled {d : Int} (hd : 0 < d) : (d * 255).tdiv d = 255 := Int.mul_tdiv_cancel_left 255 hd.ne'

theorem tdiv_neg_self_scaled {d : Int} (hd : 0 < d) : (-d * 255).tdiv d = -255 := by
  rw [Int.neg_mul, Int.neg_tdiv, tdiv_self_scaled hd]

theorem sector_rise (hne : minChannel t ≠ maxChannel t) {a b : Nat} (ha : a = maxChannel t) (hb : b = minChannel t) :
    (((a : Int) - b) * 255).tdiv (spread t) = 255 := by
  have hdelta : (a : Int) - b = spread t := by rw [ha, hb, spread]
  rw [hdelta, tdiv_self_scaled (spread_pos hne)]

theorem sector_fall (hne : minChannel t ≠ maxChannel t) {a b : Nat} (ha : a = minChannel t) (hb : b = maxChannel t) :
    (((a : Int) - b) * 255).tdiv (spread t) = -255 := by
  have hdelta : (a : Int) - b = -spread t := by rw [ha, hb, spread, neg_sub]
  rw [hdelta, tdiv_neg_self_scaled (spread_pos hne)]

theorem hueSector_of_red (hne : minChannel t ≠ maxChannel t) (hred : t.c0 = maxChannel t) :
    hueSector t = (((t.c1 : Int) - t.c2) * 255).tdiv (spread t) := by
  rw [hueSector_of_coloured hne, if_pos hred]

/-- Where green shares the maximum with red, both sector values are 255. -/
theorem hueSector_of_green (hne : minChannel t ≠ maxChannel t) (hgreen : t.c1 = maxChannel t) :
    hueSector t = 510 + (((t.c2 : Int) - t.c0) * 255).tdiv (spread t) := by
  by_cases hred : t.c0 = maxChannel t
  · have hblue : t.c2 = minChannel t := by
      have := minChannel_attained t
      omega
    rw [hueSector_of_red hne hred, sector_rise hne hgreen hblue, sector_fall hne hblue hred]
    rfl
  · rw [hueSector_of_coloured hne, if_neg hred, if_pos hgreen]

/-- Where blue shares the maximum with green, both sector values are 765; where it does with red, they are -255 and 1275, one
turn apart before the wrap. -/
theorem hueSector_of_blue (hne : minChannel t ≠ maxChannel t) (hblue : t.c2 = maxChannel t) :
    hueSector t = 1020 + (((t.c0 : Int) - t.c1) * 255).tdiv (spread t) ∨
      (hueSector t = -255 ∧ 1020 + (((t.c0 : Int) - t.c1) * 255).tdiv (spread t) = 1275) := by
  have hmin := minChannel_attained t
  by_cases hred : t.c0 = maxChannel t
  · have hgreen : t.c1 = minChannel t := by omega
    rw [hueSector_of_red hne hred, sector_fall hne hgreen hblue, sector_rise hne hred hgreen]
    exact .inr ⟨rfl, rfl⟩
  · left
    by_cases hgreen : t.c1 = maxChannel t
    · have hleast : t.c0 = minChannel t := by omega
      rw [hueSector_of_green hne hgreen, sector_rise hne hblue hleast, sector_fall hne hleast hgreen]
      rfl
    · rw [hueSector_of_coloured hne, if_neg hred, if_neg hgreen]

/-- A difference of channels, scaled by 255 over delta, is in -255..255 (R171). -/
theorem tdiv_scaled_bounds {a d : Int} (hd : 0 < d) (hlo : -d ≤ a) (hhi : a ≤ d) :
    -255 ≤ (a * 255).tdiv d ∧ (a * 255).tdiv d ≤ 255 := by
  constructor
  · calc -255 = (-d * 255).tdiv d := (tdiv_neg_self_scaled hd).symm
      _ ≤ (a * 255).tdiv d := Int.tdiv_le_tdiv hd (by omega)
  · calc (a * 255).tdiv d ≤ (d * 255).tdiv d := Int.tdiv_le_tdiv hd (by omega)
      _ = 255 := tdiv_self_scaled hd

/-- The range R171 gives the sector value. -/
theorem hueSector_bounds (hne : minChannel t ≠ maxChannel t) : -255 ≤ hueSector t ∧ hueSector t ≤ 1275 := by
  have hpos := spread_pos hne
  have hle := channels_le_maxChannel t
  have hge := minChannel_le_channels t
  have hspread : spread t = maxChannel t - minChannel t := rfl
  have hgb := tdiv_scaled_bounds (a := (t.c1 : Int) - t.c2) hpos (by omega) (by omega)
  have hbr := tdiv_scaled_bounds (a := (t.c2 : Int) - t.c0) hpos (by omega) (by omega)
  have hrg := tdiv_scaled_bounds (a := (t.c0 : Int) - t.c1) hpos (by omega) (by omega)
  rw [hueSector_of_coloured hne]
  split_ifs <;> omega

end

/-! ### toHSV: the hue scaling (R175) -/

/-- One wrap into 0..359, for degrees in -60..300 (R175). -/
def wrapDegrees (hd : Int) : Int := if hd < 0 then hd + 360 else if hd ≥ 360 then hd - 360 else hd

theorem wrapDegrees_bounds {hd : Int} (hlo : -360 ≤ hd) (hhi : hd < 720) : 0 ≤ wrapDegrees hd ∧ wrapDegrees hd ≤ 359 := by
  unfold wrapDegrees
  split_ifs <;> omega

section
variable {x : Int} (hlo : -255 ≤ x) (hhi : x ≤ 1275)
include hlo hhi

theorem degrees_bounds : -60 ≤ (x * 60).tdiv 255 ∧ (x * 60).tdiv 255 ≤ 300 := by
  have hfirst : (-255 * 60 : Int).tdiv 255 ≤ (x * 60).tdiv 255 := Int.tdiv_le_tdiv (by decide) (by omega)
  have hlast : (x * 60).tdiv 255 ≤ (1275 * 60 : Int).tdiv 255 := Int.tdiv_le_tdiv (by decide) (by omega)
  exact ⟨hfirst, hlast⟩

/-- On the range of the sector value the hue is the wrapped degrees rescaled, and is not negative. -/
theorem hueScale_eq : (hueScale x : Int) = (wrapDegrees ((x * 60).tdiv 255) * 255).tdiv 360 := by
  obtain ⟨hmin, hmax⟩ := degrees_bounds hlo hhi
  have hwrapped := (wrapDegrees_bounds (hd := (x * 60).tdiv 255) (by omega) (by omega)).1
  have hscale : hueScale x = ((wrapDegrees ((x * 60).tdiv 255) * 255).tdiv 360).toNat := by
    by_cases hneg : (x * 60).tdiv 255 < 0
    · have honce : ¬ (x * 60).tdiv 255 + 360 ≥ 360 := by omega
      simp only [hueScale, wrapDegrees, if_pos hneg, if_neg honce]
    · simp only [hueScale, wrapDegrees, if_neg hneg]
  rw [hscale, Int.toNat_of_nonneg (Int.tdiv_nonneg (Int.mul_nonneg hwrapped (by decide)) (by decide))]

theorem hueScale_le : hueScale x ≤ 254 := by
  obtain ⟨hmin, hmax⟩ := degrees_bounds hlo hhi
  obtain ⟨-, hwrapped⟩ := wrapDegrees_bounds (hd := (x * 60).tdiv 255) (by omega) (by omega)
  have hlast : (hueScale x : Int) ≤ (359 * 255 : Int).tdiv 360 := by
    rw [hueScale_eq hlo hhi]
    exact Int.tdiv_le_tdiv (by decide) (by omega)
  exact Int.ofNat_le.mp hlast

end

section
variable {t : Triple}

/-- The hue of a coloured pixel, scaled from its sector value (R175). -/
theorem toHSV_hue_of_coloured (ht : maxChannel t ≤ 255) (hne : minChannel t ≠ maxChannel t) :
    ((toHSV t).c0 : Int) = (wrapDegrees ((hueSector t * 60).tdiv 255) * 255).tdiv 360 := by
  obtain ⟨hlo, hhi⟩ := hueSector_bounds hne
  rw [toHSV_hue_of_saturated (mt (saturation_eq_zero_iff ht).mp hne), hueScale_eq hlo hhi]

theorem toHSV_hue_le (t : Triple) : (toHSV t).c0 ≤ 254 := by
  by_cases hs : saturation t = 0
  · simp [toHSV_hue_of_unsaturated hs]
  · obtain ⟨hlo, hhi⟩ := hueSector_bounds (mt saturation_of_grey hs)
    rw [toHSV_hue_of_saturated hs]
    exact hueScale_le hlo hhi

theorem maxChannel_toHSV_le (ht : maxChannel t ≤ 255) : maxChannel (toHSV t) ≤ 255 := by
  rw [maxChannel_le_iff, toHSV_saturation, toHSV_value]
  exact ⟨(toHSV_hue_le t).trans (by decide), saturation_le t, ht⟩

end

/-- Settles O24: the sector value belongs to any channel that holds the maximum, up to one turn, which the wrap removes. -/
theorem toHsvHueIgnoresTheTestOrder : Obligations.ToHsvHueIgnoresTheTestOrder := by
  intro r g b hr hg hb mx mn degrees wrap hue (hne : minChannel ⟨r, g, b⟩ ≠ maxChannel ⟨r, g, b⟩)
  have hhue : ((toHSV ⟨r, g, b⟩).c0 : Int) = hue (hueSector ⟨r, g, b⟩) :=
    toHSV_hue_of_coloured (maxChannel_le_iff.mpr ⟨hr, hg, hb⟩) hne
  refine ⟨fun hred => ?red, fun hgreen => ?green, fun hblue => ?blue⟩
  case red => rw [hhue, hueSector_of_red hne hred]; rfl
  case green => rw [hhue, hueSector_of_green hne hgreen]; rfl
  case blue =>
    rcases hueSector_of_blue hne hblue with hsector | ⟨hsector, hturn⟩
    · rw [hhue, hsector]; rfl
    · calc ((toHSV ⟨r, g, b⟩).c0 : Int) = hue (-255) := by rw [hhue, hsector]
        _ = hue 1275 := by decide
        _ = _ := by rw [← hturn]; rfl

/-- Settles O25. -/
theorem toHsvStaysInBytes : Obligations.ToHsvStaysInBytes := by
  intro r g b hr hg hb
  rw [toHSV_saturation, toHSV_value]
  exact ⟨toHSV_hue_le _, saturation_le _, maxChannel_le_iff.mpr ⟨hr, hg, hb⟩⟩

/-! ### toRGB (R177 to R179, R181) -/

/-- The row of the table of R179 for a sector. -/
def hueRow (sector v p q u : Nat) : Triple :=
  match sector with
  | 0 => ⟨v, u, p⟩
  | 1 => ⟨q, v, p⟩
  | 2 => ⟨p, v, u⟩
  | 3 => ⟨p, q, v⟩
  | 4 => ⟨u, p, v⟩
  | _ => ⟨v, p, q⟩

/-- p of R179. -/
def tintP (s v : Nat) : Nat := (v * (255 - s)) / 255

/-- q of R179. -/
def tintQ (s v f : Nat) : Nat := (v * (255 * 59 - s * f)) / (255 * 59)

/-- t of R179 is q at the mirrored fraction. -/
theorem toRGB_of_saturated {h s v : Nat} (hs : s ≠ 0) :
    toRGB ⟨h, s, v⟩ = hueRow (h * 360 / 255 / 60 % 6) v (tintP s v) (tintQ s v (h * 360 / 255 % 60))
      (tintQ s v (59 - h * 360 / 255 % 60)) := by
  simp only [toRGB, if_neg hs]
  rfl

theorem toRGB_grey (h v : Nat) : toRGB ⟨h, 0, v⟩ = ⟨v, v, v⟩ := rfl

theorem tintP_le (s v : Nat) : tintP s v ≤ v := Nat.div_le_of_le_mul <| by
  rw [Nat.mul_comm 255]
  exact Nat.mul_le_mul_left _ (Nat.sub_le ..)

theorem tintQ_le (s v f : Nat) : tintQ s v f ≤ v := Nat.div_le_of_le_mul <| by
  rw [Nat.mul_comm (255 * 59)]
  exact Nat.mul_le_mul_left _ (Nat.sub_le ..)

/-- Each row holds v beside components that do not exceed it (R181). -/
theorem maxChannel_hueRow {v p q u : Nat} (hp : p ≤ v) (hq : q ≤ v) (hu : u ≤ v) (sector : Nat) :
    maxChannel (hueRow sector v p q u) = v := by
  unfold hueRow
  split <;> simp [maxChannel, hp, hq, hu]

@[simp] theorem maxChannel_toRGB (t : Triple) : maxChannel (toRGB t) = t.c2 := by
  obtain ⟨h, s, v⟩ := t
  by_cases hs : s = 0
  · subst hs
    simp [toRGB_grey, maxChannel]
  · rw [toRGB_of_saturated hs]
    exact maxChannel_hueRow (tintP_le ..) (tintQ_le ..) (tintQ_le ..) _

/-- Settles O27. -/
theorem toRgbChannelsReachValue : Obligations.ToRgbChannelsReachValue := by
  intro h s v _ _ _ o hd i f p q t
  have hmax : maxChannel o = v := maxChannel_toRGB _
  have hle := channels_le_maxChannel o
  have hattained := maxChannel_attained o
  rw [hmax] at hle hattained
  have hrow : ∀ k, s ≠ 0 → i = k → o = hueRow k v p q t := fun k hs hi => hi ▸ toRGB_of_saturated hs
  exact ⟨fun hs => by subst hs; exact toRGB_grey h v,
    fun hs => ⟨hrow 0 hs, hrow 1 hs, hrow 2 hs, hrow 3 hs, hrow 4 hs, hrow 5 hs⟩, hle.1, hle.2.1, hle.2.2, hattained⟩

/-- Settles O26: at hue 255 the degrees are 360, which is sector 6 with fraction 0. -/
theorem toRgbGreyAndHueFold : Obligations.ToRgbGreyAndHueFold := by
  refine ⟨toRGB_grey, fun s v => ?_⟩
  by_cases hs : s = 0
  · rw [hs, toRGB_grey, toRGB_grey]
  · rw [toRGB_of_saturated hs, toRGB_of_saturated hs]

/-! ### The round trip (R182) -/

/-- Settles O28: toHSV keeps the largest channel as v, and toRGB reaches v; a grey pixel has no saturation. -/
theorem roundTripKeepsGreyAndTheLargestChannel : Obligations.RoundTripKeepsGreyAndTheLargestChannel := by
  intro r g b _ _ _
  refine ⟨?grey, ?largest⟩
  case grey =>
    have hs : saturation ⟨r, r, r⟩ = 0 := saturation_of_grey (by simp [minChannel, maxChannel])
    have hhsv : toHSV ⟨r, r, r⟩ = ⟨0, 0, r⟩ := by simp [toHSV, hs, maxChannel]
    rw [hhsv, toRGB_grey]
  case largest => exact (maxChannel_toRGB _).trans (toHSV_value _)

/-- Settles O29. -/
theorem roundTripIsNotWithinOne : Obligations.RoundTripIsNotWithinOne := by
  unfold Obligations.RoundTripIsNotWithinOne
  decide

/-! ### The stretch (R183 to R185) -/

theorem rangeOf_concat (xs : List Nat) (x : Nat) :
    rangeOf (xs ++ [x]) = ⟨min (rangeOf xs).lo x, max (rangeOf xs).hi x⟩ := by
  simp [rangeOf, Range.track]

/-- The lower bound starts at 0 and can only fall (R185). -/
theorem rangeOf_lo (xs : List Nat) : (rangeOf xs).lo = 0 := by
  induction xs using List.reverseRecOn with
  | nil => rfl
  | append_singleton xs x ih => simp [rangeOf_concat, ih]

theorem le_rangeOf_hi {xs : List Nat} {x : Nat} (hx : x ∈ xs) : x ≤ (rangeOf xs).hi := by
  induction xs using List.reverseRecOn with
  | nil => cases hx
  | append_singleton xs y ih =>
    rw [rangeOf_concat]
    rcases List.mem_append.mp hx with hx | hx
    · exact (ih hx).trans (le_max_left ..)
    · rw [List.mem_singleton.mp hx]
      exact le_max_right ..

theorem rangeOf_hi_attained (xs : List Nat) : (rangeOf xs).hi = 0 ∨ (rangeOf xs).hi ∈ xs := by
  induction xs using List.reverseRecOn with
  | nil => exact .inl rfl
  | append_singleton xs x ih =>
    rw [rangeOf_concat]
    rcases max_choice (rangeOf xs).hi x with hmax | hmax <;> simp only [hmax]
    · exact ih.imp_right (List.mem_append_left _)
    · simp

/-- The range of n values is 0 .. the largest of them (R184, R185). -/
theorem rangeOf_map_range (f : Nat → Nat) (n : Nat) : rangeOf ((List.range n).map f) = ⟨0, largest n f⟩ := by
  induction n with
  | zero => rfl
  | succ n ih =>
    rw [List.range_succ, List.map_append, List.map_singleton, rangeOf_concat, ih, Nat.zero_min, largest, largest,
      Finset.range_add_one, Finset.sup_insert, Nat.max_comm]

theorem le_largest {n p : Nat} (f : Nat → Nat) (hp : p < n) : f p ≤ largest n f := Finset.le_sup (Finset.mem_range.mpr hp)

/-- With the lower bound 0 the division of R183 is one of natural numbers. -/
theorem Range.stretch_of_lo_zero (hi x : Nat) : (⟨0, hi⟩ : Range).stretch x = stretchFromZero hi x := by
  have hquotient : ((((x : Int) - (0 : Nat)) * 255).tdiv ((hi : Int) - (0 : Nat))).toNat = x * 255 / hi := by
    simp only [Nat.cast_zero, sub_zero]
    exact congrArg Int.toNat (Int.ofNat_tdiv (x * 255) hi).symm
  rw [Range.stretch, stretchFromZero, hquotient]

theorem stretchFromZero_le {hi x : Nat} (hx : x ≤ hi) : stretchFromZero hi x ≤ 255 := by
  unfold stretchFromZero
  split
  · omega
  · exact Nat.div_le_of_le_mul (Nat.mul_le_mul_right _ hx)

/-- Settles O30. -/
theorem stretchRangeStartsAtZero : Obligations.StretchRangeStartsAtZero := by
  refine ⟨rfl, rangeOf_concat, fun xs _ => ⟨rangeOf_lo xs, fun x => le_rangeOf_hi, rangeOf_hi_attained xs, fun x hx => ?_⟩⟩
  have hrange : rangeOf xs = ⟨0, (rangeOf xs).hi⟩ := by rw [← rangeOf_lo xs]
  have hstretch : (rangeOf xs).stretch x = stretchFromZero (rangeOf xs).hi x := by
    rw [← Range.stretch_of_lo_zero, ← hrange]
  exact ⟨hstretch, hstretch ▸ stretchFromZero_le (le_rangeOf_hi hx)⟩

/-! ### A command that reads A alone (R96, R113) -/

/-- It passes validation under the conditions of R113. -/
theorem validate_oneInput_ok {i : Instr} {r : OpRegs} {f : Format} {size n : Nat} (hB : usesB i = false)
    (hM : usesM i = false) (hconfig : badConfig i r = false) (hcode : r.aFmt = f.code) (haccepts : acceptsA i f = true)
    (hD : lenD i r = some n) (hready : OneInputReady size r (f.size r.w r.h) n) : validate i r size = .ok := by
  obtain ⟨hfitsA, hfitsD, hapart⟩ := hready
  have hformat : badFormat i r = false := by simp [badFormat, formatA, hcode, haccepts, hB]
  have hdim : badDimensions i r = false := by simp [badDimensions, hB, hM]
  refine validate_ok_of_ready hconfig hformat hdim hD hfitsD fun e he => ?_
  rw [inputExtents_A hB hM (extentA_of_code hcode), List.mem_singleton] at he
  subst he
  exact ⟨hfitsA, hapart⟩

/-- The bytes of a triple of bytes, read back (R63). -/
theorem pixel3_of_bytes {m : Memory} {base p : Nat} {t : Triple} (ht : maxChannel t ≤ 255)
    (hbytes : ∀ ch v, t.bytes[ch]? = some v → m.read (base + (p * 3 + ch)) = v) : m.pixel3 base p = t := by
  obtain ⟨h0, h1, h2⟩ := maxChannel_le_iff.mp ht
  have hbyte : ∀ ch x, x ≤ 255 → t.bytes[ch]? = some (BitVec.ofNat 8 x) → m.byteAt (base + 3 * p + ch) = x :=
    fun ch x hx hget => by
      rw [Memory.byteAt, Nat.add_assoc, Nat.mul_comm 3 p, hbytes ch _ hget, BitVec.toNat_ofNat]
      exact Nat.mod_eq_of_lt (Nat.lt_succ_of_le hx)
  rw [Memory.pixel3, hbyte 1 t.c1 h1 rfl, hbyte 2 t.c2 h2 rfl]
  exact congrArg (Triple.mk · t.c1 t.c2) (hbyte 0 t.c0 h0 rfl)

/-- A command that turns the pixels of one three-byte frame into triples of bytes completes under the conditions of R113, with
each triple in its place (R62, R63, R117). -/
theorem exec_writes_triples {i : Instr} {s : State} {c : Snapshot} {f : Format} {pixel : Nat → Triple} {n : Nat}
    (hp : s.block.pending = some c) (hB : usesB i = false) (hM : usesM i = false) (hconfig : badConfig i c.regs = false)
    (hcode : c.regs.aFmt = f.code) (haccepts : acceptsA i f = true) (hbpp : f.bpp = some 3)
    (hn : c.regs.w * c.regs.h = n) (hD : lenD i c.regs = some (n * 3))
    (hready : OneInputReady s.platform.memSize c.regs (n * 3) (n * 3))
    (hkernel : kernelOf s.platform i c.regs s.mem.read s.draws =
      ((List.range n).flatMap fun p => (pixel p).bytes, s.draws))
    (hpixel : ∀ p, p < n → maxChannel (pixel p) ≤ 255) :
    ∃ mem, exec i s = .next (s.doneWith mem 0) ∧ SameOutside s.mem mem c.regs.dBase.toNat (n * 3) ∧
      ∀ p, p < n → mem.pixel3 c.regs.dBase.toNat p = pixel p := by
  have hv : validate i c.regs s.platform.memSize = .ok :=
    validate_oneInput_ok hB hM hconfig hcode haccepts hD (by rwa [Format.size_of_bpp hbpp, hn])
  obtain ⟨mem, hexec, hframe, hbytes⟩ := exec_writes_pixels hp hv hkernel fun p => (pixel p).bytes_length
  exact ⟨mem, hexec, hframe, fun p hpn => pixel3_of_bytes (hpixel p hpn) fun ch v => hbytes p ch v hpn⟩

/-! ### The four commands (R180, R181, R186, R188) -/

theorem maxChannel_pixel3_le (m : Memory) (base p : Nat) : maxChannel (m.pixel3 base p) ≤ 255 :=
  maxChannel_le_iff.mpr ⟨Nat.le_of_lt_succ (m.read _).isLt, Nat.le_of_lt_succ (m.read _).isLt,
    Nat.le_of_lt_succ (m.read _).isLt⟩

/-- Settles O19. -/
theorem rgb2hsvConvertsEveryPixel : Obligations.Rgb2hsvConvertsEveryPixel := by
  intro s w r hp hfmt n hready
  exact exec_writes_triples (f := .rgb24) hp rfl rfl rfl hfmt rfl rfl rfl rfl hready rfl fun p _ =>
    maxChannel_toHSV_le (maxChannel_pixel3_le ..)

/-- Settles O20. -/
theorem hsv2rgbConvertsEveryPixel : Obligations.Hsv2rgbConvertsEveryPixel := by
  intro s w r hp hfmt n hready
  refine exec_writes_triples (f := .hsv24) hp rfl rfl rfl hfmt rfl rfl rfl rfl hready rfl fun p _ => ?_
  rw [maxChannel_toRGB]
  exact (maxChannel_le_iff.mp (maxChannel_pixel3_le ..)).2.2

/-- The range of a channel of the HSV frame (R186). -/
theorem rangeOf_hsvFrame (r : OpRegs) (rd : Nat → Byte) (channel : Triple → Nat) :
    rangeOf ((hsvFrame r rd).map channel) = ⟨0, largest (r.w * r.h) fun p => channel (toHSV (readTriple r rd p))⟩ := by
  rw [hsvFrame, List.map_map, rangeOf_map_range]
  rfl

/-- Settles O21: the kernel stretches from the range 0 .. largest, and no stretched value leaves the bytes. -/
theorem autostretchStretchesFromZero : Obligations.AutostretchStretchesFromZero := by
  intro s w r hp hfmt n hsv sHi vHi hready
  have hkernel : kernelOf s.platform .autostretch r s.mem.read s.draws =
      ((List.range n).flatMap fun p =>
        (toRGB ⟨(hsv p).c0, stretchFromZero sHi (hsv p).c1, stretchFromZero vHi (hsv p).c2⟩).bytes, s.draws) := by
    simp only [kernelOf, autostretchBytes_eq, rangeOf_hsvFrame, autostretchPixel, Range.stretch_of_lo_zero]
    rfl
  refine exec_writes_triples (f := .rgb24) hp rfl rfl rfl hfmt rfl rfl rfl rfl hready hkernel fun p hpn => ?_
  rw [maxChannel_toRGB]
  exact stretchFromZero_le (le_largest (fun p => (hsv p).c2) hpn)

/-- The range of V over the complement colours without black (R188). -/
theorem rangeOf_cmyFrame (r : OpRegs) (rd : Nat → Byte) :
    rangeOf ((rgbFrame r rd).map fun t => (cmyHSV t).c2) =
      ⟨0, largest (r.w * r.h) fun p => (cmyHSV (readTriple r rd p)).c2⟩ := by
  rw [rgbFrame, List.map_map, rangeOf_map_range]
  rfl

theorem uncmy_le (k x : Nat) : uncmy k x ≤ 255 := Nat.sub_le ..

/-- Settles O22: the kernel stretches V from the range 0 .. largest, and an inverted channel is a byte. -/
theorem colorenhanceStretchesValueOnly : Obligations.ColorenhanceStretchesValueOnly := by
  intro s w r hp hfmt n px k hsv vHi out hready
  have hkernel : kernelOf s.platform .colorenhance r s.mem.read s.draws =
      ((List.range n).flatMap fun p =>
        (⟨uncmy (k p) (out p).c0, uncmy (k p) (out p).c1, uncmy (k p) (out p).c2⟩ : Triple).bytes, s.draws) := by
    simp only [kernelOf, colorenhanceBytes_eq, rangeOf_cmyFrame, colorenhancePixel, Range.stretch_of_lo_zero]
    rfl
  exact exec_writes_triples (f := .rgb24) hp rfl rfl rfl hfmt rfl rfl rfl rfl hready hkernel fun p _ =>
    maxChannel_le_iff.mpr ⟨uncmy_le .., uncmy_le .., uncmy_le ..⟩

end Sys2Proof.Machine
end

section
/-! PROOFS. 44_median.md: AdaptStep (R218), the window (R212), the classes (R214), the lower median (R215), the scan as one value
per pixel (R210, R211, R216), and the command with its laws (R217, R219). -/

namespace Sys2Proof.Machine

/-! ### AdaptStep (R218) -/

/-- AdaptStep raises the radius up to its cap, which is R, lowers it from above 1, or keeps it. -/
theorem adaptStep_cases (cfg : DespeckleConfig) (er dark bright : Nat) :
    adaptStep cfg er dark bright = min (er + 1) cfg.radius ∨ (1 < er ∧ adaptStep cfg er dark bright = er - 1) ∨
      adaptStep cfg er dark bright = er := by
  have hcap : (2 * cfg.radius + 1) / 2 = cfg.radius := by omega
  unfold adaptStep
  rw [hcap]
  split
  · exact .inl rfl
  · split
    case isTrue hone => exact .inr (.inl ⟨hone, rfl⟩)
    case isFalse => exact .inr (.inr rfl)

/-- Settles O35: each of the three moves of AdaptStep stays in range. -/
theorem adaptStepKeepsTheRadiusInRange : Obligations.AdaptStepKeepsTheRadiusInRange := by
  intro cfg er dark bright
  have hmoves := adaptStep_cases cfg er dark bright
  exact ⟨by omega, fun _ _ => by omega, fun _ _ => by omega⟩

/-! ### The window (R212) -/

theorem mem_window_iff {w h x y er q : Nat} (hx : x < w) (hy : y < h) :
    q ∈ window w h x y er ↔ q < w * h ∧ q % w ≤ x + er ∧ x ≤ q % w + er ∧ q / w ≤ y + er ∧ y ≤ q / w + er := by
  refine ⟨mem_window hx hy, fun ⟨hq, hright, hleft, hbelow, habove⟩ => ?_⟩
  have hcolumn : q % w < w := Nat.mod_lt _ (Nat.zero_lt_of_lt hx)
  have hrow : q / w < h := Nat.div_lt_of_lt_mul hq
  have hindex : q / w * w + q % w = q := Nat.div_add_mod' q w
  generalize q % w = column at *
  generalize q / w = row at *
  simp only [window, List.mem_flatMap, List.mem_map, List.mem_range]
  refine ⟨row - (y - er), by omega, column - (x - er), by omega, ?_⟩
  rwa [Nat.add_sub_cancel' (by omega), Nat.add_sub_cancel' (by omega)]

/-- A window holds no pixel twice: its rows are apart, and so are the columns of one row. -/
theorem window_nodup {w x : Nat} (hx : x < w) (h y er : Nat) : (window w h x y er).Nodup := by
  refine List.nodup_flatMap.mpr ⟨fun dy _ => ?columns, List.pairwise_lt_range.imp fun {dy dy'} hlt => ?rows⟩
  case columns => exact List.nodup_range.map fun dx dx' heq => by simpa using heq
  case rows =>
    intro q hq hq'
    simp only [List.mem_map, List.mem_range] at hq hq'
    obtain ⟨dx, hdx, rfl⟩ := hq
    obtain ⟨dx', hdx', heq⟩ := hq'
    have hrow : ∀ a b, b < w → (a * w + b) / w = a := fun a b hb => by
      rw [Nat.add_comm, Nat.add_mul_div_right _ _ (by omega), Nat.div_eq_of_lt hb, Nat.zero_add]
    have := congrArg (· / w) heq
    simp only [hrow _ _ (show x - er + dx < w by omega), hrow _ _ (show x - er + dx' < w by omega)] at this
    omega

theorem column_lt {w h p : Nat} (hp : p < w * h) : p % w < w :=
  Nat.mod_lt _ (Nat.pos_of_mul_pos_right (Nat.zero_lt_of_lt hp))

theorem window_toFinset {w h p : Nat} (hp : p < w * h) (er : Nat) :
    (window w h (p % w) (p / w) er).toFinset = windowSet w (w * h) p er := by
  ext q
  simp only [List.mem_toFinset, windowSet, Finset.mem_filter, Finset.mem_range,
    mem_window_iff (column_lt hp) (Nat.div_lt_of_lt_mul hp)]

/-- At radius 0 the window is the pixel alone. -/
theorem window_zero {w h p : Nat} (hp : p < w * h) : window w h (p % w) (p / w) 0 = [p] := by
  have hcolumn := column_lt hp
  have hrow : p / w < h := Nat.div_lt_of_lt_mul hp
  simp [window, Nat.min_eq_right (Nat.le_sub_one_of_lt hcolumn), Nat.min_eq_right (Nat.le_sub_one_of_lt hrow),
    Nat.div_add_mod']

/-! ### The classes (R214) -/

/-- What the classes of a window hold: dark is tested first. -/
theorem tally_eq (cfg : DespeckleConfig) (samples : List Pixel) :
    tally cfg samples =
      ⟨samples.countP fun px => lum px ≤ cfg.black, samples.countP fun px => cfg.black < lum px ∧ cfg.white ≤ lum px,
        samples.filter fun px => cfg.black < lum px ∧ lum px < cfg.white⟩ := by
  induction samples using List.reverseRecOn with
  | nil => rfl
  | append_singleton samples px ih =>
    have hstep : tally cfg (samples ++ [px]) = classify cfg (tally cfg samples) px := by simp [tally]
    rw [hstep, ih, classify]
    split
    case isTrue hdark => simp [hdark, Nat.not_lt.mpr hdark]
    case isFalse hdark =>
      have hlt := Nat.not_le.mp hdark
      split
      case isTrue hbright => simp [hdark, hlt, hbright, Nat.not_lt.mpr hbright]
      case isFalse hbright => simp [hdark, hlt, hbright, Nat.not_le.mp hbright]

/-! ### The lower median (R215) -/

/-- In an ascending list at most k elements are below the one at index k, and more than k are not above it. -/
theorem countP_of_ascending {l₁ l₂ : List Nat} {x : Nat} (h : (l₁ ++ x :: l₂).Pairwise (· ≤ ·)) :
    (l₁ ++ x :: l₂).countP (· < x) ≤ l₁.length ∧ l₁.length < (l₁ ++ x :: l₂).countP (· ≤ x) := by
  obtain ⟨-, htail, hbefore⟩ := List.pairwise_append.mp h
  have hbelow : (x :: l₂).countP (· < x) = 0 := List.countP_eq_zero.mpr fun a ha => by
    rcases List.mem_cons.mp ha with rfl | ha
    · simp
    · simpa using List.rel_of_pairwise_cons htail ha
  have hupto : l₁.countP (· ≤ x) = l₁.length := List.countP_eq_length.mpr fun a ha => by
    simpa using hbefore a ha x List.mem_cons_self
  have hself : 0 < (x :: l₂).countP (· ≤ x) := List.countP_pos_iff.mpr ⟨x, List.mem_cons_self, by simp⟩
  have hfirst : l₁.countP (· < x) ≤ l₁.length := List.countP_le_length
  rw [List.countP_append, List.countP_append]
  omega

/-- The rank of the median key among the candidates. -/
theorem medianKey_rank {cands : List Pixel} (h : cands ≠ []) :
    cands.countP (fun px => lum px < medianKey cands) ≤ (cands.length - 1) / 2 ∧
      (cands.length - 1) / 2 < cands.countP fun px => lum px ≤ medianKey cands := by
  have hpos : 0 < cands.length := List.length_pos_of_ne_nil h
  have hk : (cands.length - 1) / 2 < ((cands.map lum).insertionSort (· ≤ ·)).length := by
    rw [List.length_insertionSort, List.length_map]
    omega
  have hkey : medianKey cands = ((cands.map lum).insertionSort (· ≤ ·))[(cands.length - 1) / 2] :=
    List.getD_eq_getElem _ _ hk
  have hsplit := List.take_append_drop ((cands.length - 1) / 2) ((cands.map lum).insertionSort (· ≤ ·))
  rw [List.drop_eq_getElem_cons hk, ← hkey] at hsplit
  have hcount : ∀ P : Nat → Bool,
      cands.countP (fun px => P (lum px)) = ((cands.map lum).insertionSort (· ≤ ·)).countP P := fun P => by
    rw [(List.perm_insertionSort _ _).countP_eq, List.countP_map]
    rfl
  have hrank := countP_of_ascending (hsplit.symm ▸ List.pairwise_insertionSort (· ≤ ·) (cands.map lum))
  rw [hsplit, List.length_take, Nat.min_eq_left hk.le] at hrank
  rwa [hcount (· < medianKey cands), hcount (· ≤ medianKey cands)]

/-- Of equal candidates one pixel is admissible. -/
theorem admissible_of_forall_eq {cands : List Pixel} {px : Pixel} (hne : cands ≠ []) (h : ∀ c ∈ cands, c = px) :
    admissible cands = [px] := by
  have hall : ∀ c ∈ cands.filter (fun c => lum c == medianKey cands), c = px := fun c hc => h c (List.mem_of_mem_filter hc)
  have hsome := admissible_ne_nil hne
  unfold admissible at hsome ⊢
  cases hfilter : cands.filter (fun c => lum c == medianKey cands) with
  | nil => simp [hfilter] at hsome
  | cons c cs =>
    rw [hfilter] at hall
    have hrest : cs.filter (fun b => !b == c) = [] := List.filter_eq_nil_iff.mpr fun b hb => by
      simp [hall b (List.mem_cons_of_mem _ hb), hall c List.mem_cons_self]
    rw [List.eraseDups_cons, hrest, hall c List.mem_cons_self]
    rfl

/-- Where every candidate is the pixel itself, that is what is written, without a draw. -/
theorem chooseOutput_of_forall_eq {own : Pixel} {cands : List Pixel} (h : ∀ c ∈ cands, c = own) (draws : Nat) :
    chooseOutput own cands draws = (own, draws) := by
  unfold chooseOutput
  split
  · rfl
  · next hlen => rw [select, admissible_of_forall_eq (by rintro rfl; simp at hlen) h]

/-! ### The scan, as one value per pixel (R210, R211, R216) -/

/-- One run of the filter: its settings, its input frame, and the draws made before it. -/
structure FilterRun where
  cfg : DespeckleConfig
  width : Nat
  height : Nat
  input : Nat → Pixel
  draws : Nat

namespace FilterRun

variable (f : FilterRun)

/-- The number of pixels of the frame (R210). -/
def size : Nat := f.width * f.height

/-- The scan before pixel p. -/
def before (p : Nat) : Scan := despeckleScan f.cfg f.width f.height f.input f.draws p

/-- The effective radius at pixel p (R211). -/
def radiusAt (p : Nat) : Nat := (f.before p).er

/-- The value written for pixel p. -/
def output (p : Nat) : Pixel := (f.before (p + 1)).out.headD []

/-- Pix(q) while pixel p is processed (R216). -/
def sample (p q : Nat) : Pixel := if f.cfg.recursive && decide (q < p) then f.output q else f.input q

/-- The window of pixel p at its effective radius (R212). -/
def windowAt (p : Nat) : List Nat := window f.width f.height (p % f.width) (p / f.width) (f.radiusAt p)

/-- The classes of the window of pixel p (R214). -/
def tallyAt (p : Nat) : Tally := tally f.cfg ((f.windowAt p).map (f.sample p))

/-- The luminance a pixel has as a sample of pixel p's window (R213, R216). -/
def key (p q : Nat) : Nat := lum (f.sample p q)

/-- The pixels of pixel p's window whose samples are candidates (R214). -/
def candidatesAt (p : Nat) : Finset Nat :=
  (windowSet f.width f.size p (f.radiusAt p)).filter fun q => f.cfg.black < f.key p q ∧ f.key p q < f.cfg.white

/-- What pixel p writes, and the counter after it (R215). -/
def choiceAt (p : Nat) : Pixel × Nat := chooseOutput (f.input p) (f.tallyAt p).candidates (f.before p).draws

theorem before_out (n : Nat) : (f.before n).out = ((List.range n).map f.output).reverse := by
  induction n with
  | zero => rfl
  | succ n ih =>
    rw [List.range_succ, List.map_append, List.reverse_append, ← ih]
    simp [output, before, despeckleScan_succ, despecklePixel]

theorem samplePixel_before (p q : Nat) : samplePixel f.cfg f.input p (f.before p).out q = f.sample p q := by
  unfold samplePixel sample
  split
  case isFalse => rfl
  case isTrue h =>
    have hq : q < p := of_decide_eq_true (Bool.and_eq_true_iff.mp h).2
    have hindex : p - 1 - (p - 1 - q) = q := by omega
    rw [before_out, List.getD_eq_getElem?_getD, List.getElem?_reverse (by simp; omega)]
    simp [hindex, hq]

/-- One pixel of the scan, as a choice, a move of the radius, and a counter (R217). -/
theorem before_succ (p : Nat) :
    f.before (p + 1) =
      { er := if f.cfg.adaptive then adaptStep f.cfg (f.radiusAt p) (f.tallyAt p).dark (f.tallyAt p).bright else f.radiusAt p
        out := (f.choiceAt p).1 :: (f.before p).out
        draws := (f.choiceAt p).2 } := by
  have hsamples : (f.windowAt p).map (samplePixel f.cfg f.input p (f.before p).out) = (f.windowAt p).map (f.sample p) :=
    List.map_congr_left fun q _ => f.samplePixel_before p q
  unfold choiceAt tallyAt
  rw [← hsamples]
  exact despeckleScan_succ ..

theorem radiusAt_succ (p : Nat) :
    f.radiusAt (p + 1) =
      if f.cfg.adaptive then adaptStep f.cfg (f.radiusAt p) (f.tallyAt p).dark (f.tallyAt p).bright else f.radiusAt p := by
  rw [radiusAt, before_succ]

theorem draws_succ (p : Nat) : (f.before (p + 1)).draws = (f.choiceAt p).2 := by rw [before_succ]

theorem output_eq (p : Nat) : f.output p = (f.choiceAt p).1 := by
  rw [output, before_succ]
  rfl

theorem candidates_eq (p : Nat) :
    (f.tallyAt p).candidates =
      ((f.windowAt p).map (f.sample p)).filter fun px => f.cfg.black < lum px ∧ lum px < f.cfg.white := by
  rw [tallyAt, tally_eq]

/-- The filter draws at most once per pixel (R215). -/
theorem draws_bounds (n : Nat) : f.draws ≤ (f.before n).draws ∧ (f.before n).draws ≤ f.draws + n := by
  induction n with
  | zero => exact ⟨le_rfl, le_rfl⟩
  | succ n ih =>
    have hchoice := chooseOutput_draws (f.input n) (f.tallyAt n).candidates (f.before n).draws
    rw [draws_succ]
    unfold choiceAt
    omega

/-- The effective radius stays 0 where it starts at 0 (R218). -/
theorem radiusAt_of_radius_zero (hradius : f.cfg.radius = 0) (p : Nat) : f.radiusAt p = 0 := by
  induction p with
  | zero => exact hradius
  | succ p ih =>
    rw [radiusAt_succ, ih]
    split
    · obtain ⟨-, -, hzero⟩ := adaptStepKeepsTheRadiusInRange f.cfg 0 (f.tallyAt p).dark (f.tallyAt p).bright
      exact hzero hradius rfl
    · rfl

/-- A filter that chooses every pixel itself copies the frame and draws nothing. -/
theorem copies_of_choices {n : Nat} (h : ∀ p < n, f.choiceAt p = (f.input p, (f.before p).draws)) :
    (f.before n).draws = f.draws ∧ ∀ p < n, f.output p = f.input p := by
  refine ⟨?_, fun p hp => by rw [output_eq, h p hp]⟩
  induction n with
  | zero => rfl
  | succ n ih => rw [draws_succ, h n n.lt_succ_self, ih fun p hp => h p (Nat.lt_succ_of_lt hp)]

section
variable {f} {p q : Nat}

/-- A property of every input pixel holds of every output pixel (R219 c). -/
theorem output_forall {P : Pixel → Prop} (hin : ∀ q < f.size, P (f.input q)) (hp : p < f.size) : P (f.output p) :=
  despeckleScan_forall f.cfg f.width f.height f.input f.draws P hin f.size le_rfl _ (by
    change f.output p ∈ (f.before f.size).out
    rw [before_out, List.mem_reverse]
    exact List.mem_map_of_mem (List.mem_range.mpr hp))

theorem sample_forall {P : Pixel → Prop} (hin : ∀ q < f.size, P (f.input q)) (hq : q < f.size) : P (f.sample p q) := by
  unfold sample
  split
  · exact output_forall hin hq
  · exact hin q hq

theorem windowAt_nodup (hp : p < f.size) : (f.windowAt p).Nodup := window_nodup (column_lt hp) ..

theorem windowAt_toFinset (hp : p < f.size) : (f.windowAt p).toFinset = windowSet f.width f.size p (f.radiusAt p) :=
  window_toFinset hp _

theorem lt_size_of_mem_windowAt (hp : p < f.size) (hq : q ∈ f.windowAt p) : q < f.size :=
  (mem_window (column_lt hp) (Nat.div_lt_of_lt_mul hp) hq).1

/-- Every candidate is the sample at a pixel of the window. -/
theorem exists_of_mem_candidates {px : Pixel} (h : px ∈ (f.tallyAt p).candidates) :
    ∃ q ∈ f.windowAt p, f.sample p q = px := List.mem_map.mp (mem_tally h)

/-- A frame of equal pixels: every candidate is the pixel itself (R219 b). -/
theorem choiceAt_of_uniform (huniform : ∀ q < f.size, f.input q = f.input 0) (hp : p < f.size) :
    f.choiceAt p = (f.input p, (f.before p).draws) := by
  refine chooseOutput_of_forall_eq (fun c hc => ?_) _
  obtain ⟨q, hq, rfl⟩ := exists_of_mem_candidates hc
  rw [huniform p hp]
  exact sample_forall (P := (· = f.input 0)) huniform (lt_size_of_mem_windowAt hp hq)

/-- Radius 0: the only candidate is the pixel itself (R219 a). -/
theorem choiceAt_of_radius_zero (hradius : f.cfg.radius = 0) (hp : p < f.size) :
    f.choiceAt p = (f.input p, (f.before p).draws) := by
  refine chooseOutput_of_forall_eq (fun c hc => ?_) _
  obtain ⟨q, hq, rfl⟩ := exists_of_mem_candidates hc
  rw [windowAt, f.radiusAt_of_radius_zero hradius, window_zero hp, List.mem_singleton] at hq
  simp [hq, sample]

/-! #### Classes and ranks, counted over the pixels of the window (R214, R215) -/

/-- Counting samples over the window as a list and as a set of pixels. -/
theorem countP_samples (hp : p < f.size) (P : Nat → Prop) [DecidablePred P] :
    ((f.windowAt p).map (f.sample p)).countP (fun px => P (lum px)) =
      ((windowSet f.width f.size p (f.radiusAt p)).filter fun q => P (f.key p q)).card := by
  rw [List.countP_map, List.countP_eq_length_filter, ← List.toFinset_card_of_nodup ((windowAt_nodup hp).filter _),
    List.toFinset_filter, windowAt_toFinset hp]
  exact congrArg Finset.card (Finset.filter_congr fun q _ => decide_eq_true_iff)

theorem dark_eq (hp : p < f.size) :
    (f.tallyAt p).dark =
      ((windowSet f.width f.size p (f.radiusAt p)).filter fun q => f.key p q ≤ f.cfg.black).card := by
  rw [tallyAt, tally_eq]
  exact countP_samples hp (· ≤ f.cfg.black)

theorem bright_eq (hp : p < f.size) :
    (f.tallyAt p).bright =
      ((windowSet f.width f.size p (f.radiusAt p)).filter fun q =>
        f.cfg.black < f.key p q ∧ f.cfg.white ≤ f.key p q).card := by
  rw [tallyAt, tally_eq]
  exact countP_samples hp fun x => f.cfg.black < x ∧ f.cfg.white ≤ x

/-- Counting candidates by their key. -/
theorem countP_candidates (hp : p < f.size) (P : Nat → Prop) [DecidablePred P] :
    (f.tallyAt p).candidates.countP (fun px => P (lum px)) = ((f.candidatesAt p).filter fun q => P (f.key p q)).card := by
  have hcount := countP_samples hp fun x => P x ∧ f.cfg.black < x ∧ x < f.cfg.white
  rw [candidates_eq, List.countP_filter, candidatesAt, Finset.filter_filter]
  simpa only [Bool.decide_and, and_comm] using hcount

theorem length_candidates (hp : p < f.size) : (f.tallyAt p).candidates.length = (f.candidatesAt p).card := by
  simpa using countP_candidates hp fun _ => True

/-- A candidate stands at a pixel of the window. -/
theorem exists_mem_candidatesAt {px : Pixel} (hp : p < f.size) (h : px ∈ (f.tallyAt p).candidates) :
    ∃ q ∈ f.candidatesAt p, f.sample p q = px := by
  obtain ⟨q, hq, rfl⟩ := exists_of_mem_candidates h
  rw [candidates_eq] at h
  refine ⟨q, Finset.mem_filter.mpr ⟨?_, of_decide_eq_true (List.mem_filter.mp h).2⟩, rfl⟩
  rwa [← windowAt_toFinset hp, List.mem_toFinset]

/-- With fewer than two candidates a pixel stays as it is (R215). -/
theorem output_of_few_candidates (hp : p < f.size) (hfew : (f.candidatesAt p).card < 2) : f.output p = f.input p := by
  rw [output_eq, choiceAt, chooseOutput, if_pos (by rwa [length_candidates hp])]

/-- With two or more, a candidate is written whose key has the rank of the lower median (R215). -/
theorem output_of_candidates (hp : p < f.size) (hmany : 2 ≤ (f.candidatesAt p).card) :
    ∃ q ∈ f.candidatesAt p, f.output p = f.sample p q ∧
      ((f.candidatesAt p).filter fun q' => f.key p q' < f.key p q).card ≤ ((f.candidatesAt p).card - 1) / 2 ∧
      ((f.candidatesAt p).card - 1) / 2 < ((f.candidatesAt p).filter fun q' => f.key p q' ≤ f.key p q).card := by
  rw [← length_candidates hp] at hmany ⊢
  have hne : (f.tallyAt p).candidates ≠ [] := List.ne_nil_of_length_pos (by omega)
  rcases chooseOutput_cases (f.input p) (f.tallyAt p).candidates (f.before p).draws with ⟨hfew, -⟩ | ⟨-, hchosen⟩
  · omega
  · obtain ⟨hmem, hmedian⟩ := mem_admissible.mp hchosen
    obtain ⟨q, hq, hsample⟩ := exists_mem_candidatesAt hp hmem
    have hkey : f.key p q = medianKey (f.tallyAt p).candidates := by rw [key, hsample, hmedian]
    refine ⟨q, hq, (f.output_eq p).trans hsample.symm, ?_⟩
    rw [← countP_candidates hp (· < f.key p q), ← countP_candidates hp (· ≤ f.key p q), hkey]
    exact medianKey_rank hne

end

end FilterRun

/-! ### The command (R217) -/

/-- The run of the filter that a DESPECKLE with these registers makes. -/
def despeckleRun (s : State) (r : OpRegs) (bpp : Nat) : FilterRun where
  cfg := despeckleConfig r
  width := r.w
  height := r.h
  input := s.mem.pixel r.aBase.toNat bpp
  draws := s.draws

@[simp] theorem Memory.pixel_length (m : Memory) (base bpp p : Nat) : (m.pixel base bpp p).length = bpp := by
  simp [Memory.pixel]

/-- A frame of n pixels of k bytes each is read back pixel by pixel (R62). -/
theorem Memory.pixel_writeBytes (m : Memory) (base : Nat) (byte : Nat → Nat → Byte) {n k p : Nat} (hp : p < n) :
    (m.writeBytes base ((List.range n).flatMap fun p => (List.range k).map (byte p))).pixel base k p =
      (List.range k).map (byte p) := by
  have hpixel : ∀ p, ((List.range k).map (byte p)).length = k := fun p => by simp
  refine List.map_congr_left fun c hc => ?_
  have hc := List.mem_range.mp hc
  have hlt := pixel_offset_lt hp hc
  rw [← length_flatMap_range _ k hpixel n] at hlt
  rw [Nat.add_assoc, Memory.read_writeBytes_inside _ _ _ _ hlt, List.getElem_eq_iff,
    getElem?_flatMap_range _ k hpixel n p c hp hc]
  simp [hc]

/-- A pixel is the list of its bytes. -/
theorem map_getD_range {px : Pixel} {k : Nat} (h : px.length = k) : (List.range k).map (px.getD · 0) = px := by
  subst h
  exact List.ext_getElem (by simp) fun c _ hc => by simp [hc]

theorem despeckle_format {r : OpRegs} {bpp : Nat} (hfmt : (r.aFmt = 1 ∧ bpp = 1) ∨ (r.aFmt = 2 ∧ bpp = 3)) :
    ∃ f : Format, r.aFmt = f.code ∧ f.bpp = some bpp ∧ acceptsA .despeckle f = true := by
  rcases hfmt with ⟨hcode, rfl⟩ | ⟨hcode, rfl⟩
  · exact ⟨.gray8, hcode, rfl, rfl⟩
  · exact ⟨.rgb24, hcode, rfl, rfl⟩

theorem badConfig_despeckle_of_ready {r : OpRegs} (h : DespeckleReady r) : badConfig .despeckle r = false := by
  obtain ⟨hradius, hblack, hwhite, hflags⟩ := h
  rw [Bool.eq_false_iff, ne_eq, badConfig_iff]
  rintro (⟨-, hsetting⟩ | ⟨hi, -⟩)
  · omega
  · cases hi

theorem despeckleRun_output_length {s : State} {r : OpRegs} {bpp p : Nat} (hp : p < (despeckleRun s r bpp).size) :
    ((despeckleRun s r bpp).output p).length = bpp :=
  FilterRun.output_forall (P := (·.length = bpp)) (fun _ _ => Memory.pixel_length ..) hp

theorem despeckleRun_sample_length {s : State} {r : OpRegs} {bpp p : Nat} (hp : p < (despeckleRun s r bpp).size) (q : Nat) :
    ((despeckleRun s r bpp).sample p q).length = bpp := by
  unfold FilterRun.sample
  split
  case isTrue h => exact despeckleRun_output_length ((of_decide_eq_true (Bool.and_eq_true_iff.mp h).2).trans hp)
  case isFalse => exact Memory.pixel_length ..

section
variable {s : State} {w : Word} {r : OpRegs} {bpp : Nat}
  (hp : s.block.pending = some ⟨w, r⟩) (hfmt : (r.aFmt = 1 ∧ bpp = 1) ∨ (r.aFmt = 2 ∧ bpp = 3))
  (hsettings : DespeckleReady r)
  (hready : OneInputReady s.platform.memSize r
    (r.aWidth.toNat * r.aHeight.toNat * bpp) (r.aWidth.toNat * r.aHeight.toNat * bpp))

/-- What DESPECKLE computes: the outputs of its run, one after another. -/
theorem kernelOf_despeckle (hbpp : bppA r = bpp) (pl : Platform) :
    kernelOf pl .despeckle r s.mem.read s.draws =
      ((List.range (despeckleRun s r bpp).size).flatMap fun p =>
          (List.range bpp).map fun c => ((despeckleRun s r bpp).output p).getD c 0,
        ((despeckleRun s r bpp).before (despeckleRun s r bpp).size).draws) := by
  have hbytes : ∀ p ∈ List.range (despeckleRun s r bpp).size,
      (List.range bpp).map (((despeckleRun s r bpp).output p).getD · 0) = (despeckleRun s r bpp).output p := fun p hp =>
    map_getD_range (despeckleRun_output_length (List.mem_range.mp hp))
  have hout := (despeckleRun s r bpp).before_out (despeckleRun s r bpp).size
  rw [List.flatMap_congr hbytes, List.flatMap_def, ← List.reverse_reverse (List.map _ _), ← hout]
  subst hbpp
  rfl

include hp hfmt hsettings hready

/-- DESPECKLE completes, draws what its run draws, and writes the outputs of its run and nothing else. -/
theorem exec_despeckle :
    ∃ mem k, exec .despeckle s = .next (s.doneWith mem k) ∧
      ((despeckleRun s r bpp).before (despeckleRun s r bpp).size).draws = s.draws + k ∧
      SameOutside s.mem mem r.dBase.toNat (r.aWidth.toNat * r.aHeight.toNat * bpp) ∧
      ∀ p < (despeckleRun s r bpp).size, mem.pixel r.dBase.toNat bpp p = (despeckleRun s r bpp).output p := by
  obtain ⟨f, hcode, hbpp, haccepts⟩ := despeckle_format hfmt
  have hv : validate .despeckle r s.platform.memSize = .ok :=
    validate_oneInput_ok rfl rfl (badConfig_despeckle_of_ready hsettings) hcode haccepts
      (lenD_of_code (by simp) hcode hbpp) (by rwa [Format.size_of_bpp hbpp])
  have hkernel := kernelOf_despeckle (s := s) (bppA_of_code hcode hbpp) s.platform
  have hdraws : s.draws ≤ ((despeckleRun s r bpp).before (despeckleRun s r bpp).size).draws :=
    ((despeckleRun s r bpp).draws_bounds _).1
  obtain ⟨k, hk⟩ := Nat.exists_eq_add_of_le hdraws
  refine ⟨s.mem.writeBytes r.dBase.toNat (kernelOf s.platform .despeckle r s.mem.read s.draws).1, k, ?completes, hk, ?frame,
    fun p hpn => ?pixel⟩
  case completes => rw [exec_of_validate_ok hp hv, ← State.finish_eq_doneWith, ← hk, hkernel]
  case frame =>
    have hframe := s.mem.sameOutside_writeBytes r.dBase.toNat (kernelOf s.platform .despeckle r s.mem.read s.draws).1
    rwa [kernelOf_length (lenD_of_code (by simp) hcode hbpp)] at hframe
  case pixel => rw [hkernel, Memory.pixel_writeBytes _ _ _ hpn, map_getD_range (despeckleRun_output_length hpn)]

/-- A DESPECKLE whose run chooses every pixel itself copies the frame and draws nothing. -/
theorem exec_despeckle_copies
    (hchoice : ∀ p < (despeckleRun s r bpp).size,
      (despeckleRun s r bpp).choiceAt p = ((despeckleRun s r bpp).input p, ((despeckleRun s r bpp).before p).draws)) :
    ∃ mem, exec .despeckle s = .next (s.doneWith mem 0) ∧
      SameOutside s.mem mem r.dBase.toNat (r.aWidth.toNat * r.aHeight.toNat * bpp) ∧
      ∀ p, p < r.aWidth.toNat * r.aHeight.toNat → mem.pixel r.dBase.toNat bpp p = s.mem.pixel r.aBase.toNat bpp p := by
  obtain ⟨mem, k, hexec, hdraws, hframe, hpixel⟩ := exec_despeckle hp hfmt hsettings hready
  obtain ⟨hnodraw, hcopy⟩ := (despeckleRun s r bpp).copies_of_choices hchoice
  obtain rfl : k = 0 := Nat.add_eq_left.mp (hdraws.symm.trans hnodraw)
  exact ⟨mem, hexec, hframe, fun p hpn => (hpixel p hpn).trans (hcopy p hpn)⟩

end

/-- Settles O31: the outputs of the run are input pixels. -/
theorem despeckleOnlyCopiesInputPixels : Obligations.DespeckleOnlyCopiesInputPixels := by
  intro s w r bpp hp hfmt hsettings n hready
  obtain ⟨mem, k, hexec, hdraws, hframe, hpixel⟩ := exec_despeckle hp hfmt hsettings hready
  have hbound : (despeckleRun s r bpp).draws + k ≤ (despeckleRun s r bpp).draws + n :=
    hdraws.symm.trans_le ((despeckleRun s r bpp).draws_bounds n).2
  refine ⟨mem, k, Nat.le_of_add_le_add_left hbound, hexec, hframe, fun p hpn => ?_⟩
  rw [hpixel p hpn]
  exact FilterRun.output_forall (f := despeckleRun s r bpp)
    (P := fun px => ∃ q, q < n ∧ px = s.mem.pixel r.aBase.toNat bpp q) (fun q hq => ⟨q, hq, rfl⟩) hpn

/-- Settles O32: with radius 0 the only candidate of a window is its pixel. -/
theorem despeckleRadiusZeroIsTheIdentity : Obligations.DespeckleRadiusZeroIsTheIdentity := by
  intro s w r bpp hp hfmt hsettings hradius n hready
  have hzero : (despeckleRun s r bpp).cfg.radius = 0 := congrArg BitVec.toNat hradius
  exact exec_despeckle_copies hp hfmt hsettings hready fun p hpn => FilterRun.choiceAt_of_radius_zero hzero hpn

/-- Settles O33: every candidate of a uniform frame is the pixel it would replace. -/
theorem despeckleKeepsAUniformFrame : Obligations.DespeckleKeepsAUniformFrame := by
  intro s w r bpp hp hfmt hsettings n hready huniform
  exact exec_despeckle_copies hp hfmt hsettings hready fun p hpn => FilterRun.choiceAt_of_uniform huniform hpn

/-! ### The scan in the terms of the registers (R210 to R218) -/

/-- The luminance of R213, written out by the bytes of a pixel. -/
theorem lum_eq_of_length {bpp : Nat} {px : Pixel} (hbpp : bpp = 1 ∨ bpp = 3) (hlen : px.length = bpp) :
    lum px = if bpp = 1 then (px.getD 0 0).toNat
      else (2126 * (px.getD 0 0).toNat + 7152 * (px.getD 1 0).toNat + 722 * (px.getD 2 0).toNat + 5000) / 10000 := by
  subst hlen
  rcases hbpp with hlen | hlen
  · obtain ⟨g, rfl⟩ := List.length_eq_one_iff.mp hlen
    rfl
  · obtain ⟨red, green, blue, rfl⟩ := List.length_eq_three.mp hlen
    rfl

/-- Pix(q) at pixel p, in a memory that holds the outputs of the run: D before p in recursive mode, and A otherwise (R216). -/
theorem despeckleRun_sample_eq {s : State} {r : OpRegs} {bpp p : Nat} {mem : Memory}
    (hout : ∀ p < (despeckleRun s r bpp).size, mem.pixel r.dBase.toNat bpp p = (despeckleRun s r bpp).output p)
    (hp : p < (despeckleRun s r bpp).size) (q : Nat) :
    (if r.medFlags.getLsbD 1 = true ∧ q < p then mem.pixel r.dBase.toNat bpp q else s.mem.pixel r.aBase.toNat bpp q) =
      (despeckleRun s r bpp).sample p q := by
  have hrecursive : ((despeckleRun s r bpp).cfg.recursive && decide (q < p)) = true ↔
      r.medFlags.getLsbD 1 = true ∧ q < p := by
    rw [Bool.and_eq_true, decide_eq_true_iff]
    rfl
  simp only [FilterRun.sample, hrecursive]
  split
  case isTrue h =>
    obtain ⟨-, hq⟩ := h
    exact hout q (hq.trans hp)
  case isFalse => rfl

/-- Settles O34: the effective radii of the run, and what it writes by the number of candidates. -/
theorem despeckleWritesLowerMediansAlongTheScan : Obligations.DespeckleWritesLowerMediansAlongTheScan := by
  intro s t w r bpp hp hfmt hsettings width n black white radius hready hexec own out sample byte luminance key
  obtain ⟨mem, k, hdone, -, -, hpixel⟩ := exec_despeckle hp hfmt hsettings hready
  obtain rfl : t = s.doneWith mem k := Host.Outcome.next.inj (hexec.symm.trans hdone)
  have hsample : ∀ p < n, ∀ q, sample p q = (despeckleRun s r bpp).sample p q := fun p hpn =>
    despeckleRun_sample_eq hpixel hpn
  have hkey : ∀ p < n, ∀ q, key p q = (despeckleRun s r bpp).key p q := fun p hpn q => by
    simp only [key, hsample p hpn]
    exact (lum_eq_of_length (hfmt.imp And.right And.right) (despeckleRun_sample_length hpn q)).symm
  refine ⟨(despeckleRun s r bpp).radiusAt, rfl, fun p hpn => ?_⟩
  intro win dark bright cands
  have hdark : dark = ((despeckleRun s r bpp).tallyAt p).dark := by
    rw [FilterRun.dark_eq hpn]
    simp only [dark, hkey p hpn]
    rfl
  have hbright : bright = ((despeckleRun s r bpp).tallyAt p).bright := by
    rw [FilterRun.bright_eq hpn]
    simp only [bright, hkey p hpn]
    rfl
  have hcands : cands = (despeckleRun s r bpp).candidatesAt p := by
    simp only [cands, hkey p hpn]
    rfl
  have hout : out p = (despeckleRun s r bpp).output p := hpixel p hpn
  refine ⟨fun hfew => ?few, fun hmany => ?many, ?radius⟩
  case few =>
    rw [hcands] at hfew
    exact hout.trans (FilterRun.output_of_few_candidates hpn hfew)
  case many =>
    rw [hcands] at hmany ⊢
    simp only [hout, hkey p hpn, hsample p hpn]
    exact FilterRun.output_of_candidates hpn hmany
  case radius =>
    rw [hdark, hbright]
    exact (despeckleRun s r bpp).radiusAt_succ p

end Sys2Proof.Machine
end

section
/-! PROOFS. 45_sobel.md: the gradients (R241, R245) and their ranges (R243), the clamped samples and the border ring (R242), the
narrowing (R244), and the command (R240, R246, R247). -/

namespace Sys2Proof.Machine

/-! ### The gradients (R241, R245) -/

section
variable (sample : Int → Int → Int) (i j : Int)

/-- The nine terms of the sum of R241, for any kernel. -/
theorem convolve_rows (nw n ne w c e sw s se : Int) :
    convolve [[nw, n, ne], [w, c, e], [sw, s, se]] sample i j =
      nw * sample (i - 1) (j - 1) + n * sample (i - 1) j + ne * sample (i - 1) (j + 1) +
      (w * sample i (j - 1) + c * sample i j + e * sample i (j + 1)) +
      (sw * sample (i + 1) (j - 1) + s * sample (i + 1) j + se * sample (i + 1) (j + 1)) := by
  simp [convolve, List.range_succ, add_sub_assoc, add_assoc, ← sub_eq_add_neg]

theorem convolve_kernelX : convolve kernelX sample i j =
    sample (i - 1) (j + 1) + 2 * sample i (j + 1) + sample (i + 1) (j + 1)
      - sample (i - 1) (j - 1) - 2 * sample i (j - 1) - sample (i + 1) (j - 1) := by
  rw [kernelX, convolve_rows]
  ring

theorem convolve_kernelY : convolve kernelY sample i j =
    sample (i + 1) (j - 1) + 2 * sample (i + 1) j + sample (i + 1) (j + 1)
      - sample (i - 1) (j - 1) - 2 * sample (i - 1) j - sample (i - 1) (j + 1) := by
  rw [kernelY, convolve_rows]
  ring

end

/-- The weights of either kernel sum to 0, so a constant plane has no gradient (R245). -/
theorem convolve_const (c i j : Int) :
    convolve kernelX (fun _ _ => c) i j = 0 ∧ convolve kernelY (fun _ _ => c) i j = 0 := by
  rw [convolve_kernelX, convolve_kernelY]
  omega

/-- Over byte samples each gradient is at most 4·255; a corner counts
in full in one of gx ± gy and cancels in the other, which keeps the sum at 6·255. -/
theorem gradient_bounds {sample : Int → Int → Int} (hbyte : ∀ a b, 0 ≤ sample a b ∧ sample a b ≤ 255) (i j : Int) :
    (convolve kernelX sample i j).natAbs ≤ 1020 ∧ (convolve kernelY sample i j).natAbs ≤ 1020 ∧
      (convolve kernelX sample i j).natAbs + (convolve kernelY sample i j).natAbs ≤ 1530 := by
  rw [convolve_kernelX, convolve_kernelY]
  have hnw := hbyte (i - 1) (j - 1)
  have hn := hbyte (i - 1) j
  have hne := hbyte (i - 1) (j + 1)
  have hw := hbyte i (j - 1)
  have he := hbyte i (j + 1)
  have hsw := hbyte (i + 1) (j - 1)
  have hs := hbyte (i + 1) j
  have hse := hbyte (i + 1) (j + 1)
  omega

/-! ### The magnitude (R243) -/

/-- round_sqrt stays at m up to m·m + m, the last integer below the square of m + 1/2. -/
theorem roundSqrt_le {n m : Nat} (h : n ≤ m * m + m) : roundSqrt n ≤ m := by
  by_contra! hlt
  rcases roundSqrt_lt_four_mul n with hzero | habove
  · omega
  · have hsq : (2 * m + 1) * (2 * m + 1) ≤ (2 * roundSqrt n - 1) * (2 * roundSqrt n - 1) :=
      Nat.mul_self_le_mul_self (by omega)
    rw [two_mul_add_one_sq] at hsq
    omega

theorem magnitude_l2 (gx gy : Int) : magnitude false gx gy = roundSqrt (gx.natAbs ^ 2 + gy.natAbs ^ 2) := by
  have hsum : gx * gx + gy * gy = ((gx.natAbs ^ 2 + gy.natAbs ^ 2 : Nat) : Int) := by
    push_cast [sq_abs]
    ring
  rw [magnitude, hsum, Int.toNat_natCast]
  rfl

theorem magnitude_eq (absMag : Bool) (gx gy : Int) :
    magnitude absMag gx gy =
      if absMag = true then gx.natAbs + gy.natAbs else roundSqrt (gx.natAbs ^ 2 + gy.natAbs ^ 2) := by
  cases absMag
  case true => rfl
  case false => exact magnitude_l2 gx gy

theorem magnitude_zero (absMag : Bool) : magnitude absMag 0 0 = 0 := by cases absMag <;> decide

/-- Two gradients within the bounds of `gradient_bounds` have their largest square sum where one is 1020 and the other 510. -/
theorem sq_add_sq_le {x y : Nat} (hx : x ≤ 1020) (hy : y ≤ 1020) (hxy : x + y ≤ 1530) :
    x ^ 2 + y ^ 2 ≤ 510 ^ 2 + 1020 ^ 2 := by
  rcases le_total x 510 with hsmall | hlarge
  · exact Nat.add_le_add (Nat.pow_le_pow_left hsmall 2) (Nat.pow_le_pow_left hy 2)
  · obtain ⟨d, rfl⟩ := Nat.exists_eq_add_of_le hlarge
    obtain ⟨e, he⟩ := Nat.exists_eq_add_of_le (show d ≤ 510 by omega)
    calc (510 + d) ^ 2 + y ^ 2
      _ ≤ (510 + d) ^ 2 + (510 + e) ^ 2 := Nat.add_le_add_left (Nat.pow_le_pow_left (by omega) 2) _
      _ ≤ 510 ^ 2 + (510 + (d + e)) ^ 2 := by nlinarith [Nat.zero_le (d * e)]
      _ = 510 ^ 2 + 1020 ^ 2 := by rw [← he]

/-- Settles O39: 1140 is the nearest integer to the root of the largest square sum. -/
theorem sobelMagnitudeRanges : Obligations.SobelMagnitudeRanges := by
  intro sample i j hbyte gx gy
  obtain ⟨hx, hy, hsum⟩ := gradient_bounds hbyte i j
  refine ⟨hx, hy, hsum, ?l2⟩
  rw [magnitude_l2]
  exact roundSqrt_le ((sq_add_sq_le hx hy hsum).trans (by decide))

/-! ### The samples and the border ring (R240, R242) -/

theorem clampIndex_eq (v : Int) {n : Nat} (hn : 0 < n) : clampIndex v n = (max 0 (min v (n - 1))).toNat := by
  unfold clampIndex
  omega

theorem lumaSample_eq {r : OpRegs} (m : Memory) (hw : 0 < r.w) (hh : 0 < r.h) (i j : Int) :
    lumaSample r m.read i j =
      m.byteAt (r.aBase.toNat + (max 0 (min i (r.h - 1))).toNat * r.w + (max 0 (min j (r.w - 1))).toNat) := by
  rw [lumaSample, clampIndex_eq i hh, clampIndex_eq j hw, Memory.byteAt]

/-- Every sample of a constant luma plane is its first byte: the clamp does not leave the plane. -/
theorem lumaSample_of_constant {r : OpRegs} {rd : Nat → Byte} (hw : 0 < r.w) (hh : 0 < r.h)
    (hconst : ∀ p, p < r.w * r.h → rd (r.aBase.toNat + p) = rd r.aBase.toNat) :
    lumaSample r rd = fun _ _ => ((rd r.aBase.toNat).toNat : Int) := by
  funext i j
  have hp : clampIndex i r.h * r.w + clampIndex j r.w < r.w * r.h := by
    rw [Nat.mul_comm r.w]
    exact pixel_offset_lt (clampIndex_lt i hh) (clampIndex_lt j hw)
  rw [lumaSample, Nat.add_assoc, hconst _ hp]

/-- A position in the frame that is not interior lies in its first or last row or column. -/
theorem interior_eq_false_iff {w h i j : Nat} (hi : i < h) (hj : j < w) :
    interior w h i j = false ↔ i = 0 ∨ i = h - 1 ∨ j = 0 ∨ j = w - 1 := by
  simp only [interior, Bool.and_eq_false_iff, decide_eq_false_iff_not]
  omega

/-! ### The luma byte (R243, R244, R247) -/

/-- A narrowed magnitude is a byte. -/
theorem narrow_le (pl : Platform) (cfg : SobelConfig) (mag : Nat) : narrow pl cfg mag ≤ 255 := by
  unfold narrow
  split <;> omega

theorem narrow_zero (pl : Platform) (cfg : SobelConfig) : narrow pl cfg 0 = 0 := by simp [narrow]

/-- The magnitude SOBEL narrows at row i, column j. -/
def gradientMagnitude (r : OpRegs) (rd : Nat → Byte) (i j : Int) : Nat :=
  magnitude (sobelConfig r).absMag (convolve kernelX (lumaSample r rd) i j) (convolve kernelY (lumaSample r rd) i j)

/-- R247: a position off the ring, or any position with MIRROR, gets its narrowed magnitude. -/
theorem sobelLuma_eq (pl : Platform) (r : OpRegs) (rd : Nat → Byte) {i j : Nat} (hi : i < r.h) (hj : j < r.w) :
    sobelLuma pl r rd i j =
      if (sobelConfig r).mirror = false ∧ (i = 0 ∨ i = r.h - 1 ∨ j = 0 ∨ j = r.w - 1) then 0
      else narrow pl (sobelConfig r) (gradientMagnitude r rd i j) := by
  simp only [sobelLuma, gradientMagnitude, Bool.and_eq_true, Bool.not_eq_true', interior_eq_false_iff hi hj]

theorem sobelLuma_le (pl : Platform) (r : OpRegs) (rd : Nat → Byte) (i j : Nat) : sobelLuma pl r rd i j ≤ 255 := by
  simp only [sobelLuma]
  split
  · exact Nat.zero_le _
  · exact narrow_le ..

/-- R245: without a gradient there is no luma, whatever the settings. -/
theorem sobelLuma_of_constant {pl : Platform} {r : OpRegs} {rd : Nat → Byte} (hw : 0 < r.w) (hh : 0 < r.h)
    (hconst : ∀ p, p < r.w * r.h → rd (r.aBase.toNat + p) = rd r.aBase.toNat) (i j : Nat) :
    sobelLuma pl r rd i j = 0 := by
  obtain ⟨hx, hy⟩ := convolve_const (rd r.aBase.toNat).toNat i j
  simp only [sobelLuma, lumaSample_of_constant hw hh hconst, hx, hy, magnitude_zero, narrow_zero, ite_self]

/-! ### The command (R240, R246, R247) -/

/-- Byte p of the output is luma for p below W·H. -/
theorem sobelBytes_luma (pl : Platform) (r : OpRegs) (rd : Nat → Byte) {p : Nat} (hp : p < r.w * r.h) :
    (sobelBytes pl r rd)[p]? = some (BitVec.ofNat 8 (sobelLuma pl r rd (p / r.w) (p % r.w))) := by
  simp [sobelBytes, List.getElem?_append_left, hp]

/-- The bytes of the output after the luma plane are neutral chroma (R246). -/
theorem sobelBytes_chroma (pl : Platform) (r : OpRegs) (rd : Nat → Byte) {k : Nat} (hk : k < 2 * (half r.w * half r.h)) :
    (sobelBytes pl r rd)[r.w * r.h + k]? = some chromaNeutral := by
  simp [sobelBytes, hk]

/-- A valid command that draws nothing completes with its output bytes at D_BASE, and writes nothing else (R61, R117). -/
theorem exec_writes {i : Instr} {s : State} {c : Snapshot} {out : List Byte} (hp : s.block.pending = some c)
    (hv : validate i c.regs s.platform.memSize = .ok)
    (hkernel : kernelOf s.platform i c.regs s.mem.read s.draws = (out, s.draws)) :
    ∃ mem, exec i s = .next (s.doneWith mem 0) ∧ SameOutside s.mem mem c.regs.dBase.toNat out.length ∧
      ∀ k v, out[k]? = some v → mem.read (c.regs.dBase.toNat + k) = v := by
  refine ⟨s.mem.writeBytes c.regs.dBase.toNat out, ?completes, Memory.sameOutside_writeBytes _ _ _, fun k v hbyte => ?byte⟩
  case completes =>
    rw [exec_of_validate_ok hp hv, hkernel]
    rfl
  case byte =>
    obtain ⟨hk, rfl⟩ := List.getElem?_eq_some_iff.mp hbyte
    exact Memory.read_writeBytes_inside ..

section
variable {s : State} {w : Word} {r : OpRegs} (hp : s.block.pending = some ⟨w, r⟩) (hfmt : r.aFmt = 7)
  (hflags : r.sobelFlags.toNat < 8)
  (hready : OneInputReady s.platform.memSize r
    (r.w * r.h + 2 * (half r.w * half r.h)) (r.w * r.h + 2 * (half r.w * half r.h)))
include hp hfmt hflags hready

/-- SOBEL completes under the conditions of R113, and writes `sobelLuma` of every position, neutral chroma, and nothing else. -/
theorem exec_sobel :
    ∃ mem, exec .sobel s = .next (s.doneWith mem 0) ∧
      SameOutside s.mem mem r.dBase.toNat (r.w * r.h + 2 * (half r.w * half r.h)) ∧
      (∀ p, p < r.w * r.h →
        mem.byteAt (r.dBase.toNat + p) = sobelLuma s.platform r s.mem.read (p / r.w) (p % r.w)) ∧
      ∀ k, k < 2 * (half r.w * half r.h) → mem.byteAt (r.dBase.toNat + r.w * r.h + k) = 127 := by
  have hconfig : badConfig .sobel r = false := by
    rw [Bool.eq_false_iff, ne_eq, badConfig_iff]
    rintro (⟨hi, -⟩ | ⟨-, hreserved⟩)
    · cases hi
    · omega
  have hv : validate .sobel r s.platform.memSize = .ok :=
    validate_oneInput_ok (f := .i420) rfl rfl hconfig hfmt rfl rfl hready
  obtain ⟨mem, hexec, hframe, hbytes⟩ := exec_writes (out := sobelBytes s.platform r s.mem.read) hp hv rfl
  rw [sobelBytes_length] at hframe
  refine ⟨mem, hexec, hframe, fun p hpn => ?luma, fun k hk => ?chroma⟩
  case luma =>
    rw [Memory.byteAt, hbytes p _ (sobelBytes_luma _ _ _ hpn), BitVec.toNat_ofNat]
    exact Nat.mod_eq_of_lt (Nat.lt_succ_of_le (sobelLuma_le ..))
  case chroma =>
    rw [Memory.byteAt, Nat.add_assoc, hbytes _ _ (sobelBytes_chroma _ _ _ hk)]
    rfl

end

/-- Settles O37: every luma byte is `sobelLuma` of a plane without a gradient. -/
theorem sobelOfAConstantPlaneIsZero : Obligations.SobelOfAConstantPlaneIsZero := by
  intro s w r hp hfmt hflags n chroma hready hconst
  obtain ⟨mem, hexec, -, hluma, -⟩ := exec_sobel hp hfmt hflags hready
  refine ⟨mem, hexec, fun p hpn => ?_⟩
  have hsome : 0 < r.w * r.h := Nat.zero_lt_of_lt hpn
  rw [hluma p hpn]
  exact sobelLuma_of_constant (Nat.pos_of_mul_pos_right hsome) (Nat.pos_of_mul_pos_left hsome) hconst _ _

/-- Settles O36: the position of luma byte i·W + j, and its magnitude and narrowing by the bits of SOBEL_FLAGS. -/
theorem sobelWritesTheGradientMagnitude : Obligations.SobelWritesTheGradientMagnitude := by
  intro s w r hp hfmt hflags width height a d chroma hready y gx gy mag top
  obtain ⟨mem, hexec, hframe, hluma, hchroma⟩ := exec_sobel hp hfmt hflags hready
  refine ⟨mem, hexec, hframe, fun i j hi hj => ?luma, hchroma⟩
  case luma =>
    have hw : 0 < r.w := Nat.zero_lt_of_lt hj
    have hh : 0 < r.h := Nat.zero_lt_of_lt hi
    have hsample : lumaSample r s.mem.read = y := funext₂ (lumaSample_eq s.mem hw hh)
    have hmag : gradientMagnitude r s.mem.read i j = mag i j := by
      rw [gradientMagnitude, hsample, magnitude_eq, convolve_kernelX, convolve_kernelY]
      rfl
    have hoffset : i * r.w + j < r.w * r.h := by
      rw [Nat.mul_comm r.w]
      exact pixel_offset_lt hi hj
    obtain ⟨hrow, hcolumn⟩ : (i * r.w + j) / r.w = i ∧ (i * r.w + j) % r.w = j :=
      (Nat.div_mod_unique hw).mpr ⟨by ring, hj⟩
    have hbyte := hluma _ hoffset
    rw [hrow, hcolumn, sobelLuma_eq _ _ _ hi hj, hmag, ← Nat.add_assoc] at hbyte
    exact hbyte

end Sys2Proof.Machine
end

section
/-! PROOFS. 60_exceptions.md: the error entry and the return from it (R275, R276), what an event at one instance does to the
others and to itself (R292), the disjointness of concurrent commands (R292, H6), and what can stop a step (R272, R277, R310). -/

namespace Sys2Proof.Machine

/-! ### The error entry and the return from it (R275, R276) -/

/-- An error drives irq by ERR, whatever its code (R29). -/
theorem State.failedWith_irq (s : State) (code : ErrCode) : (s.failedWith code).block.irq = s.block.irqEn := by
  simp [Block.irq]

/-- Settles O7. -/
theorem failedValidationOnlyReportsItsCode : Obligations.FailedValidationOnlyReportsItsCode := fun _ s _ _ hp hv =>
  ⟨exec_of_validate_ne_ok hp hv, s.failedWith_irq⟩

/-- The ACK word has bits 1, 2 and 3 set (R98, R276). -/
theorem Block.clearStatus_ack (b : Block) :
    b.clearStatus 0x0000000E = { b with done := false, err := false, cmdLost := false } := by
  have hbits : (0x0000000E : Word).getLsbD 1 = true ∧ (0x0000000E : Word).getLsbD 2 = true ∧
      (0x0000000E : Word).getLsbD 3 = true := by decide
  obtain ⟨hdone, herr, hlost⟩ := hbits
  rw [Block.clearStatus_eq, hdone, herr, hlost]
  rfl

/-- Settles O47: ACK is a write to STATUS. -/
theorem ackReturnsFromAnError : Obligations.AckReturnsFromAnError := by
  intro s rest hrun hin
  have hstep : step s = .next { s with inbox := rest, block := s.block.clearStatus 0x0000000E } :=
    step_regWrite_reg (reg := .status) (by decide) hrun hin
  rw [Block.clearStatus_ack] at hstep
  exact ⟨_, hstep, rfl, rfl, by simp [Block.irq], rfl⟩

/-! ### An event at one instance (R292) -/

/-- The event e is the operation f of instance k; where the platform holds no instance k, it touches no instance (log 18). -/
structure Event.ActsAt (e : Event) (k : Nat) (f : State → Host.Outcome State Fault Refusal) : Prop where
  held : ∀ s, k ≤ s.others.length → perform e s = onInstance k f s
  absent : ∀ s, ¬ k ≤ s.others.length → ∃ t, perform e s = .next t ∧ t.blocks = s.blocks

theorem Event.ActsAt.of_ite {e : Event} {k : Nat} {f : State → Host.Outcome State Fault Refusal} {g : State → State}
    (hg : ∀ s, (g s).blocks = s.blocks)
    (h : ∀ s, perform e s = if s.hasInstance k then onInstance k f s else .next (g s)) : e.ActsAt k f where
  held s hk := by rw [h, State.hasInstance, if_pos (decide_eq_true hk)]
  absent s hk := ⟨g s, by rw [h, State.hasInstance, if_neg (by simpa using hk)], hg s⟩

theorem Event.ActsAt.regWrite (k bits : Nat) (off : BitVec 8) (v : Word) :
    (Event.regWrite k bits off v).ActsAt k fun t => t.regWrite bits off v :=
  .of_ite (g := fun s => s.answer .refused) (fun _ => rfl) fun _ => rfl

theorem Event.ActsAt.regRead (k bits : Nat) (off : BitVec 8) :
    (Event.regRead k bits off).ActsAt k fun t => .next (t.regRead bits off) :=
  .of_ite (g := fun s => s.answer .refused) (fun _ => rfl) fun _ => rfl

theorem Event.ActsAt.wait (k : Nat) : (Event.wait k).ActsAt k fun t => .next (t.waitTurn k) :=
  .of_ite (g := fun s => s.answer .refused) (fun _ => rfl) fun _ => rfl

theorem Event.ActsAt.irqRead (k : Nat) : (Event.irqRead k).ActsAt k fun t => .next t.irqRead :=
  .of_ite (g := fun s => s.answer .refused) (fun _ => rfl) fun _ => rfl

theorem Event.ActsAt.block (k : Nat) : (Event.block k).ActsAt k blockTurn :=
  .of_ite (g := id) (fun _ => rfl) fun _ => rfl

theorem Event.ActsAt.reset (k : Nat) (level : Bool) :
    (Event.reset k level).ActsAt k fun t => .next (if level then t.assertReset else t.releaseReset) :=
  .of_ite (g := id) (fun _ => rfl) fun _ => rfl

/-! ### What an operation of instance 0 leaves of the others -/

/-- Where f gives a next state, the instances beside instance 0 are as before. -/
def KeepsOthers (f : State → Host.Outcome State Fault Refusal) : Prop := ∀ ⦃s t⦄, f s = .next t → t.others = s.others

theorem KeepsOthers.of_next {g : State → State} (hg : ∀ s, (g s).others = s.others) : KeepsOthers fun s => .next (g s) := by
  rintro s _ ⟨⟩
  exact hg s

theorem exec_keepsOthers (i : Instr) : KeepsOthers (exec i) := by
  intro s t h
  rcases exec_cases i s with ⟨_, he⟩ | ⟨c, _, _, he⟩ | ⟨c, n, _, _, _, _, he⟩ <;> rw [he] at h <;> cases h <;> rfl

theorem blockTurn_keepsOthers : KeepsOthers blockTurn := by
  intro s t h
  rcases blockTurn_cases s with ⟨_, hb⟩ | ⟨c, e, _, _, hb⟩ | ⟨c, i, _, _, hb⟩ <;> rw [hb] at h
  case inr.inr => exact exec_keepsOthers i h
  all_goals cases h; rfl

theorem State.writeCmd_keepsOthers (w : Word) : KeepsOthers fun s => s.writeCmd w := by
  intro s t (h : s.writeCmd w = .next t)
  rcases s.writeCmd_cases w with ⟨_, hw⟩ | ⟨_, _, hw⟩ | ⟨_, _, hw⟩ <;> rw [hw] at h <;> cases h <;> rfl

theorem State.regWrite_keepsOthers (bits : Nat) (off : BitVec 8) (v : Word) :
    KeepsOthers fun s => s.regWrite bits off v := by
  intro s t (h : s.regWrite bits off v = .next t)
  rcases s.regWrite_cases bits off v with ⟨_, hw⟩ | ⟨_, _, hw⟩ | ⟨_, _, hw⟩ | ⟨_, reg, _, _, hw⟩ <;> rw [hw] at h
  case inr.inr.inl => exact State.writeCmd_keepsOthers v h
  all_goals cases h; rfl

@[simp] theorem State.regRead_others (s : State) (bits : Nat) (off : BitVec 8) : (s.regRead bits off).others = s.others := by
  rcases s.regRead_cases bits off with ⟨_, h⟩ | ⟨_, _, h⟩ | ⟨_, reg, _, h⟩ <;> simp [h]

@[simp] theorem State.waitTurn_others (s : State) (k : Nat) : (s.waitTurn k).others = s.others := by
  rcases s.waitTurn_cases k with h | ⟨_, h⟩ <;> simp [h]

@[simp] theorem State.irqRead_others (s : State) : s.irqRead.others = s.others := by
  unfold State.irqRead
  split <;> rfl

/-- Beside instance 0, the list of instances is `others`. -/
theorem State.blocks_of_others_eq {s t : State} (h : t.others = s.others) {j : Nat} (hj : j ≠ 0) :
    t.blocks[j]? = s.blocks[j]? := by
  obtain ⟨m, rfl⟩ := Nat.exists_eq_succ_of_ne_zero hj
  simp [h]

/-- Instance k is exchanged with instance 0, changed there and put back; every other instance is found where it stood. -/
theorem onInstance_blocks {f : State → Host.Outcome State Fault Refusal} (hf : KeepsOthers f) {s t : State} {k j : Nat}
    (hk : k ≤ s.others.length) (h : onInstance k f s = .next t) (hj : j ≠ k) : t.blocks[j]? = s.blocks[j]? := by
  obtain ⟨u, hu, rfl⟩ := mapNext_eq_next h
  have hothers : u.others = (s.focus k).others := hf hu
  have hku : k ≤ u.others.length := by rwa [hothers, State.focus_others_length]
  rw [u.focus_blocks hku]
  by_cases hj0 : j = 0
  · subst hj0
    rw [if_pos rfl, State.blocks_of_others_eq hothers hj.symm, s.focus_blocks hk, if_neg hj.symm, if_pos rfl]
  · rw [if_neg hj0, if_neg hj, State.blocks_of_others_eq hothers hj0, s.focus_blocks hk, if_neg hj0, if_neg hj]

theorem Event.ActsAt.blocks_of_ne {e : Event} {k : Nat} {f : State → Host.Outcome State Fault Refusal} (he : e.ActsAt k f)
    (hf : KeepsOthers f) {s t : State} (h : perform e s = .next t) {j : Nat} (hj : j ≠ k) : t.blocks[j]? = s.blocks[j]? := by
  by_cases hk : k ≤ s.others.length
  · exact onInstance_blocks hf hk ((he.held s hk).symm.trans h) hj
  · obtain ⟨u, hu, hblocks⟩ := he.absent s hk
    obtain rfl : u = t := by simpa [hu] using h
    rw [hblocks]

/-- Settles O54: each event is an operation of one instance, and none of these operations touches the instances beside it. -/
theorem instancesShareOnlyFrameMemory : Obligations.InstancesShareOnlyFrameMemory := by
  intro s t e k j rest hform hin h hj
  rw [step_of_inbox hin] at h
  suffices ∃ f, e.ActsAt k f ∧ KeepsOthers f by
    obtain ⟨f, he, hf⟩ := this
    exact he.blocks_of_ne hf h hj
  rcases hform with ⟨bits, off, v, rfl⟩ | ⟨bits, off, rfl⟩ | rfl | rfl | rfl | ⟨level, rfl⟩
  · exact ⟨_, .regWrite k bits off v, State.regWrite_keepsOthers bits off v⟩
  · exact ⟨_, .regRead k bits off, .of_next fun s => s.regRead_others bits off⟩
  · exact ⟨_, .wait k, .of_next fun s => s.waitTurn_others k⟩
  · exact ⟨_, .irqRead k, .of_next State.irqRead_others⟩
  · exact ⟨_, .block k, blockTurn_keepsOthers⟩
  · refine ⟨_, .reset k level, .of_next fun s => ?_⟩
    cases level
    · exact s.releaseReset_others
    · exact s.assertReset_others

/-! ### Every instance is a copy of instance 0 (R292) -/

/-- Which instance is in front changes nothing but the places of two instances. -/
theorem State.focus_eq (s : State) (k : Nat) :
    s.focus k = { s with block := (s.focus k).block, others := (s.focus k).others } := by
  cases k with
  | zero => rfl
  | succ j => unfold State.focus; cases h : s.others[j]? <;> simp [h]

theorem mapNext_eq_next_iff {f : State → State} {o : Host.Outcome State Fault Refusal} {t : State} :
    mapNext f o = .next t ↔ ∃ u, o = .next u ∧ t = f u := by
  refine ⟨mapNext_eq_next, ?_⟩
  rintro ⟨u, rfl, rfl⟩
  rfl

theorem mapNext_eq_fault_iff {f : State → State} {o : Host.Outcome State Fault Refusal} {r : Fault} :
    mapNext f o = .fault r ↔ o = .fault r := by
  refine ⟨mapNext_eq_fault, ?_⟩
  rintro rfl
  rfl

theorem step_withInbox (s : State) (e : Event) (rest : List Event) :
    step { s with inbox := e :: rest } = perform e { s with inbox := rest } :=
  step_of_inbox rfl

/-- Two events that are the same operation, one of instance k and one of instance 0: the step of the first is the step of the
second on the exchanged instances, exchanged back. -/
theorem step_eq_mapNext_focus {e e0 : Event} {k : Nat} {f : State → Host.Outcome State Fault Refusal} (he : e.ActsAt k f)
    (he0 : e0.ActsAt 0 f) {s : State} {rest : List Event} (hk : k ≤ s.others.length) (hin : s.inbox = e :: rest) :
    step s = mapNext (fun u => u.focus k) (step (({ s with inbox := e0 :: rest } : State).focus k)) := by
  have hfront : step (({ s with inbox := e0 :: rest } : State).focus k) = f (({ s with inbox := rest } : State).focus k) :=
    calc step (({ s with inbox := e0 :: rest } : State).focus k)
        = perform e0 (({ s with inbox := rest } : State).focus k) := by
          rw [s.focus_withInbox k (e0 :: rest), s.focus_withInbox k rest]
          exact step_withInbox (s.focus k) e0 rest
      _ = f (({ s with inbox := rest } : State).focus k) :=
          (he0.held _ (Nat.zero_le _)).trans (onInstance_zero f _)
  rw [hfront, step_of_inbox hin]
  exact he.held { s with inbox := rest } hk

/-- Settles O60: each pair of events is one operation, done at instance k and at instance 0. -/
theorem everyInstanceActsAsInstanceZero : Obligations.EveryInstanceActsAsInstanceZero := by
  intro s k rest e e0 hk hform swapped
  refine ⟨⟨State.focus_eq _ k, State.focus_others_length _ k, State.focus_blocks { s with inbox := e0 :: rest } hk⟩,
    fun hin => ?_⟩
  have hsame : ∃ f, e.ActsAt k f ∧ e0.ActsAt 0 f := by
    rcases hform with ⟨bits, off, v, rfl, rfl⟩ | ⟨bits, off, rfl, rfl⟩ | ⟨rfl, rfl⟩ | ⟨rfl, rfl⟩ | ⟨level, rfl, rfl⟩
    · exact ⟨_, .regWrite k bits off v, .regWrite 0 bits off v⟩
    · exact ⟨_, .regRead k bits off, .regRead 0 bits off⟩
    · exact ⟨_, .irqRead k, .irqRead 0⟩
    · exact ⟨_, .block k, .block 0⟩
    · exact ⟨_, .reset k level, .reset 0 level⟩
  obtain ⟨f, he, he0⟩ := hsame
  rw [step_eq_mapNext_focus he he0 hk hin]
  exact ⟨fun _ => mapNext_eq_next_iff, fun _ => mapNext_eq_fault_iff⟩

/-! ### Concurrent commands that share a byte (R292, H6) -/

theorem overlaps_of_shared {d e : Extent} {a : Nat} (hd : d.base ≤ a ∧ a < d.base + d.len)
    (he : e.base ≤ a ∧ a < e.base + e.len) : overlaps d e = true := by
  rw [overlaps_iff, Apart]
  omega

/-- A command that writes a byte of any extent of another clashes with it. -/
theorem Snapshot.clashes_of_shared {c c' : Snapshot} {d e : Extent} {a : Nat} (hd : c.output = some d) (he : e ∈ c'.extents)
    (hda : d.base ≤ a ∧ a < d.base + d.len) (hea : e.base ≤ a ∧ a < e.base + e.len) : c.clashes c' = true := by
  refine Bool.or_eq_true_iff.mpr (.inl ?_)
  rw [hd]
  exact List.any_eq_true.mpr ⟨e, he, overlaps_of_shared hda hea⟩

theorem Snapshot.output_of_decode {c : Snapshot} {i : Instr} (h : decode c.word = .ok i) : c.output = extentD i c.regs := by
  simp [Snapshot.output, h]

theorem State.writeCmd_clash {s : State} {w : Word} {b : Block} {c : Snapshot} (hp : s.block.pending = none)
    (hb : b ∈ s.others) (hc : b.pending = some c) (hclash : c.clashes ⟨w, s.block.regs⟩ = true) :
    s.writeCmd w = .fault .sharedExtents := by
  rcases s.writeCmd_cases w with ⟨hbusy, -⟩ | ⟨-, -, hfault⟩ | ⟨-, hfree, -⟩
  · simp [Block.busy, hp] at hbusy
  · exact hfault
  · exact absurd ((hfree b hb c hc).symm.trans hclash) (by decide)

/-- Settles O55: whichever of the two commands writes the shared byte, they clash. -/
theorem sharedOutputsStopTheMachine : Obligations.SharedOutputsStopTheMachine := by
  intro s w rest b c i i' d e a hin hrun hp hb hc hi hi' hextents hd hd' he he'
  have hclash : c.clashes ⟨w, s.block.regs⟩ = true := by
    rcases hextents with ⟨hout, hother⟩ | ⟨hinput, hout⟩
    · have hc : e ∈ c.extents := Snapshot.mem_extents_iff.mpr ⟨i', hi', hother⟩
      have hw : Snapshot.output ⟨w, s.block.regs⟩ = some d :=
        (Snapshot.output_of_decode (c := ⟨w, s.block.regs⟩) hi).trans hout
      exact (Snapshot.clashes_comm ..).trans (Snapshot.clashes_of_shared hw hc ⟨hd, hd'⟩ ⟨he, he'⟩)
    · have hw : d ∈ Snapshot.extents ⟨w, s.block.regs⟩ := Snapshot.mem_extents_iff.mpr ⟨i, hi, .inl hinput⟩
      have hc : c.output = some e := (Snapshot.output_of_decode hi').trans hout
      exact Snapshot.clashes_of_shared hc hw ⟨he, he'⟩ ⟨hd, hd'⟩
  exact (step_regWrite_cmd hrun hin).trans (State.writeCmd_clash (s := { s with inbox := rest }) hp hb hc hclash)

/-! ### What can stop a step (R272, R277, R310) -/

/-- The outcome is a next state, or a fault among those of P: never a refusal. -/
def StopsOnly (P : Fault → Prop) : Host.Outcome State Fault Refusal → Prop
  | .next _ => True
  | .fault r => P r
  | .refused _ => False

/-- The faults an event can end in: shared extents at a CMD write, a live extent at a memory write, and an address beyond
MEM_SIZE at a memory access. -/
def Event.CanStop : Event → Fault → Prop
  | .regWrite _ bits off _, r => r = .sharedExtents ∧ bits = 32 ∧ off = Reg.cmd.offset
  | .memWrite _ _, r => r = .hostWroteLiveExtent ∨ r = .addressBeyondMemory
  | .memRead _ _, r => r = .addressBeyondMemory
  | .regRead .., _ | .wait _, _ | .irqRead _, _ | .block _, _ | .reset .., _ => False

section
variable {P : Fault → Prop}

theorem StopsOnly.mapNext {o : Host.Outcome State Fault Refusal} (h : StopsOnly P o) (g : State → State) :
    StopsOnly P (mapNext g o) := by
  cases o <;> exact h

/-- An event at an instance stops as the operation does. -/
theorem Event.ActsAt.stopsOnly {e : Event} {k : Nat} {f : State → Host.Outcome State Fault Refusal} (he : e.ActsAt k f)
    (hf : ∀ s, StopsOnly P (f s)) (s : State) : StopsOnly P (perform e s) := by
  by_cases hk : k ≤ s.others.length
  · rw [he.held s hk]
    exact (hf _).mapNext _
  · obtain ⟨t, ht, -⟩ := he.absent s hk
    rw [ht]
    trivial

/-- No command stops the machine (R272). -/
theorem blockTurn_stopsOnly (s : State) : StopsOnly P (blockTurn s) := by
  obtain ⟨t, ht, -⟩ := blockTurn_next s
  rw [ht]
  trivial

end

theorem Reg.offset_of_ofOffset {off : BitVec 8} {reg : Reg} (h : Reg.ofOffset off = some reg) : off = reg.offset :=
  (beq_iff_eq.mp (List.find?_some (p := fun r : Reg => r.offset == off) h)).symm

/-- A register write stops where it is an accepted CMD write that shares extents. -/
theorem State.regWrite_stopsOnly (k bits : Nat) (off : BitVec 8) (v : Word) (s : State) :
    StopsOnly (Event.regWrite k bits off v).CanStop (s.regWrite bits off v) := by
  rcases s.regWrite_cases bits off v with ⟨_, hw⟩ | ⟨_, _, hw⟩ | ⟨htakes, hcmd, hw⟩ | ⟨_, reg, _, _, hw⟩ <;> rw [hw]
  case inr.inr.inl =>
    obtain ⟨-, hbits, -⟩ := State.portTakes_iff.mp htakes
    rcases s.writeCmd_cases v with ⟨_, he⟩ | ⟨_, _, he⟩ | ⟨_, _, he⟩ <;> rw [he]
    case inr.inl => exact ⟨rfl, hbits, Reg.offset_of_ofOffset hcmd⟩
    all_goals trivial
  all_goals trivial

theorem perform_stopsOnly (e : Event) (s : State) : StopsOnly e.CanStop (perform e s) := by
  cases e with
  | regWrite k bits off v => exact (Event.ActsAt.regWrite k bits off v).stopsOnly (State.regWrite_stopsOnly k bits off v) s
  | regRead k bits off => exact (Event.ActsAt.regRead k bits off).stopsOnly (fun _ => trivial) s
  | wait k => exact (Event.ActsAt.wait k).stopsOnly (fun _ => trivial) s
  | irqRead k => exact (Event.ActsAt.irqRead k).stopsOnly (fun _ => trivial) s
  | memWrite a bytes =>
    show StopsOnly _ (s.memWrite a bytes)
    rcases s.memWrite_cases a bytes with ⟨_, hw⟩ | ⟨_, _, hw⟩ | ⟨_, _, hw⟩ <;> rw [hw]
    · exact .inr rfl
    · exact .inl rfl
    · trivial
  | memRead a n =>
    show StopsOnly _ (s.memRead a n)
    rcases s.memRead_cases a n with ⟨_, hr⟩ | ⟨_, hr⟩ <;> rw [hr]
    · rfl
    · trivial
  | block k => exact (Event.ActsAt.block k).stopsOnly blockTurn_stopsOnly s
  | reset k level => exact (Event.ActsAt.reset k level).stopsOnly (fun _ => trivial) s

/-- A step stops on the event at the head of the inbox, or not at all. -/
theorem step_stopsOnly (s : State) : StopsOnly (fun r => ∃ e rest, s.inbox = e :: rest ∧ e.CanStop r) (step s) := by
  cases hin : s.inbox with
  | cons e rest =>
    rw [step_of_inbox hin]
    have h := perform_stopsOnly e { s with inbox := rest }
    cases hperform : perform e { s with inbox := rest } <;> rw [hperform] at h
    case next => trivial
    case fault => exact ⟨e, rest, rfl, h⟩
    case refused => exact h
  | nil =>
    unfold step turn
    rw [hin]
    cases hp : s.pendingInstance with
    | some k => exact (blockTurn_stopsOnly (s.focus k)).mapNext _
    | none => trivial

/-- Settles O58, by the faults each event can end in. -/
theorem stepStopsOnlyOnBrokenHostDuties : Obligations.StepStopsOnlyOnBrokenHostDuties := by
  intro s
  have hstops := step_stopsOnly s
  refine ⟨fun r hrefused => ?_, fun r hfault => ?_⟩
  · rw [hrefused] at hstops
    exact hstops
  · rw [hfault] at hstops
    obtain ⟨e, rest, hin, hcan⟩ := hstops
    cases e with
    | regWrite k bits off v =>
      obtain ⟨rfl, rfl, rfl⟩ := hcan
      exact .inl ⟨rfl, k, v, rest, hin⟩
    | memWrite a bytes =>
      rcases hcan with rfl | rfl
      · exact .inr (.inl ⟨rfl, a, bytes, rest, hin⟩)
      · exact .inr (.inr ⟨rfl, a, rest, .inl ⟨bytes, hin⟩⟩)
    | memRead a n => exact .inr (.inr ⟨hcan, a, rest, .inr ⟨n, hin⟩⟩)
    | regRead | wait | irqRead | block | reset => exact hcan.elim

end Sys2Proof.Machine
end

section
/-! PROOFS. 70_reset_and_hazards.md: what the reset input does to the block and to frame memory (R300 to R302, R304). -/

namespace Sys2Proof.Machine

/-! ### The two extents of a pending command (R96) -/

theorem Snapshot.output_eq_none {c : Snapshot} (h : ∀ i, decode c.word = .ok i → extentD i c.regs = none) :
    c.output = none := by
  cases hd : decode c.word with
  | ok i => exact (Snapshot.output_of_decode hd).trans (h i hd)
  | error e => simp [Snapshot.output, hd]

theorem Snapshot.inputs_of_decode {c : Snapshot} {i : Instr} (h : decode c.word = .ok i) :
    c.inputs = inputExtents i c.regs := by
  simp [Snapshot.inputs, h]

/-! ### What an abandoned command leaves of frame memory (R301, R302) -/

/-- With no output extent there is nothing to abandon. -/
theorem State.abandon_of_no_output {s : State} (h : ∀ c, s.block.pending = some c → c.output = none) : s.abandon = s := by
  unfold State.abandon
  cases hp : s.block.pending with
  | none => rfl
  | some c => simp [h c hp]

/-- A byte outside the output of the pending command, and a byte of an input of it, outlives the command. -/
theorem State.read_abandon_of_decode {s : State} {c : Snapshot} {i : Instr} {d : Extent} {a : Nat}
    (hp : s.block.pending = some c) (hi : decode c.word = .ok i) (hd : extentD i c.regs = some d)
    (ha : a < d.base ∨ d.base + d.len ≤ a ∨ ∃ e ∈ inputExtents i c.regs, e.base ≤ a ∧ a < e.base + e.len) :
    s.abandon.mem.read a = s.mem.read a := by
  refine s.read_abandon a fun c' hc' d' hd' hcovers => ?_
  obtain rfl : c = c' := Option.some.inj (hp.symm.trans hc')
  obtain rfl : d = d' := Option.some.inj (hd.symm.trans ((Snapshot.output_of_decode hi).symm.trans hd'))
  obtain ⟨hlo, hhi⟩ := Extent.covers_iff.mp hcovers
  rcases ha with hbelow | habove | ⟨e, he, hin⟩
  · omega
  · omega
  · rw [Snapshot.inputs_of_decode hi]
    exact List.any_eq_true.mpr ⟨e, he, Extent.covers_iff.mpr hin⟩

/-! ### The reset input (R300, R304) -/

/-- Asserting reset changes the block, and frame memory and the draw counter by what it abandons. -/
theorem State.assertReset_eq (s : State) :
    s.assertReset = { s with
      mem := s.abandon.mem
      draws := s.abandon.draws
      block := { Block.reset with inReset := true, unsettled := s.block.unsettled } } := by
  unfold State.assertReset
  rw [State.abandon_eq]

/-- A block that abandons no output leaves frame memory as it was. -/
theorem State.assertReset_mem_of_no_output {s : State} (h : ∀ c, s.block.pending = some c → c.output = none) :
    s.assertReset.mem = s.mem :=
  s.assertReset_mem.trans (congrArg State.mem (State.abandon_of_no_output h))

/-- Under reset STATUS holds its reset value: the fields it is made of do. -/
theorem State.assertReset_statusWord (s : State) : s.assertReset.block.statusWord = 0 :=
  show Block.reset.statusWord = 0 by decide

theorem step_reset {s : State} {level : Bool} {rest : List Event} (h : s.inbox = .reset 0 level :: rest) :
    step s = .next (if level then ({ s with inbox := rest } : State).assertReset
      else ({ s with inbox := rest } : State).releaseReset) := by
  rw [step_of_inbox h]
  exact ((Event.ActsAt.reset 0 level).held _ (Nat.zero_le _)).trans (onInstance_zero _ _)

/-- Settles O49: release is the level alone, and assertion touches frame memory only where a command is abandoned, which is in
its output and in no input. -/
theorem assertingResetAbandonsTheCommand : Obligations.AssertingResetAbandonsTheCommand := by
  intro s rest
  refine ⟨step_reset, fun hassert => ⟨_, step_reset hassert, State.assertReset_eq _, rfl, State.assertReset_statusWord _,
    fun hidle => ?_, fun c hp hno => ?_, fun c i d a hp hi hd ha => ?_⟩⟩
  · refine State.assertReset_mem_of_no_output fun c hp => ?_
    cases hidle.symm.trans hp
  · refine State.assertReset_mem_of_no_output fun c' hp' => ?_
    obtain rfl : c = c' := Option.some.inj (hp.symm.trans hp')
    exact Snapshot.output_eq_none hno
  · exact State.read_abandon_of_decode (s := { s with inbox := rest }) hp hi hd ha

end Sys2Proof.Machine
end
